-- ==== Sys2Proof/Word.lean ====
section
/-! DEFINITION. The word types of the port and of the command format (00_scope.md R9, R10; 30_encoding.md R81). -/

namespace Sys2Proof

/-- A register of the port: 32 bits, bit 0 the least significant (R9). -/
abbrev Word := BitVec 32

/-- One byte of the blob buffer. -/
abbrev Byte := BitVec 8

/-- The operand field `a` of a command word, bits 23:0 (30_encoding.md R81). -/
abbrev Operand := BitVec 24

/-- A bitstring: index 0 is the FIRST bit, the one produced first by the encoder and consumed first by
the decoder (R10). -/
abbrev Bits := List Bool

end Sys2Proof
end

