-- ==== Sys2Proof/Config.lean ====
section
/-! DEFINITION. The three implementation parameters of the block (00_scope.md R5), their legal ranges and
the spec's defaults. The spec leaves no value free, so there is no free value here. -/

namespace Sys2Proof

/-- The implementation parameters (R5): the Symbol width, the count width, the blob capacity in bytes.
They are fixed for one instance of the block; no step changes them. -/
structure Params where
  symW : Nat
  cntW : Nat
  blobCap : Nat
  deriving DecidableEq, Repr

namespace Params

/-- The default parameters of R5, which every test vector of the spec uses. -/
def defaults : Params := { symW := 8, cntW := 32, blobCap := 65536 }

/-- The ranges of R5. -/
abbrev Legal (p : Params) : Prop :=
  (1 ≤ p.symW ∧ p.symW ≤ 21) ∧ (1 ≤ p.cntW ∧ p.cntW ≤ 32) ∧ (1 ≤ p.blobCap ∧ p.blobCap ≤ 2 ^ 21)

end Params

end Sys2Proof
end

