-- ==== Sys2Proof/Machine/Derived.lean ====
section
/-! DEFINITION. The constants that 00_scope.md R6 derives from the parameters. -/

namespace Sys2Proof.Params

/-- NSYM: the number of distinct Symbol values (R6). -/
def nsym (p : Params) : Nat := 2 ^ p.symW

/-- WGT_W: the width of a node weight and of TOKCNT (R6). -/
def wgtW (p : Params) : Nat := p.cntW + p.symW

/-- NODE_MAX: the largest number of tree nodes (R6). -/
def nodeMax (p : Params) : Nat := 2 * p.nsym - 1

/-- LEN_MAX: the longest possible code in bits (R6). -/
def lenMax (p : Params) : Nat := p.nsym - 1

/-- BIT_CAP: the capacity of the bit buffer in bits (R6). -/
def bitCap (p : Params) : Nat := 8 * (p.blobCap - 1)

/-- SYM_CAP: the capacity of the decoded-symbol buffer in Symbols (R6). -/
def symCap (p : Params) : Nat := p.bitCap

/-- CODE_WORDS: the 32-bit words needed to read one code back, `max(1, ceil(LEN_MAX / 32))` (R6). -/
def codeWords (p : Params) : Nat := max 1 ((p.lenMax + 31) / 32)

/-- The largest count an entry of FREQ can hold, `2^CNT_W - 1` (R22). -/
def cntMax (p : Params) : Nat := 2 ^ p.cntW - 1

/-- The static operand check of class `sym` (30_encoding.md R82): `a < NSYM`. -/
def symLegal (p : Params) (a : Operand) : Bool := decide (a.toNat < p.nsym)

end Sys2Proof.Params
end

