-- ==== Sys2Proof/Syntax.lean ====
section
/-! DEFINITION. The seventeen commands of the block (30_encoding.md R83), one constructor per row of
spec/opcode_table.json. A command of class `none` has no operand; class `sym` and class `idx` carry the
24-bit operand field; class `byte` carries a byte (R82). -/

namespace Sys2Proof

/-- A command, as 30_encoding.md R83 lists it. -/
inductive Instr where
  | nop
  | clrAll
  | histSym (sym : Operand)
  | freqLd (sym : Operand)
  | freqRd (sym : Operand)
  | treeBuild
  | nodeRd (idx : Operand)
  | codeGen
  | codeRd (sym : Operand)
  | encSym (sym : Operand)
  | decode
  | bitsRd (idx : Operand)
  | symRd (idx : Operand)
  | pack
  | unpack
  | blobPush (byte : Byte)
  | blobRd (idx : Operand)
  deriving DecidableEq, Repr

end Sys2Proof
end

