-- ==== Sys2Proof/WellFormed.lean ====
section
/-! DEFINITION. The static operand check of 30_encoding.md R82 as a check on a command: the Symbol of a
command of class `sym` is below NSYM. (A command of class `none` has no operand and one of class `byte`
carries a byte, so the checks of those two classes are the decoder's; class `idx` has none.) -/

namespace Sys2Proof

/-- A command whose operand is legal for its class (R82) in an instance with parameters `p`. -/
def Instr.wellFormed (p : Params) : Instr → Bool
  | .nop => true
  | .clrAll => true
  | .histSym a => p.symLegal a
  | .freqLd a => p.symLegal a
  | .freqRd a => p.symLegal a
  | .treeBuild => true
  | .nodeRd _ => true
  | .codeGen => true
  | .codeRd a => p.symLegal a
  | .encSym a => p.symLegal a
  | .decode => true
  | .bitsRd _ => true
  | .symRd _ => true
  | .pack => true
  | .unpack => true
  | .blobPush _ => true
  | .blobRd _ => true

end Sys2Proof
end

