-- ==== Sys2Proof/Decode.lean ====
section
/-! DEFINITION. The command decoder (30_encoding.md R80 to R84) and, after it, the encoder, both written
from the opcode map of R83. The decoder is total on 32-bit words and rejects by name. -/

namespace Sys2Proof

/-- Why a word is no command (R84). Raised by `decode`; each makes a CMD write take IllegalCommand, so
each is a behaviour the spec gives (safe). -/
inductive Illegal where
  /-- The opcode field is none of the seventeen of R83. -/
  | undefinedOpcode
  /-- A command of class `none` with `a ≠ 0`. -/
  | operandNotZero
  /-- A command of class `sym` with `a ≥ NSYM`. -/
  | symbolOutOfRange
  /-- A command of class `byte` with `a ≥ 256`. -/
  | byteOutOfRange
  deriving DecidableEq, Repr

/-- The opcode field, bits 31:24 (R81). -/
def opField (w : Word) : BitVec 8 := w.extractLsb' 24 8

/-- The operand field, bits 23:0 (R81). -/
def operandField (w : Word) : Operand := w.extractLsb' 0 24

/-- Class `none` (R82): the operand field must be 0. -/
def decodeNone (a : Operand) (i : Instr) : Except Illegal Instr :=
  if a = 0#24 then .ok i else .error .operandNotZero

/-- Class `sym` (R82): the operand field must be below NSYM. -/
def decodeSym (p : Params) (a : Operand) (i : Operand → Instr) : Except Illegal Instr :=
  if p.symLegal a then .ok (i a) else .error .symbolOutOfRange

/-- Class `byte` (R82): the operand field must be below 256; the byte is `a[7:0]`. -/
def decodeByte (a : Operand) (i : Byte → Instr) : Except Illegal Instr :=
  if a.toNat < 256 then .ok (i (a.setWidth 8)) else .error .byteOutOfRange

/-- Class `idx` (R82): no check at decode. -/
def decodeIdx (a : Operand) (i : Operand → Instr) : Except Illegal Instr := .ok (i a)

/-- The decoder: the opcode selects the row of R83, then the static operand check of R82 follows
(45_control.md R202 steps (2) and (3)). -/
def decode (p : Params) (w : Word) : Except Illegal Instr :=
  let a := operandField w
  match (opField w).toNat with
  | 0x00 => decodeNone a .nop
  | 0x01 => decodeNone a .clrAll
  | 0x10 => decodeSym p a .histSym
  | 0x11 => decodeSym p a .freqLd
  | 0x12 => decodeSym p a .freqRd
  | 0x20 => decodeNone a .treeBuild
  | 0x21 => decodeIdx a .nodeRd
  | 0x30 => decodeNone a .codeGen
  | 0x31 => decodeSym p a .codeRd
  | 0x40 => decodeSym p a .encSym
  | 0x41 => decodeNone a .decode
  | 0x42 => decodeIdx a .bitsRd
  | 0x43 => decodeIdx a .symRd
  | 0x50 => decodeNone a .pack
  | 0x51 => decodeNone a .unpack
  | 0x52 => decodeByte a .blobPush
  | 0x53 => decodeIdx a .blobRd
  | _ => .error .undefinedOpcode

/-- The opcode of a command (R83). -/
def Instr.opcode : Instr → BitVec 8
  | .nop => 0x00
  | .clrAll => 0x01
  | .histSym _ => 0x10
  | .freqLd _ => 0x11
  | .freqRd _ => 0x12
  | .treeBuild => 0x20
  | .nodeRd _ => 0x21
  | .codeGen => 0x30
  | .codeRd _ => 0x31
  | .encSym _ => 0x40
  | .decode => 0x41
  | .bitsRd _ => 0x42
  | .symRd _ => 0x43
  | .pack => 0x50
  | .unpack => 0x51
  | .blobPush _ => 0x52
  | .blobRd _ => 0x53

/-- The operand field of a command: its operand zero-extended, 0 for class `none` (R82). -/
def Instr.operand : Instr → Operand
  | .nop => 0
  | .clrAll => 0
  | .histSym a => a
  | .freqLd a => a
  | .freqRd a => a
  | .treeBuild => 0
  | .nodeRd a => a
  | .codeGen => 0
  | .codeRd a => a
  | .encSym a => a
  | .decode => 0
  | .bitsRd a => a
  | .symRd a => a
  | .pack => 0
  | .unpack => 0
  | .blobPush b => b.setWidth 24
  | .blobRd a => a

/-- The command word `{op, a}` with `op` in bits 31:24 and `a` in bits 23:0 (R81). -/
def commandWord (op : BitVec 8) (a : Operand) : Word := op ++ a

/-- The encoder: the word of a command (R81, R83). -/
def Instr.encode (i : Instr) : Word := commandWord i.opcode i.operand

/-- The instruction the decoder reads, at the default parameters, from an instruction whose bits are `w`
(its low `nbits` bits; every bit above is 0). A command is one 32-bit word (R80), so a longer bit
string is no command. -/
def decodeTableWord (nbits w : Nat) : Option Instr :=
  let v := w % 2 ^ nbits
  if v < 2 ^ 32 then (decode .defaults (BitVec.ofNat 32 v)).toOption else none

end Sys2Proof
end

