-- ==== Sys2Proof/Machine/State.lean ====
section
/-! DEFINITION. The state of the machine as plain data (10_state.md R21), its faults and refusals, and
the state right after reset (10_state.md R46, 70_reset_and_hazards.md R270). -/

namespace Sys2Proof.Machine

/-- An internal memory indexed by element (20_memory.md R69): the entries that differ from what an
unlisted index reads as, by strictly rising index (`Memory.wf`). FREQ's unlisted entry reads 0 (its
reset value, R22), CODE's reads as "no code" (R26). -/
abbrev Memory (α : Type) := List (Nat × α)

/-- One entry of the tree arena (10_state.md R24): a Leaf with its Symbol and weight, or an Internal node
with its weight and the indices of its two children. -/
inductive Node where
  | leaf (sym weight : Nat)
  | internal (weight left right : Nat)
  deriving DecidableEq, Repr

/-- The seven faults of 60_exceptions.md R240. A fault of this kind is TAKEN: the machine goes on. -/
inductive FaultKind where
  | unknownSymbol
  | invalidPadding
  | malformedFrequencyTable
  | illegalCommand
  | sequenceError
  | capacityExceeded
  | countOverflow
  deriving DecidableEq, Repr

/-- The sixteen registers of the port (10_state.md R36). -/
inductive Reg where
  | cmd | arg | status | err | errInfo | res0 | res1 | res2 | res3
  | tokCntLo | tokCntHi | nLeaf | nNodes | bitLen | blobLen | symLen
  deriving DecidableEq, Repr

/-- What the outside does to the block: a port operation with a word index (byte offset / 4, 20_memory.md
R60 to R62) and 32 bits of data, or a level driven on the reset input (70_reset_and_hazards.md R270). -/
inductive HostEvent where
  | regRead (index : Nat)
  | regWrite (index : Nat) (value : Word)
  | resetPin (asserted : Bool)
  deriving DecidableEq, Repr

/-- The architectural state of the block, the record of 10_state.md R21. The lists `node`, `bits`, `blob`
and `symBuf` hold exactly the meaningful entries (R44), so NNODES, BITLEN, BLOBLEN and SYMLEN are their
lengths (`State.nNodes` and so on). DEDUCED, log 4 and log 5. -/
structure Block where
  /-- FREQ (R22): the frequency table. -/
  freq : Memory Nat
  /-- TOKCNT (R23). -/
  tokCnt : Nat
  /-- NODE (R24), entries 0 to NNODES-1. -/
  node : List Node
  /-- NLEAF (R25). -/
  nLeaf : Nat
  /-- CODE (R26): the code of each Symbol that has one; `len` is the code's length. -/
  code : Memory Bits
  /-- BITS (R27), bits 0 to BITLEN-1. -/
  bits : Bits
  /-- BLOB (R28), bytes 0 to BLOBLEN-1. -/
  blob : List Byte
  /-- SYMBUF (R29), entries 0 to SYMLEN-1. -/
  symBuf : List Nat
  /-- FAULT (R30): a fault was taken and not yet cleared. -/
  fault : Bool
  /-- TREEVALID (R30). -/
  treeValid : Bool
  /-- CODEVALID (R30). -/
  codeValid : Bool
  /-- ERR (R31, R38): the fault code. -/
  err : BitVec 4
  /-- ERRINFO (R31): the command word that faulted. -/
  errInfo : Word
  /-- ARG (R32). -/
  arg : Word
  /-- RES0 to RES3 (R33). -/
  res0 : Word
  res1 : Word
  res2 : Word
  res3 : Word
  deriving DecidableEq, Repr

/-- ResetState (10_state.md R46): every register, flag and count 0, no meaningful entry in any memory. -/
def Block.reset : Block where
  freq := []
  tokCnt := 0
  node := []
  nLeaf := 0
  code := []
  bits := []
  blob := []
  symBuf := []
  fault := false
  treeValid := false
  codeValid := false
  err := 0
  errInfo := 0
  arg := 0
  res0 := 0
  res1 := 0
  res2 := 0
  res3 := 0

/-- The machine: the block with its parameters and its two sides towards the host. The last four fields are
the model's own (log 1, log 2, log 3, log 7). -/
structure State extends Block where
  /-- The parameters of the instance (00_scope.md R5), which no step changes. -/
  params : Params
  /-- The host's events not yet performed, oldest first (20_memory.md R70). -/
  pending : List HostEvent
  /-- What the last event returned to the host (20_memory.md R60): a word for a RegRead, else nothing. -/
  readData : Option Word
  /-- Whether the reset input is asserted (70_reset_and_hazards.md R270). -/
  resetPin : Bool
  deriving DecidableEq, Repr

/-- The machine right after reset: ResetState, the default parameters, no event pending. DESIGN CHOICE for
`pending`, `readData` and `resetPin`, which are the model's own fields: log 2, log 3, log 7. -/
def State.reset : State :=
  { Block.reset with params := .defaults, pending := [], readData := none, resetPin := false }

/-- Why the machine would stop with a fault. It has no constructor: every fault of the spec is taken and the
machine goes on, and "the block is never stuck" (45_control.md R203). Safe: nothing raises it. -/
inductive Fault where
  deriving DecidableEq, Repr

/-- Why an instruction would have no meaning. Only an arm of `exec` that is still without its meaning raises
it (safe); no arm does. -/
inductive Refusal where
  /-- The instruction of this mnemonic has no meaning yet. Raised by `exec`'s own arm only; safe. -/
  | notModelled (mnemonic : String)
  deriving DecidableEq, Repr

/-- How a command or a step ends. -/
abbrev Result := Host.Outcome State Fault Refusal

end Sys2Proof.Machine
end

