-- ==== Sys2Proof/Machine/Flags.lean ====
section
/-! DEFINITION. The flags and the status view (10_state.md R30, R37, R38), the fault codes (60_exceptions.md
R240), and the helper Invalidate (40_frequency_histogram.md R109). -/

namespace Sys2Proof.Machine

/-- The fault codes of R240. -/
def FaultKind.code : FaultKind → BitVec 4
  | .unknownSymbol => 1
  | .invalidPadding => 2
  | .malformedFrequencyTable => 3
  | .illegalCommand => 4
  | .sequenceError => 5
  | .capacityExceeded => 6
  | .countOverflow => 7

/-- One flag at its bit of STATUS. -/
def flagBit (b : Bool) (n : Nat) : Word := if b then 1#32 <<< n else 0#32

/-- STATUS (R37): bit 0 FAULT, bit 1 TREEVALID, bit 2 CODEVALID, bits 31:3 zero. -/
def State.statusWord (s : State) : Word :=
  flagBit s.fault 0 ||| flagBit s.treeValid 1 ||| flagBit s.codeValid 2

/-- Invalidate() (40_frequency_histogram.md R109): TREEVALID, CODEVALID, NLEAF and NNODES become 0. NODE and
CODE lose their last meaningful entry with it (R44), so their lists are emptied: log 5. -/
def State.invalidate (s : State) : State :=
  { s with treeValid := false, codeValid := false, nLeaf := 0, node := [], code := [] }

end Sys2Proof.Machine
end

