-- ==== Sys2Proof/Machine/Operands.lean ====
section
/-! DEFINITION. The views in which values enter and leave the port: the length registers (10_state.md R40),
the LO and HI words of a wide value (20_memory.md R67 (b)), runs of bits with the earliest bit most
significant (R66, R67 (c)). -/

namespace Sys2Proof.Machine

/-- NNODES (10_state.md R25). -/
def State.nNodes (s : State) : Nat := s.node.length

/-- BITLEN (10_state.md R27). -/
def State.bitLen (s : State) : Nat := s.bits.length

/-- BLOBLEN (10_state.md R28). -/
def State.blobLen (s : State) : Nat := s.blob.length

/-- SYMLEN (10_state.md R29). -/
def State.symLen (s : State) : Nat := s.symBuf.length

/-- `zext_32` of a value narrower than 32 bits (20_memory.md R67 (a)). -/
def zext32 (n : Nat) : Word := BitVec.ofNat 32 n

/-- Bits 31:0 of a WGT_W-bit value (20_memory.md R67 (b)). -/
def loWord (n : Nat) : Word := BitVec.ofNat 32 n

/-- `zext_32(v[WGT_W-1:32])` when WGT_W > 32, else 0 (10_state.md R39, 41_tree_builder.md R125). -/
def hiWord (p : Params) (n : Nat) : Word :=
  if p.wgtW > 32 then BitVec.ofNat 32 (n / 2 ^ 32 % 2 ^ (p.wgtW - 32)) else 0#32

/-- `n` bits with the earliest, `f 0`, in the most significant place (R66, R67 (c)). -/
def msbFirst : (n : Nat) → (Nat → Bool) → BitVec n
  | 0, _ => 0#0
  | n + 1, f => BitVec.cons (f 0) (msbFirst n fun j => f (j + 1))

/-- Bit `k` of a bitstring, 0 past its end. -/
def bitAt (b : Bits) (k : Nat) : Bool := b.getD k false

/-- Word `w` of a bitstring: bit `32w+j` in bit `31-j`, 0 past the end (R67 (c)). -/
def bitsWord (b : Bits) (w : Nat) : Word := msbFirst 32 fun j => bitAt b (32 * w + j)

/-- Byte `i` of a bitstring: bit `8i+j` in bit `7-j`, 0 past the end (R66). -/
def bitsByte (b : Bits) (i : Nat) : Byte := msbFirst 8 fun j => bitAt b (8 * i + j)

end Sys2Proof.Machine
end

