-- ==== Sys2Proof/Machine/Ops.lean ====
section
/-! DEFINITION. The shared operations: reading and writing an internal memory, ResetState, the result
registers, taking a fault and leaving the fault state, and the frame every command runs in. -/

namespace Sys2Proof.Machine

/-- `M[i]`: what is listed at `i`, else `d`, what an unlisted index reads as (00_scope.md R11). -/
def Memory.read {α : Type} (d : α) : Memory α → Nat → α
  | [], _ => d
  | (k, v) :: m, i => if k = i then v else Memory.read d m i

/-- `M[i] <- v`, keeping the indices rising and listing no entry equal to `d`. -/
def Memory.write {α : Type} [DecidableEq α] (d : α) : Memory α → Nat → α → Memory α
  | [], i, v => if v = d then [] else [(i, v)]
  | (k, u) :: m, i, v =>
    if i < k then (if v = d then (k, u) :: m else (i, v) :: (k, u) :: m)
    else if i = k then (if v = d then m else (i, v) :: m)
    else (k, u) :: Memory.write d m i v

/-- The canonical form of a memory: indices strictly rising, no entry equal to `d`. -/
abbrev Memory.wf {α : Type} (d : α) (m : Memory α) : Prop :=
  m.Pairwise (fun x y => x.1 < y.1) ∧ ∀ c ∈ m, c.2 ≠ d

/-- `FREQ[s]` (10_state.md R22). -/
def State.count (s : State) (sym : Nat) : Nat := Memory.read 0 s.freq sym

/-- `CODE[s].bits` (10_state.md R26); its length is `CODE[s].len`, 0 when the Symbol has no code. -/
def State.codeOf (s : State) (sym : Nat) : Bits := Memory.read [] s.code sym

/-- `state <- ResetState` (10_state.md R46): the one state change of hardware reset and CLR_ALL
(70_reset_and_hazards.md R271). The parameters and the host's side are not state of the block (R45). -/
def State.clear (s : State) : State := { s with toBlock := Block.reset }

/-- Writing the four result registers (10_state.md R33). -/
def State.setRes (s : State) (r0 r1 r2 r3 : Word) : State :=
  { s with res0 := r0, res1 := r1, res2 := r2, res3 := r3 }

/-- Fault entry (60_exceptions.md R245): ResetState, then ERR, ERRINFO and FAULT. There is no handler, no
vector and no mode; nothing else is saved. -/
def State.takeFault (s : State) (k : FaultKind) (w : Word) : State :=
  { s.clear with err := k.code, errInfo := w, fault := true }

/-- Fault exit (60_exceptions.md R248): ResetState with FAULT, ERR and ERRINFO 0. Nothing is restored. -/
def State.leaveFault (s : State) : State := s.clear

/-- The frame of every command but CLR_ALL: check (1) of each command rule (FAULT = 1: the command is ignored,
60_exceptions.md R247), then the command's own checks and effect, `body`; a check that fails raises its fault with
ERRINFO the command word (R245) and nothing else of the command remains (R246). The word is the command's encoding,
which is the word written: log 8. -/
def command (i : Instr) (s : State) (body : Except FaultKind State) : Result :=
  if s.fault then .next s
  else
    match body with
    | .ok t => .next t
    | .error k => .next (s.takeFault k i.encode)

/-- One check of a command: when `bad` holds the command raises `k`, else it goes on. -/
def check (bad : Bool) (k : FaultKind) (rest : Except FaultKind State) : Except FaultKind State :=
  if bad then .error k else rest

/-- The static operand check of a command of class `sym`, check (2) of its rule (30_encoding.md R82). -/
def checkSym (s : State) (a : Operand) (rest : Except FaultKind State) : Except FaultKind State :=
  check (!s.params.symLegal a) .illegalCommand rest

end Sys2Proof.Machine
end

