-- ==== Sys2Proof/Machine/Tree.lean ====
section
/-! DEFINITION. priority_queue_tree_builder: TREE_BUILD and NODE_RD (41_tree_builder.md R120 to R125). -/

namespace Sys2Proof.Machine

/-- The weight of a node (10_state.md R24). -/
def Node.weight : Node → Nat
  | .leaf _ w => w
  | .internal w _ _ => w

/-- The key of a node in the priority collection: its weight and its index, which is its creation sequence
number (R121). -/
structure Key where
  weight : Nat
  index : Nat
  deriving DecidableEq, Repr

/-- The order of R121: the smaller weight first, and at equal weights the smaller index. -/
def Key.before (x y : Key) : Bool :=
  decide (x.weight < y.weight) || (decide (x.weight = y.weight) && decide (x.index < y.index))

/-- The key of a collection that comes before every other, `x` being the best so far. -/
def leastKey (x : Key) : List Key → Key
  | [] => x
  | y :: q => leastKey (if y.before x then y else x) q

/-- ExtractMin (R121): the one node that comes before every other, and the collection without it. -/
def extractMin : List Key → Option (Key × List Key)
  | [] => none
  | x :: q => some (leastKey x q, (x :: q).erase (leastKey x q))

/-- The seeding loop (R120): one Leaf for each Symbol with a non-zero count, by ascending Symbol value. -/
def seedLeaves (p : Params) (freq : Memory Nat) : List Node :=
  (List.range p.nsym).filterMap fun sym =>
    let c := Memory.read 0 freq sym
    if c = 0 then none else some (.leaf sym c)

/-- The keys of the nodes of an arena, in index order. -/
def arenaKeys (arena : List Node) : List Key :=
  arena.zipIdx.map fun x => { weight := x.1.weight, index := x.2 }

/-- The merging loop (R120): while two nodes remain, the two that come first become the left and the right
child (R122) of a new Internal node with their summed weight. Each turn takes one node off the collection, so as
many turns as it has nodes are enough. -/
def mergeNodes : Nat → List Key → List Node → List Node
  | 0, _, arena => arena
  | n + 1, q, arena =>
    match extractMin q with
    | none => arena
    | some (l, q) =>
      match extractMin q with
      | none => arena
      | some (r, q) =>
        let w := l.weight + r.weight
        mergeNodes n (q ++ [{ weight := w, index := arena.length }]) (arena ++ [.internal w l.index r.index])

/-- The arena TREE_BUILD produces: a function of FREQ alone (R126). -/
def buildArena (p : Params) (freq : Memory Nat) : List Node :=
  let leaves := seedLeaves p freq
  mergeNodes leaves.length (arenaKeys leaves) leaves

/-- TREE_BUILD (R120): NODE, NLEAF and NNODES from FREQ; TREEVALID <- 1, CODEVALID <- 0. The code table loses
its meaning with CODEVALID, so its list is emptied: log 5. -/
def execTreeBuild (s : State) : Result :=
  command .treeBuild s <|
    .ok { s with
      node := buildArena s.params s.freq
      nLeaf := (seedLeaves s.params s.freq).length
      treeValid := true
      codeValid := false
      code := [] }

/-- RES2 of NODE_RD (R125): the Symbol of a Leaf, or bit 31 set and the left child. -/
def nodeRes2 : Node → Word
  | .leaf sym _ => zext32 sym
  | .internal _ l _ => 0x80000000#32 ||| zext32 l

/-- RES3 of NODE_RD (R125): 0 for a Leaf, the right child of an Internal node. -/
def nodeRes3 : Node → Word
  | .leaf _ _ => 0#32
  | .internal _ _ r => zext32 r

/-- NODE_RD (R125): the four result registers from one node; the index is below NNODES. -/
def execNodeRd (idx : Operand) (s : State) : Result :=
  command (.nodeRd idx) s <|
    check (!s.treeValid) .sequenceError <|
    match s.node[idx.toNat]? with
    | none => .error .illegalCommand
    | some n => .ok (s.setRes (loWord n.weight) (hiWord s.params n.weight) (nodeRes2 n) (nodeRes3 n))

end Sys2Proof.Machine
end

