-- ==== Sys2Proof/Machine/CodeTable.lean ====
section
/-! DEFINITION. Code-table generation: CODE_GEN and CODE_RD (42_code_table.md R140 to R144). -/

namespace Sys2Proof.Machine

/-- The traversal of R140 with its explicit stack of (node, path): a Leaf records its path, an Internal node
is replaced by its two children, the left one (path ++ "0") on top of the right one (path ++ "1"). Every node of a
built arena is popped once, so as many turns as the arena has nodes are enough; an entry that names no node, which no
built arena has, records nothing: log 6. -/
def traverse (arena : List Node) : Nat → List (Nat × Bits) → Memory Bits → Memory Bits
  | 0, _, table => table
  | _ + 1, [], table => table
  | n + 1, (i, path) :: stack, table =>
    match arena[i]? with
    | some (.leaf sym _) => traverse arena n stack (Memory.write [] table sym path)
    | some (.internal _ l r) =>
      traverse arena n ((l, path ++ [false]) :: (r, path ++ [true]) :: stack) table
    | none => traverse arena n stack table

/-- The code table of an arena (R140). The root is the last node; an empty arena has the empty table (R144)
and a root that is a Leaf gets the one-bit code "0" (R142). -/
def codeTable (arena : List Node) : Memory Bits :=
  match arena.getLast? with
  | none => []
  | some (.leaf sym _) => Memory.write [] [] sym [false]
  | some (.internal _ _ _) => traverse arena arena.length [(arena.length - 1, [])] []

/-- CODE_GEN (R140): the code table from the built tree; CODEVALID <- 1. -/
def execCodeGen (s : State) : Result :=
  command .codeGen s <|
    check (!s.treeValid) .sequenceError <|
    .ok { s with code := codeTable s.node, codeValid := true }

/-- CODE_RD (R143): RES0 <- the code's length, RES1 <- its word number ARG, the earliest bit in bit 31 and 0
past its end. -/
def execCodeRd (sym : Operand) (s : State) : Result :=
  let b := s.codeOf sym.toNat
  command (.codeRd sym) s <|
    checkSym s sym <|
    check (!s.codeValid) .sequenceError <|
    check (decide (s.params.codeWords ≤ s.arg.toNat)) .illegalCommand <|
    .ok (s.setRes (zext32 b.length) (bitsWord b s.arg.toNat) 0 0)

end Sys2Proof.Machine
end

