-- ==== Sys2Proof/Machine/Codec.lean ====
section
/-! DEFINITION. The bitstream codec: ENC_SYM, DECODE, BITS_RD, SYM_RD (43_bitstream_codec.md R160 to R166). -/

namespace Sys2Proof.Machine

/-- ENC_SYM (R160): append the Symbol's code to the bitstring. -/
def execEncSym (sym : Operand) (s : State) : Result :=
  let b := s.codeOf sym.toNat
  command (.encSym sym) s <|
    checkSym s sym <|
    check (!s.codeValid) .sequenceError <|
    check (b.length == 0) .unknownSymbol <|
    check (decide (s.params.bitCap < s.bitLen + b.length)) .capacityExceeded <|
    .ok { s with bits := s.bits ++ b }

/-- One move of the decoder's cursor (R161): to the left child on 0, to the right child on 1. A cursor that
stands on no Internal node, which no walk of a built arena reaches, stays: log 6. -/
def moveCursor (arena : List Node) (cur : Nat) (b : Bool) : Nat :=
  match arena[cur]? with
  | some (.internal _ l r) => if b then r else l
  | _ => cur

/-- The decoder's loop (R161): on landing on a Leaf, emit its Symbol and reset the cursor to the root. Trailing
bits that reach no Leaf leave nothing (R163). -/
def walkBits (arena : List Node) (root : Nat) : Nat → Bits → List Nat
  | _, [] => []
  | cur, b :: bs =>
    let c := moveCursor arena cur b
    match arena[c]? with
    | some (.leaf sym _) => sym :: walkBits arena root root bs
    | _ => walkBits arena root c bs

/-- The Symbols a bitstring decodes to (R161): none with no tree (R164), the sole Symbol once per bit with a
single-leaf tree (R162), else the walk from the root. -/
def decodeBits (arena : List Node) (bits : Bits) : List Nat :=
  match arena.getLast? with
  | none => []
  | some (.leaf sym _) => bits.map fun _ => sym
  | some (.internal _ _ _) => walkBits arena (arena.length - 1) (arena.length - 1) bits

/-- DECODE (R161): replace SYMBUF with the decoded Symbols; BITS is not consumed. Bits with no tree to decode
them raise MalformedFrequencyTable (R164). -/
def execDecode (s : State) : Result :=
  command .decode s <|
    check (!s.treeValid) .sequenceError <|
    check (s.nNodes == 0 && s.bitLen != 0) .malformedFrequencyTable <|
    .ok { s with symBuf := decodeBits s.node s.bits }

/-- BITS_RD (R165): RES0 <- word `idx` of the bitstring, the earliest bit in bit 31; the index is below
`ceil(BITLEN / 32)`. -/
def execBitsRd (idx : Operand) (s : State) : Result :=
  command (.bitsRd idx) s <|
    check (decide ((s.bitLen + 31) / 32 ≤ idx.toNat)) .illegalCommand <|
    .ok (s.setRes (bitsWord s.bits idx.toNat) 0 0 0)

/-- SYM_RD (R166): RES0 <- one decoded Symbol; the index is below SYMLEN. -/
def execSymRd (idx : Operand) (s : State) : Result :=
  command (.symRd idx) s <|
    match s.symBuf[idx.toNat]? with
    | none => .error .illegalCommand
    | some sym => .ok (s.setRes (zext32 sym) 0 0 0)

end Sys2Proof.Machine
end

