-- ==== Sys2Proof/Machine/Control.lean ====
section
/-! DEFINITION. The control commands NOP and CLR_ALL (45_control.md R200, R201). -/

namespace Sys2Proof.Machine

/-- NOP (R200): no state changes. -/
def execNop (s : State) : Result := command .nop s (.ok s)

/-- CLR_ALL (R201): `state <- ResetState`. It is the only command executed while FAULT = 1, and then it is
the exit from the fault state (60_exceptions.md R248). -/
def execClrAll (s : State) : Result := .next s.leaveFault

end Sys2Proof.Machine
end

