-- ==== Sys2Proof/Machine/Histogram.lean ====
section
/-! DEFINITION. frequency_histogram: HIST_SYM, FREQ_LD, FREQ_RD (40_frequency_histogram.md R104 to R106). -/

namespace Sys2Proof.Machine

/-- HIST_SYM (R104): count one occurrence of the Symbol, after the check that the count does not overflow;
then Invalidate. -/
def execHistSym (sym : Operand) (s : State) : Result :=
  let c := s.count sym.toNat
  command (.histSym sym) s <|
    checkSym s sym <|
    check (c == s.params.cntMax) .countOverflow <|
    .ok { s with freq := Memory.write 0 s.freq sym.toNat (c + 1), tokCnt := s.tokCnt + 1 }.invalidate

/-- FREQ_LD (R105): load the count in ARG as the Symbol's entry. A zero count and a Symbol already in the table
are MalformedFrequencyTable, a count of CNT_W bits or more is CountOverflow; then Invalidate. -/
def execFreqLd (sym : Operand) (s : State) : Result :=
  let c := s.arg.toNat
  command (.freqLd sym) s <|
    checkSym s sym <|
    check (c == 0) .malformedFrequencyTable <|
    check (decide (2 ^ s.params.cntW ≤ c)) .countOverflow <|
    check (s.count sym.toNat != 0) .malformedFrequencyTable <|
    .ok { s with freq := Memory.write 0 s.freq sym.toNat c, tokCnt := s.tokCnt + c }.invalidate

/-- FREQ_RD (R106): RES0 <- the Symbol's count, the other result registers 0. -/
def execFreqRd (sym : Operand) (s : State) : Result :=
  command (.freqRd sym) s <|
    checkSym s sym <|
    .ok (s.setRes (zext32 (s.count sym.toNat)) 0 0 0)

end Sys2Proof.Machine
end

