-- ==== Sys2Proof/Machine/Packer.lean ====
section
/-! DEFINITION. The byte packer: PACK, UNPACK, BLOB_PUSH, BLOB_RD (44_byte_packer.md R180 to R185). -/

namespace Sys2Proof.Machine

/-- The padding count of a bitstring of `n` bits, `(8 - n mod 8) mod 8` (R180): 0 when `n` is a multiple of 8
(R185). -/
def padding (n : Nat) : Nat := (8 - n % 8) % 8

/-- The blob of a bitstring (R180, R181): the padding count, then the data bytes. -/
def packBits (b : Bits) : List Byte :=
  BitVec.ofNat 8 (padding b.length) :: (List.range ((b.length + padding b.length) / 8)).map (bitsByte b)

/-- The first `n` bits of data bytes: bit `x` is bit `7 - x mod 8` of byte `x div 8` (R182). -/
def dataBits (data : List Byte) (n : Nat) : Bits :=
  (List.range n).map fun x => (data.getD (x / 8) 0).getLsbD (7 - x % 8)

/-- PACK (R180): replace BLOB with the packed bitstring; BITS is unchanged. -/
def execPack (s : State) : Result :=
  command .pack s <| .ok { s with blob := packBits s.bits }

/-- UNPACK (R182): replace BITS with the data bits of the blob, less the counted padding, which is not
inspected. No padding byte, a count above 7, or more padding than bits is InvalidPadding. -/
def execUnpack (s : State) : Result :=
  command .unpack s <|
    match s.blob with
    | [] => .error .invalidPadding
    | b :: data =>
      let p := b.toNat
      check (decide (7 < p)) .invalidPadding <|
      check (decide (8 * data.length < p)) .invalidPadding <|
      .ok { s with bits := dataBits data (8 * data.length - p) }

/-- BLOB_PUSH (R183): append one byte to BLOB. -/
def execBlobPush (byte : Byte) (s : State) : Result :=
  command (.blobPush byte) s <|
    check (s.blobLen == s.params.blobCap) .capacityExceeded <|
    .ok { s with blob := s.blob ++ [byte] }

/-- BLOB_RD (R184): RES0 <- one byte of BLOB; the index is below BLOBLEN. -/
def execBlobRd (idx : Operand) (s : State) : Result :=
  command (.blobRd idx) s <|
    match s.blob[idx.toNat]? with
    | none => .error .illegalCommand
    | some b => .ok (s.setRes (b.setWidth 32) 0 0 0)

end Sys2Proof.Machine
end

