-- ==== Sys2Proof/Machine/Dispatch.lean ====
section
/-! DEFINITION. One arm per command: its meaning (45_control.md R202 step (4)). -/

namespace Sys2Proof.Machine

def exec (i : Instr) (s : State) : Host.Outcome State Fault Refusal :=
  match i with
  | .nop => Sys2Proof.Machine.execNop s
  | .clrAll => Sys2Proof.Machine.execClrAll s
  | .histSym sym => Sys2Proof.Machine.execHistSym sym s
  | .freqLd sym => Sys2Proof.Machine.execFreqLd sym s
  | .freqRd sym => Sys2Proof.Machine.execFreqRd sym s
  | .treeBuild => Sys2Proof.Machine.execTreeBuild s
  | .nodeRd idx => Sys2Proof.Machine.execNodeRd idx s
  | .codeGen => Sys2Proof.Machine.execCodeGen s
  | .codeRd sym => Sys2Proof.Machine.execCodeRd sym s
  | .encSym sym => Sys2Proof.Machine.execEncSym sym s
  | .decode => Sys2Proof.Machine.execDecode s
  | .bitsRd idx => Sys2Proof.Machine.execBitsRd idx s
  | .symRd idx => Sys2Proof.Machine.execSymRd idx s
  | .pack => Sys2Proof.Machine.execPack s
  | .unpack => Sys2Proof.Machine.execUnpack s
  | .blobPush byte => Sys2Proof.Machine.execBlobPush byte s
  | .blobRd idx => Sys2Proof.Machine.execBlobRd idx s

end Sys2Proof.Machine
end

