-- ==== Sys2Proof/Machine/Port.lean ====
section
/-! DEFINITION. The host port: the register map (10_state.md R36 to R40), RegRead and RegWrite (20_memory.md R60
to R65), what a write to CMD does (45_control.md R202), and the reset input (70_reset_and_hazards.md R270). -/

namespace Sys2Proof.Machine

/-- The word index of a register: its offset divided by 4 (R36). -/
def Reg.index : Reg → Nat
  | .cmd => 0
  | .arg => 1
  | .status => 2
  | .err => 3
  | .errInfo => 4
  | .res0 => 5
  | .res1 => 6
  | .res2 => 7
  | .res3 => 8
  | .tokCntLo => 9
  | .tokCntHi => 10
  | .nLeaf => 11
  | .nNodes => 12
  | .bitLen => 13
  | .blobLen => 14
  | .symLen => 15

/-- The register at a word index; none above 15 (R63: unmapped). -/
def Reg.ofIndex? : Nat → Option Reg
  | 0 => some .cmd
  | 1 => some .arg
  | 2 => some .status
  | 3 => some .err
  | 4 => some .errInfo
  | 5 => some .res0
  | 6 => some .res1
  | 7 => some .res2
  | 8 => some .res3
  | 9 => some .tokCntLo
  | 10 => some .tokCntHi
  | 11 => some .nLeaf
  | 12 => some .nNodes
  | 13 => some .bitLen
  | 14 => some .blobLen
  | 15 => some .symLen
  | _ => none

/-- What a register reads as (R36 to R40); the write-only CMD reads 0 (R63). -/
def State.readReg (s : State) : Reg → Word
  | .cmd => 0#32
  | .arg => s.arg
  | .status => s.statusWord
  | .err => s.err.setWidth 32
  | .errInfo => s.errInfo
  | .res0 => s.res0
  | .res1 => s.res1
  | .res2 => s.res2
  | .res3 => s.res3
  | .tokCntLo => loWord s.tokCnt
  | .tokCntHi => hiWord s.params s.tokCnt
  | .nLeaf => zext32 s.nLeaf
  | .nNodes => zext32 s.nNodes
  | .bitLen => zext32 s.bitLen
  | .blobLen => zext32 s.blobLen
  | .symLen => zext32 s.symLen

/-- RegRead at a word index: the register's value, or 0 where none is mapped (R63). -/
def State.portRead (s : State) (index : Nat) : Word :=
  match Reg.ofIndex? index with
  | some r => s.readReg r
  | none => 0#32

/-- The word of CLR_ALL, the one word recognised while FAULT = 1 (R202 step (1)). -/
def clrAllWord : Word := 0x01000000#32

/-- What a write of `w` to CMD does (R202): in the fault state only the exact CLR_ALL word acts; else the word is
decoded, an illegal word raises IllegalCommand with ERRINFO the word (30_encoding.md R84), and a command runs. -/
def cmdWrite (w : Word) (s : State) : Result :=
  if s.fault then
    if w = clrAllWord then exec .clrAll s else .next s
  else
    match decode s.params w with
    | .error _ => .next (s.takeFault .illegalCommand w)
    | .ok i => exec i s

/-- RegWrite at a word index: CMD runs a command (R65), ARG is set (R64), every other write is ignored (R63). -/
def portWrite (index : Nat) (v : Word) (s : State) : Result :=
  match Reg.ofIndex? index with
  | some .cmd => cmdWrite v s
  | some .arg => .next { s with arg := v }
  | _ => .next s

/-- A level driven on the reset input (R270): when the asserted input is released the state is ResetState. -/
def driveReset (asserted : Bool) (s : State) : State :=
  if asserted then { s with resetPin := true }
  else if s.resetPin then { s.clear with resetPin := false }
  else s

/-- The host's event at the head of the queue is taken off it; nothing has been returned yet. -/
def State.accept (s : State) (rest : List HostEvent) : State :=
  { s with pending := rest, readData := none }

/-- One host event on a state whose queue is already past it. While the reset input is asserted no port operation
is accepted (R270): log 7. A RegRead returns a word and changes nothing else (R65). -/
def hostEvent (e : HostEvent) (s : State) : Result :=
  match e with
  | .resetPin asserted => .next (driveReset asserted s)
  | .regRead index =>
    if s.resetPin then .next s else .next { s with readData := some (s.portRead index) }
  | .regWrite index v => if s.resetPin then .next s else portWrite index v s

/-- One step: the oldest pending event of the host; with none pending the block does nothing (R60: the port
operations "are the only way anything enters or leaves the block"): log 2. -/
def nextEvent (s : State) : Result :=
  match s.pending with
  | [] => .next (s.accept [])
  | e :: rest => hostEvent e (s.accept rest)

/-- The queue with one CMD write of `w` put before everything else: `w` is the next command. -/
def State.withCommand (s : State) (w : Word) : State :=
  { s with pending := .regWrite Reg.cmd.index w :: s.pending }

end Sys2Proof.Machine
end

