-- ==== Sys2Proof/Machine/Step.lean ====
section
/-! DEFINITION. One step of the machine: one event of the host (00_scope.md R8, 20_memory.md R70). -/

namespace Sys2Proof.Machine

/-- One step: the next pending event of the host, performed whole. -/
def step (s : State) : Host.Outcome State Fault Refusal := nextEvent s

/-- The state whose very next step writes to CMD the command word whose bits are `w` (its low `nbits` bits; the
bits above are 0). The block fetches nothing (10_state.md R35): a command comes from the host's queue. Log 2. -/
def State.withFetchWord (s : State) (nbits w : Nat) : State :=
  s.withCommand (BitVec.ofNat 32 (w % 2 ^ nbits))

end Sys2Proof.Machine
end

