-- ==== Sys2Proof/Machine/Asm.lean ====
section
/-! DEFINITION. The lines of the spec's assembler as host events (30_encoding.md R87, R88), char-mode
tokenization and its inverse (40_frequency_histogram.md R101), and the compress and decompress sequences with their read-outs
(70_reset_and_hazards.md R275, R276; 49_properties.md R215). The block never sees a line; it sees the events. -/

namespace Sys2Proof.Machine

/-- The CMD write of a command: `MNEMONIC` or `MNEMONIC n` (R87). -/
def cmdEvent (i : Instr) : HostEvent := .regWrite Reg.cmd.index i.encode

/-- The ARG write: `ARG n` (R87). -/
def argEvent (v : Word) : HostEvent := .regWrite Reg.arg.index v

/-- A code point of a text the host presents, one of 0 to 0x10FFFF (40_frequency_histogram.md R101), the surrogate
values 0xD800 to 0xDFFF among them. DESIGN CHOICE, log 14: what a code point is taken over is left open
(91_not_in_source.md N5, 93_implementation_defined.md U8); here a text is the list of its code points, whatever encoding
they were read from, with no normalisation. -/
abbrev CodePoint := Fin 0x110000

/-- One line of a program: a command, `ARG n`, `RD REGNAME`, `.word n` (R87), or a pseudo-instruction (R88). -/
inductive AsmLine where
  | cmd (i : Instr)
  | arg (v : Word)
  | rd (r : Reg)
  | word (w : Word)
  | freqLdi (sym : Operand) (count : Word)
  | codeRdw (sym : Operand) (k : Word)
  | histStr (text : List CodePoint)
  | encStr (text : List CodePoint)
  | blobBytes (bytes : List Byte)
  deriving DecidableEq, Repr

/-- Char mode (40_frequency_histogram.md R101): one Symbol per code point, its value; a text with a code point of
NSYM or above is refused. What a text is: `CodePoint`, DESIGN CHOICE of log 14. -/
def charSymbols (p : Params) : List CodePoint → Option (List Operand)
  | [] => some []
  | c :: cs =>
    if c.val < p.nsym then (charSymbols p cs).map fun t => BitVec.ofNat 24 c.val :: t else none

/-- The inverse mapping of char mode on output (40_frequency_histogram.md R101): one code point per Symbol, in order, the
Symbol's value. A Symbol above 0x10FFFF, which an instance with SYM_W = 21 can hold and no text presents, is no code point
and gives no text: DESIGN CHOICE of log 14. -/
def symbolsText : List Nat → Option (List CodePoint)
  | [] => some []
  | x :: xs => if h : x < 0x110000 then (symbolsText xs).map fun t => ⟨x, h⟩ :: t else none

/-- The host events of a line (R87, R88); none for a text that cannot be presented. -/
def AsmLine.events (p : Params) : AsmLine → Option (List HostEvent)
  | .cmd i => some [cmdEvent i]
  | .arg v => some [argEvent v]
  | .rd r => some [.regRead r.index]
  | .word w => some [.regWrite Reg.cmd.index w]
  | .freqLdi sym c => some [argEvent c, cmdEvent (.freqLd sym)]
  | .codeRdw sym k => some [argEvent k, cmdEvent (.codeRd sym)]
  | .histStr t => (charSymbols p t).map fun ss => ss.map fun x => cmdEvent (.histSym x)
  | .encStr t => (charSymbols p t).map fun ss => ss.map fun x => cmdEvent (.encSym x)
  | .blobBytes bs => some (bs.map fun b => cmdEvent (.blobPush b))

/-- The counting pass over a token sequence (R103, R275). -/
def countEvents (tokens : List Operand) : List HostEvent := tokens.map fun x => cmdEvent (.histSym x)

/-- The encoding pass over a token sequence (R103, R275). -/
def encodeEvents (tokens : List Operand) : List HostEvent := tokens.map fun x => cmdEvent (.encSym x)

/-- The compress sequence (R275) up to PACK, the part that 49_properties.md R215 calls the run of the sequence; the
read-outs that follow are `blobReadEvents` and `tableReadEvents`. -/
def compressEvents (tokens : List Operand) : List HostEvent :=
  [cmdEvent .clrAll] ++ countEvents tokens ++ [cmdEvent .treeBuild, cmdEvent .codeGen] ++
    encodeEvents tokens ++ [cmdEvent .pack]

/-- The load of a persisted table: ARG and FREQ_LD for every pair (R276). -/
def loadEvents (table : Memory Nat) : List HostEvent :=
  table.flatMap fun c => [argEvent (BitVec.ofNat 32 c.2), cmdEvent (.freqLd (BitVec.ofNat 24 c.1))]

/-- The load of a stored blob, byte by byte (R276). -/
def pushEvents (blob : List Byte) : List HostEvent := blob.map fun b => cmdEvent (.blobPush b)

/-- The decompress sequence (R276) up to DECODE (49_properties.md R215); the read-out that follows is
`symbolReadEvents`. -/
def decompressEvents (table : Memory Nat) (blob : List Byte) : List HostEvent :=
  [cmdEvent .clrAll] ++ loadEvents table ++ [cmdEvent .treeBuild] ++ pushEvents blob ++
    [cmdEvent .unpack, cmdEvent .decode]

/-- The read of one register: `RD REGNAME` (R87). -/
def readEvent (r : Reg) : HostEvent := .regRead r.index

/-- A read command and `RD RES0` after it, one unit of a read-out (R275, R276). -/
def readBack (i : Instr) : List HostEvent := [cmdEvent i, readEvent .res0]

/-- The units of a read-out of `n` elements, `cmd 0` to `cmd (n - 1)` (R275, R276). -/
def readBacks (cmd : Operand → Instr) (n : Nat) : List (List HostEvent) :=
  (List.range n).map fun x => readBack (cmd (BitVec.ofNat 24 x))

/-- The blob read-out (R275): RD STATUS, RD BLOBLEN, then `BLOB_RD x` and RD RES0 for every `x` below `n`, the value
that RD BLOBLEN returned. -/
def blobReadUnits (n : Nat) : List (List HostEvent) :=
  [readEvent .status] :: [readEvent .blobLen] :: readBacks .blobRd n

/-- The table read-out (R275): `FREQ_RD x` and RD RES0 for every Symbol `x` below NSYM. -/
def tableReadUnits (p : Params) : List (List HostEvent) := readBacks .freqRd p.nsym

/-- The token read-out (R276): RD STATUS, RD SYMLEN, then `SYM_RD x` and RD RES0 for every `x` below `n`, the value
that RD SYMLEN returned. -/
def symbolReadUnits (n : Nat) : List (List HostEvent) :=
  [readEvent .status] :: [readEvent .symLen] :: readBacks .symRd n

/-- The whole compress sequence (R275) in the order R275 lists it; `n` is what RD BLOBLEN returns. -/
def compressSequence (p : Params) (tokens : List Operand) (n : Nat) : List HostEvent :=
  compressEvents tokens ++ (blobReadUnits n).flatten ++ (tableReadUnits p).flatten

/-- The whole decompress sequence (R276) in the order R276 lists it; `n` is what RD SYMLEN returns. -/
def decompressSequence (table : Memory Nat) (blob : List Byte) (n : Nat) : List HostEvent :=
  decompressEvents table blob ++ (symbolReadUnits n).flatten

/-- `zs` is made of the elements of `xs` and of `ys`, each in its own order. -/
def Interleaves {α : Type} (xs ys : List α) : List α → Prop
  | [] => xs = [] ∧ ys = []
  | z :: zs =>
    (∃ xs', xs = z :: xs' ∧ Interleaves xs' ys zs) ∨ (∃ ys', ys = z :: ys' ∧ Interleaves xs ys' zs)

/-- The two ways to begin a sequence, "CLR_ALL ; or reset" (R275, R276). -/
def startEvents : List (List HostEvent) := [[cmdEvent .clrAll], [.resetPin true, .resetPin false]]

/-- The orders of the compress sequence that R275 allows: after the counting pass, TREE_BUILD to PACK and the blob
read-out in their order, and the units of the table read-out anywhere among them. -/
def compressOrder (p : Params) (tokens : List Operand) (n : Nat) (events : List HostEvent) : Prop :=
  ∃ start ∈ startEvents, ∃ units,
    Interleaves
      (([cmdEvent .treeBuild, cmdEvent .codeGen] ++ encodeEvents tokens ++ [cmdEvent .pack]).map (fun e => [e]) ++
        blobReadUnits n)
      (tableReadUnits p) units ∧
    events = start ++ countEvents tokens ++ units.flatten

/-- The orders of the decompress sequence that R276 allows for a given order of the table's pairs: the table load with
TREE_BUILD after it, and the blob load with UNPACK after it, interleaved or swapped; then DECODE and the token read-out.
The pairs too may be in any order (R276): a permutation of `table` gives the other orders. -/
def decompressOrder (table : Memory Nat) (blob : List Byte) (n : Nat) (events : List HostEvent) : Prop :=
  ∃ start ∈ startEvents, ∃ loads,
    Interleaves (loadEvents table ++ [cmdEvent .treeBuild]) (pushEvents blob ++ [cmdEvent .unpack]) loads ∧
    events = start ++ loads ++ [cmdEvent .decode] ++ (symbolReadUnits n).flatten

end Sys2Proof.Machine
end

