-- ==== Sys2Proof/Machine/Session.lean ====
section
/-! DEFINITION. The host's side of the two operations (70_reset_and_hazards.md R275, R276): what its reads return, and
a whole compress and a whole decompress in which everything the host learns comes through the port. -/

namespace Sys2Proof.Machine

/-- `k` steps, with the words the RegReads among them return, in order (20_memory.md R60). -/
def State.replies : Nat → State → Option (List Word × State)
  | 0, s => some ([], s)
  | k + 1, s =>
    match step s with
    | .next t => (State.replies k t).map fun x => (t.readData.toList ++ x.1, x.2)
    | .fault _ => none
    | .refused _ => none

/-- The machine serving a list of host events: the words its reads return and the state it ends in. -/
def State.serve (s : State) (events : List HostEvent) : Option (List Word × State) :=
  State.replies events.length { s with pending := events }

/-- The first two reads of a read-out (R275, R276): RD STATUS, whose bit 0 must be 0, then RD of a length register; the
length, or nothing where the block is in the fault state and its outputs are not to be trusted. -/
def State.readLength (s : State) (r : Reg) : Option (Nat × State) :=
  match s.serve [readEvent .status, readEvent r] with
  | some ([status, n], t) => if status.getLsbD 0 then none else some (n.toNat, t)
  | _ => none

/-- The table to persist from the counts read for the Symbols 0, 1, ..: "entries with count >= 1" (R275). -/
def persistedTable (counts : List Word) : Memory Nat :=
  counts.zipIdx.filterMap fun x => if x.1 = 0 then none else some (x.2, x.1.toNat)

/-- A whole compress operation as the host performs it (R275): the table to persist, the blob, the state it leaves;
nothing where STATUS shows a fault. -/
def State.hostCompress (s : State) (tokens : List Operand) : Option (Memory Nat × List Byte × State) :=
  (s.serve (compressEvents tokens)).bind fun x =>
  (x.2.readLength .blobLen).bind fun y =>
  (y.2.serve (readBacks .blobRd y.1).flatten).bind fun blob =>
  (blob.2.serve (tableReadUnits s.params).flatten).map fun table =>
    (persistedTable table.1, blob.1.map (fun w => w.setWidth 8), table.2)

/-- A whole decompress operation as the host performs it (R276): the tokens and the state it leaves; nothing where
STATUS shows a fault. -/
def State.hostDecompress (s : State) (table : Memory Nat) (blob : List Byte) : Option (List Nat × State) :=
  (s.serve (decompressEvents table blob)).bind fun x =>
  (x.2.readLength .symLen).bind fun y =>
  (y.2.serve (readBacks .symRd y.1).flatten).map fun syms => (syms.1.map fun w => w.toNat, syms.2)

/-- Compressing a text in char mode (40_frequency_histogram.md R101): a text with a code point of NSYM or above is refused
"before issuing any command". -/
def State.hostCompressText (s : State) (text : List CodePoint) : Option (Memory Nat × List Byte × State) :=
  (charSymbols s.params text).bind s.hostCompress

/-- Decompressing to a text in char mode: the tokens read out, as code points (40_frequency_histogram.md R101). -/
def State.hostDecompressText (s : State) (table : Memory Nat) (blob : List Byte) : Option (List CodePoint × State) :=
  (s.hostDecompress table blob).bind fun x => (symbolsText x.1).map fun text => (text, x.2)

end Sys2Proof.Machine
end

