-- ==== Sys2Proof/Safety.lean ====
section
/-! DEFINITION. What holds of every state a run can reach, and the words in which claims are made: runs over
host events, paths in a tree, children of a node. -/

namespace Sys2Proof.Machine

/-- The machine run over a list of host events, one step each (20_memory.md R70). -/
def State.runs (s : State) (events : List HostEvent) : Result :=
  Sys2Proof.core.run events.length { s with pending := events }

/-- The sum of all counts of a frequency table (10_state.md R23). -/
def countSum (freq : Memory Nat) : Nat := (freq.map fun c => c.2).sum

/-- The invariant of the machine: what 10_state.md says holds at all times. -/
structure State.Inv (s : State) : Prop where
  /-- The parameters are legal (00_scope.md R5). -/
  params_legal : s.params.Legal
  /-- FREQ is in its canonical form. -/
  freq_wf : Memory.wf 0 s.freq
  /-- FREQ has entries for Symbols below NSYM, of CNT_W bits (R22). -/
  freq_range : ∀ c ∈ s.freq, c.1 < s.params.nsym ∧ c.2 < 2 ^ s.params.cntW
  /-- TOKCNT is the sum of all entries of FREQ (R23). -/
  tokCnt_sum : s.tokCnt = countSum s.freq
  /-- While TREEVALID = 1, NODE, NLEAF and NNODES describe the tree of the present FREQ (R30). -/
  tree_valid : s.treeValid = true →
    s.node = buildArena s.params s.freq ∧ s.nLeaf = (seedLeaves s.params s.freq).length
  /-- While TREEVALID = 0, NLEAF and NNODES are 0 (R25). -/
  tree_invalid : s.treeValid = false → s.node = [] ∧ s.nLeaf = 0
  /-- While CODEVALID = 1, CODE is the code table of the present tree (R30), and TREEVALID = 1. -/
  code_valid : s.codeValid = true → s.treeValid = true ∧ s.code = codeTable s.node
  /-- CODE holds nothing while CODEVALID = 0 (R44; log 5). -/
  code_invalid : s.codeValid = false → s.code = []
  /-- BITLEN is at most BIT_CAP (R27). -/
  bits_cap : s.bitLen ≤ s.params.bitCap
  /-- BLOBLEN is at most BLOB_CAP (R28). -/
  blob_cap : s.blobLen ≤ s.params.blobCap
  /-- SYMLEN is at most SYM_CAP (R29). -/
  sym_cap : s.symLen ≤ s.params.symCap
  /-- Every decoded Symbol is below NSYM (R29, R20). -/
  sym_range : ∀ x ∈ s.symBuf, x < s.params.nsym
  /-- While FAULT = 0, ERR and ERRINFO are 0 (R31). -/
  no_fault : s.fault = false → s.err = 0 ∧ s.errInfo = 0
  /-- While FAULT = 1 the block is ResetState but for FAULT, ERR, ERRINFO and ARG (60_exceptions.md R245, R247),
  and ERR holds one of the seven codes (R240). -/
  in_fault : s.fault = true →
    (∃ k : FaultKind, s.err = k.code) ∧
    s.toBlock = { Block.reset with fault := true, err := s.err, errInfo := s.errInfo, arg := s.arg }

/-- `k` is one of the two children of `n`. -/
def Node.hasChild (n : Node) (k : Nat) : Prop :=
  match n with
  | .leaf _ _ => False
  | .internal _ l r => k = l ∨ k = r

/-- Node `i` of an arena is a Leaf. -/
def isLeafAt (arena : List Node) (i : Nat) : Prop := ∃ sym w, arena[i]? = some (.leaf sym w)

/-- Node `i` of an arena is an Internal node. -/
def isInternalAt (arena : List Node) (i : Nat) : Prop := ∃ w l r, arena[i]? = some (.internal w l r)

/-- Where a path leads from node `i`: left on 0, right on 1 (42_code_table.md R141); nowhere past a Leaf. -/
def follow (arena : List Node) : Nat → Bits → Option Nat
  | i, [] => some i
  | i, b :: path =>
    match arena[i]? with
    | some (.internal _ l r) => follow arena (if b then r else l) path
    | _ => none

/-- The codes of a sequence of Symbols, one after the other (43_bitstream_codec.md R160). -/
def codesOf (table : Memory Bits) (syms : List Nat) : Bits := (syms.map (Memory.read [] table)).flatten

/-- The state after fault entry with code `c` and command word `w` (60_exceptions.md R245), written out: ResetState
but for ERR, ERRINFO and FAULT; the parameters and the host's side stay. -/
def State.faulted (s : State) (c : BitVec 4) (w : Word) : State :=
  { s with toBlock := { Block.reset with err := c, errInfo := w, fault := true } }

/-- Command `i` raises the fault of code `c` on `s`, with ERRINFO the command word. -/
def raises (i : Instr) (s : State) (c : BitVec 4) : Prop := exec i s = .next (s.faulted c i.encode)

/-- The opcodes of R83 by operand class (30_encoding.md R82, R83). -/
def noneOpcodes : List Nat := [0x00, 0x01, 0x20, 0x30, 0x41, 0x50, 0x51]

/-- The opcodes of class `sym` (R83). -/
def symOpcodes : List Nat := [0x10, 0x11, 0x12, 0x31, 0x40]

/-- The opcodes of class `idx` (R83). -/
def idxOpcodes : List Nat := [0x21, 0x42, 0x43, 0x53]

/-- The opcode of class `byte` (R83). -/
def byteOpcode : Nat := 0x52

/-- A word that is no command (30_encoding.md R84): an opcode outside the table, or an operand outside its class. -/
abbrev illegalWord (p : Params) (w : Word) : Prop :=
  (w.toNat / 2 ^ 24 ∉ noneOpcodes ++ symOpcodes ++ idxOpcodes ++ [byteOpcode]) ∨
    (w.toNat / 2 ^ 24 ∈ noneOpcodes ∧ w.toNat % 2 ^ 24 ≠ 0) ∨
    (w.toNat / 2 ^ 24 ∈ symOpcodes ∧ p.nsym ≤ w.toNat % 2 ^ 24) ∨
    (w.toNat / 2 ^ 24 = byteOpcode ∧ 256 ≤ w.toNat % 2 ^ 24)

/-- Node `k` is still in the priority collection when Internal node `i` is made: it exists and no earlier Internal
node has it as a child (41_tree_builder.md R120). -/
def inCollection (arena : List Node) (i k : Nat) : Prop :=
  k < i ∧ ∀ (j : Nat) (n : Node), j < i → arena[j]? = some n → ¬ n.hasChild k

/-- Node `j` comes before node `k` (41_tree_builder.md R121): the smaller weight, at equal weights the smaller
index. -/
def comesBefore (arena : List Node) (j k : Nat) : Prop :=
  ∃ x y, arena[j]? = some x ∧ arena[k]? = some y ∧ (x.weight < y.weight ∨ (x.weight = y.weight ∧ j < k))

/-- The six read commands (10_state.md R33). -/
def isReadCommand : Instr → Bool
  | .freqRd _ => true
  | .nodeRd _ => true
  | .codeRd _ => true
  | .bitsRd _ => true
  | .symRd _ => true
  | .blobRd _ => true
  | .nop => false
  | .clrAll => false
  | .histSym _ => false
  | .freqLd _ => false
  | .treeBuild => false
  | .codeGen => false
  | .encSym _ => false
  | .decode => false
  | .pack => false
  | .unpack => false
  | .blobPush _ => false

end Sys2Proof.Machine
end

