-- ==== Sys2Proof/Certificates/Slice0/Obligations.lean ====
section
/-! DEFINITION. The statements for the provers. Each docstring names the rule of spec/ it formalises; a clause that
rests on a choice of the model names its log entry. -/

open Sys2Proof Sys2Proof.Machine

/-! ## Encoding -/

/-- 30_encoding.md R81 to R83: decoding the word of a well-formed command gives the command back, for every
command and every operand its class admits, at any parameters. -/
def Obligations.DecodeOfEncode : Prop :=
  ∀ (p : Params) (i : Instr), i.wellFormed p = true → decode p i.encode = .ok i

/-- 30_encoding.md R81 to R84: a word that decodes is the word of the command it decodes to (every bit of it is
read), and that command is well-formed. -/
def Obligations.EncodeOfDecode : Prop :=
  ∀ (p : Params) (w : Word) (i : Instr), decode p w = .ok i → i.encode = w ∧ i.wellFormed p = true

/-- 30_encoding.md R84: a word with an opcode outside the table of R83, or with an operand outside its class,
written to CMD while FAULT = 0 raises IllegalCommand (code 4) with ERRINFO the word written; every other word
is a command. -/
def Obligations.IllegalWordsRaiseIllegalCommand : Prop :=
  ∀ (s : State) (w : Word) (rest : List HostEvent),
    s.pending = .regWrite 0 w :: rest → s.resetPin = false → s.fault = false →
      (illegalWord s.params w →
        step s = .next ({ s with pending := rest, readData := none }.faulted 4 w)) ∧
      (¬ illegalWord s.params w → ∃ i, decode s.params w = .ok i)

/-- 30_encoding.md R83: words written out from the opcode map, one or more of each family, decode to the command
they stand for (default parameters). -/
def Obligations.OpcodeWordsDecode : Prop :=
  decode .defaults 0x00000000#32 = .ok .nop ∧
  decode .defaults 0x01000000#32 = .ok .clrAll ∧
  decode .defaults 0x10000061#32 = .ok (.histSym 0x61) ∧
  decode .defaults 0x110000FF#32 = .ok (.freqLd 0xFF) ∧
  decode .defaults 0x20000000#32 = .ok .treeBuild ∧
  decode .defaults 0x21FFFFFF#32 = .ok (.nodeRd 0xFFFFFF) ∧
  decode .defaults 0x31000063#32 = .ok (.codeRd 0x63) ∧
  decode .defaults 0x41000000#32 = .ok .decode ∧
  decode .defaults 0x52000090#32 = .ok (.blobPush 0x90) ∧
  decode .defaults 0x53000001#32 = .ok (.blobRd 1)

/-! ## The step and the port -/

/-- 45_control.md R202: when the host's next event writes to CMD a word that decodes to `i`, and FAULT = 0, the step
is `exec i` on the state past that event; so too for the word `withFetchWord` places. (The queue of events is the
model's own form of the host: log 2.) -/
def Obligations.StepRunsTheWrittenCommand : Prop :=
  (∀ (s : State) (w : Word) (rest : List HostEvent) (i : Instr),
    s.pending = .regWrite 0 w :: rest → s.resetPin = false → s.fault = false → decode s.params w = .ok i →
      step s = exec i { s with pending := rest, readData := none }) ∧
  (∀ (s : State) (nbits w : Nat) (i : Instr),
    s.resetPin = false → s.fault = false → decode s.params (BitVec.ofNat 32 (w % 2 ^ nbits)) = .ok i →
      step (s.withFetchWord nbits w) = exec i { s with readData := none })

/-- 45_control.md R203 with 20_memory.md R63, R64: every step of every state has a next state; a write to ARG sets it
in every state, FAULT = 1 included; every other write but one to CMD is ignored; a read returns the register, or 0
where none is mapped and for CMD, and changes nothing. -/
def Obligations.PortOperationsAreTotal : Prop :=
  (∀ s : State, ∃ t, step s = .next t) ∧
  (∀ (s : State) (v : Word) (rest : List HostEvent),
    s.pending = .regWrite 1 v :: rest → s.resetPin = false →
      step s = .next { s with pending := rest, readData := none, arg := v }) ∧
  (∀ (s : State) (k : Nat) (v : Word) (rest : List HostEvent),
    s.pending = .regWrite k v :: rest → s.resetPin = false → k ≠ 0 → k ≠ 1 →
      step s = .next { s with pending := rest, readData := none }) ∧
  (∀ (s : State) (k : Nat) (rest : List HostEvent),
    s.pending = .regRead k :: rest → s.resetPin = false →
      ∃ v, step s = .next { s with pending := rest, readData := some v } ∧
        (k = 0 ∨ 16 ≤ k → v = 0) ∧ ∀ r : Reg, r.index = k → v = s.readReg r)

/-- 10_state.md R36 to R39: what is at each offset of the register window. STATUS has FAULT, TREEVALID, CODEVALID in
bits 0, 1, 2 and zeros above; ERR the code in bits 3:0; both are read-only; TOKCNT reads as its bits 31:0 and its bits
WGT_W-1:32; every register reads 0 at reset. -/
def Obligations.RegisterWindowReads : Prop :=
  ∀ s : State,
    s.portRead (0x00 / 4) = 0 ∧ s.portRead (0x04 / 4) = s.arg ∧
    (∀ n, (s.portRead (0x08 / 4)).getLsbD n =
      ((n == 0 && s.fault) || (n == 1 && s.treeValid) || (n == 2 && s.codeValid))) ∧
    (∀ n, (s.portRead (0x0C / 4)).getLsbD n = (decide (n < 4) && s.err.getLsbD n)) ∧
    s.portRead (0x10 / 4) = s.errInfo ∧
    s.portRead (0x14 / 4) = s.res0 ∧ s.portRead (0x18 / 4) = s.res1 ∧
    s.portRead (0x1C / 4) = s.res2 ∧ s.portRead (0x20 / 4) = s.res3 ∧
    (∀ n, (s.portRead (0x24 / 4)).getLsbD n = (decide (n < 32) && s.tokCnt.testBit n)) ∧
    (∀ n, (s.portRead (0x28 / 4)).getLsbD n =
      (decide (n < 32) && decide (32 + n < s.params.wgtW) && s.tokCnt.testBit (32 + n))) ∧
    (∀ v, portWrite (0x08 / 4) v s = .next s ∧ portWrite (0x0C / 4) v s = .next s) ∧
    (∀ k, State.reset.portRead k = 0)

/-- 10_state.md R40: the five count and length registers read the field itself, zero-extended: nothing of it is cut
off in any state the invariant admits. -/
def Obligations.LengthRegistersReadTheFields : Prop :=
  ∀ s : State, s.Inv →
    (s.portRead (0x2C / 4)).toNat = s.nLeaf ∧ (s.portRead (0x30 / 4)).toNat = s.nNodes ∧
    (s.portRead (0x34 / 4)).toNat = s.bitLen ∧ (s.portRead (0x38 / 4)).toNat = s.blobLen ∧
    (s.portRead (0x3C / 4)).toNat = s.symLen

/-! ## Faults, the fault state, reset -/

/-- 60_exceptions.md R247, 30_encoding.md R85: in the fault state a CMD write of any word but 0x0100_0000 changes
nothing, no command but CLR_ALL has an effect, ARG can be written, and every read works: STATUS 1, ERR and ERRINFO
the fault's, all else but ARG 0. -/
def Obligations.FaultStateIgnoresCommands : Prop :=
  (∀ (s : State) (w : Word) (rest : List HostEvent),
    s.pending = .regWrite 0 w :: rest → s.resetPin = false → s.fault = true → w ≠ 0x01000000#32 →
      step s = .next { s with pending := rest, readData := none }) ∧
  (∀ (i : Instr) (s : State), s.fault = true → i ≠ .clrAll → exec i s = .next s) ∧
  (∀ (s : State) (v : Word) (rest : List HostEvent),
    s.pending = .regWrite 1 v :: rest → s.resetPin = false → s.fault = true →
      step s = .next { s with pending := rest, readData := none, arg := v }) ∧
  (∀ (s : State) (k : Nat) (rest : List HostEvent),
    s.pending = .regRead k :: rest → s.resetPin = false → s.fault = true →
      step s = .next { s with pending := rest, readData := some (s.portRead k) }) ∧
  (∀ s : State, s.Inv → s.fault = true →
    s.portRead 2 = 1 ∧ s.portRead 3 = s.err.setWidth 32 ∧ s.portRead 4 = s.errInfo ∧ s.portRead 1 = s.arg ∧
    ∀ k, k ≠ 1 → k ≠ 2 → k ≠ 3 → k ≠ 4 → s.portRead k = 0)

/-- 45_control.md R201: CLR_ALL gives ResetState from every state, the fault state included, whether as the command or
as the word 0x0100_0000; the word with a non-zero operand is illegal while FAULT = 0 and ignored while FAULT = 1. In
ResetState every count, length, flag and register is 0. -/
def Obligations.ClearAllGivesResetState : Prop :=
  (∀ s : State, exec .clrAll s = .next { s with toBlock := Block.reset }) ∧
  (∀ (s : State) (rest : List HostEvent), s.pending = .regWrite 0 0x01000000#32 :: rest → s.resetPin = false →
    step s = .next { s with toBlock := Block.reset, pending := rest, readData := none }) ∧
  (∀ (s : State) (a : Operand) (rest : List HostEvent),
    s.pending = .regWrite 0 (commandWord 0x01 a) :: rest → s.resetPin = false → a ≠ 0 →
    (s.fault = false →
      step s = .next ({ s with pending := rest, readData := none }.faulted 4 (commandWord 0x01 a))) ∧
    (s.fault = true → step s = .next { s with pending := rest, readData := none })) ∧
  (∀ s : State, s.toBlock = Block.reset →
    (∀ sym, s.count sym = 0) ∧ s.tokCnt = 0 ∧ s.nLeaf = 0 ∧ s.nNodes = 0 ∧ s.bitLen = 0 ∧ s.blobLen = 0 ∧
    s.symLen = 0 ∧ s.fault = false ∧ s.treeValid = false ∧ s.codeValid = false ∧ s.err = 0 ∧ s.errInfo = 0 ∧
    s.arg = 0 ∧ s.res0 = 0 ∧ s.res1 = 0 ∧ s.res2 = 0 ∧ s.res3 = 0)

/-- 70_reset_and_hazards.md R270, R271: while the reset input is asserted no port operation has an effect or returns
anything; when it is released the state is ResetState, the state CLR_ALL gives. (The two levels of the input are host
events, and an operation issued while it is asserted is lost: the model's form, log 7.) -/
def Obligations.ResetInputGivesResetState : Prop :=
  (∀ (s : State) (rest : List HostEvent), s.pending = .resetPin true :: rest →
    ∃ t, step s = .next t ∧ t.resetPin = true ∧ t.pending = rest) ∧
  (∀ (s : State) (e : HostEvent) (rest : List HostEvent),
    s.pending = e :: rest → s.resetPin = true → (∀ b, e ≠ .resetPin b) →
      step s = .next { s with pending := rest, readData := none }) ∧
  (∀ (s : State) (rest : List HostEvent), s.pending = .resetPin false :: rest → s.resetPin = true →
    ∃ t c, step s = .next t ∧ exec .clrAll s = .next c ∧ t.toBlock = Block.reset ∧ t.toBlock = c.toBlock ∧
      t.resetPin = false ∧ t.pending = rest)

/-- 60_exceptions.md R245, R246: a CMD write of `w` from FAULT = 0 that ends in the fault state leaves ResetState with
ERR one of the seven codes of R240, ERRINFO the word and FAULT 1, and nothing else of the command. -/
def Obligations.FaultEntryLeavesOnlyTheFault : Prop :=
  ∀ (s t : State) (w : Word) (rest : List HostEvent),
    s.pending = .regWrite 0 w :: rest → s.resetPin = false → s.fault = false → step s = .next t → t.fault = true →
      ∃ c : BitVec 4, 1 ≤ c.toNat ∧ c.toNat ≤ 7 ∧ t = { s with pending := rest, readData := none }.faulted c w

/-- 60_exceptions.md R248, R253, 70_reset_and_hazards.md R270: from the fault state a step either stays in it with the
same ERR and ERRINFO, or is a CLR_ALL or the release of the reset input and gives ResetState. That the step which asserts
the reset input, and those while it is asserted, stay in the fault state with ERR and ERRINFO is the model's choice (R270
leaves the state before the release open): DESIGN CHOICE, log 7. -/
def Obligations.FaultStateIsLeftOnlyByClearing : Prop :=
  ∀ s t : State, s.fault = true → step s = .next t →
    (t.fault = true ∧ t.err = s.err ∧ t.errInfo = s.errInfo) ∨
    (t.toBlock = Block.reset ∧
      ((s.resetPin = false ∧ ∃ rest, s.pending = .regWrite 0 0x01000000#32 :: rest) ∨
       (s.resetPin = true ∧ ∃ rest, s.pending = .resetPin false :: rest)))

/-! ## The commands: when each raises, what each leaves, what it does not touch -/

/-- 45_control.md R200: NOP changes nothing, in every state (so it clears no fault); the all-zero word is NOP, and a
word with opcode 0 and a non-zero operand is illegal. -/
def Obligations.NopChangesNothing : Prop :=
  (∀ s : State, exec .nop s = .next s) ∧ (∀ s : State, cmdWrite 0#32 s = .next s) ∧
  (∀ (s : State) (a : Operand), s.fault = false → a ≠ 0 →
    cmdWrite (commandWord 0x00 a) s = .next (s.faulted 4 (commandWord 0x00 a)))

/-- 40_frequency_histogram.md R104, R109: HIST_SYM adds one to the Symbol's count and to TOKCNT and invalidates the tree
and the code table; a count at its largest raises CountOverflow. -/
def Obligations.HistSymCountsOneToken : Prop :=
  ∀ (s : State) (a : Operand),
    (s.fault = true → exec (.histSym a) s = .next s) ∧
    (s.fault = false → s.params.nsym ≤ a.toNat → raises (.histSym a) s 4) ∧
    (s.fault = false → a.toNat < s.params.nsym → s.count a.toNat = 2 ^ s.params.cntW - 1 → raises (.histSym a) s 7) ∧
    (s.fault = false → a.toNat < s.params.nsym → s.count a.toNat ≠ 2 ^ s.params.cntW - 1 →
      ∃ t, exec (.histSym a) s = .next t ∧ t.count a.toNat = s.count a.toNat + 1 ∧
        (∀ u, u ≠ a.toNat → t.count u = s.count u) ∧ t.nNodes = 0 ∧
        t = { s with freq := t.freq, tokCnt := s.tokCnt + 1, treeValid := false, codeValid := false,
                     nLeaf := 0, node := t.node, code := t.code })

/-- 40_frequency_histogram.md R105, R109: FREQ_LD loads the count in ARG as the Symbol's entry, adds it to TOKCNT and
invalidates; in order, a zero count raises MalformedFrequencyTable, an over-wide one CountOverflow, a Symbol already in
the table MalformedFrequencyTable. -/
def Obligations.FreqLdLoadsOneEntry : Prop :=
  ∀ (s : State) (a : Operand),
    (s.fault = true → exec (.freqLd a) s = .next s) ∧
    (s.fault = false → s.params.nsym ≤ a.toNat → raises (.freqLd a) s 4) ∧
    (s.fault = false → a.toNat < s.params.nsym → s.arg = 0 → raises (.freqLd a) s 3) ∧
    (s.fault = false → a.toNat < s.params.nsym → s.arg ≠ 0 → 2 ^ s.params.cntW ≤ s.arg.toNat →
      raises (.freqLd a) s 7) ∧
    (s.fault = false → a.toNat < s.params.nsym → s.arg ≠ 0 → s.arg.toNat < 2 ^ s.params.cntW →
      s.count a.toNat ≠ 0 → raises (.freqLd a) s 3) ∧
    (s.fault = false → a.toNat < s.params.nsym → s.arg ≠ 0 → s.arg.toNat < 2 ^ s.params.cntW →
      s.count a.toNat = 0 →
      ∃ t, exec (.freqLd a) s = .next t ∧ t.count a.toNat = s.arg.toNat ∧
        (∀ u, u ≠ a.toNat → t.count u = s.count u) ∧ t.nNodes = 0 ∧
        t = { s with freq := t.freq, tokCnt := s.tokCnt + s.arg.toNat, treeValid := false, codeValid := false,
                     nLeaf := 0, node := t.node, code := t.code })

/-- 40_frequency_histogram.md R106: FREQ_RD puts the Symbol's count in RES0 (0 for a Symbol not in the table), zeros in
the other result registers, and changes nothing else. -/
def Obligations.FreqRdReadsTheCount : Prop :=
  ∀ (s : State) (a : Operand),
    (s.fault = true → exec (.freqRd a) s = .next s) ∧
    (s.fault = false → s.params.nsym ≤ a.toNat → raises (.freqRd a) s 4) ∧
    (s.fault = false → a.toNat < s.params.nsym →
      ∃ t, exec (.freqRd a) s = .next t ∧ (s.count a.toNat < 2 ^ 32 → t.res0.toNat = s.count a.toNat) ∧
        t = { s with res0 := t.res0, res1 := 0, res2 := 0, res3 := 0 })

/-- 41_tree_builder.md R120: TREE_BUILD runs in every state with FAULT = 0. The first NLEAF nodes are the Leaves of the
Symbols with a non-zero count, by ascending Symbol value, each with its count; NNODES is 2·NLEAF - 1 (0 for an empty
table); TREEVALID becomes 1 and CODEVALID 0; nothing else changes. -/
def Obligations.TreeBuildSeedsTheLeaves : Prop :=
  ∀ s : State,
    (s.fault = true → exec .treeBuild s = .next s) ∧
    (∀ a : Operand, s.fault = false → a ≠ 0 →
      cmdWrite (commandWord 0x20 a) s = .next (s.faulted 4 (commandWord 0x20 a))) ∧
    (s.fault = false →
      ∃ t, exec .treeBuild s = .next t ∧
        t.node.take t.nLeaf =
          ((List.range s.params.nsym).filter fun x => s.count x != 0).map (fun x => Node.leaf x (s.count x)) ∧
        t.nLeaf = ((List.range s.params.nsym).filter fun x => s.count x != 0).length ∧
        t.nNodes = 2 * t.nLeaf - 1 ∧
        t = { s with node := t.node, nLeaf := t.nLeaf, treeValid := true, codeValid := false, code := t.code })

/-- 41_tree_builder.md R121, R122: every Internal node TREE_BUILD makes takes, of the nodes that are no child yet, the one
that comes first as its left child and the one that comes second as its right child, and weighs their sum. -/
def Obligations.TreeBuildMergesTheTwoLeast : Prop :=
  ∀ (s t : State) (i : Nat), s.fault = false → exec .treeBuild s = .next t → t.nLeaf ≤ i → i < t.nNodes →
    ∃ l r x y, t.node[i]? = some (.internal (x.weight + y.weight) l r) ∧
      t.node[l]? = some x ∧ t.node[r]? = some y ∧ l ≠ r ∧
      inCollection t.node i l ∧ inCollection t.node i r ∧
      (∀ k, inCollection t.node i k → k ≠ l → comesBefore t.node l k) ∧
      (∀ k, inCollection t.node i k → k ≠ l → k ≠ r → comesBefore t.node r k)

/-- 41_tree_builder.md R125: NODE_RD puts a node's weight in RES0 and RES1 (bits 31:0 and WGT_W-1:32) and either its
Symbol in RES2 or, with bit 31 of RES2 set, its children in RES2 and RES3; without a tree it raises SequenceError,
beyond NNODES IllegalCommand. -/
def Obligations.NodeRdReadsANode : Prop :=
  ∀ (s : State) (a : Operand),
    (s.fault = true → exec (.nodeRd a) s = .next s) ∧
    (s.fault = false → s.treeValid = false → raises (.nodeRd a) s 5) ∧
    (s.fault = false → s.treeValid = true → s.nNodes ≤ a.toNat → raises (.nodeRd a) s 4) ∧
    (s.fault = false → s.treeValid = true → a.toNat < s.nNodes →
      ∃ t n, exec (.nodeRd a) s = .next t ∧ s.node[a.toNat]? = some n ∧
        (∀ b, t.res0.getLsbD b = (decide (b < 32) && n.weight.testBit b)) ∧
        (∀ b, t.res1.getLsbD b =
          (decide (b < 32) && decide (32 + b < s.params.wgtW) && n.weight.testBit (32 + b))) ∧
        (∀ sym w, n = .leaf sym w → t.res2 = BitVec.ofNat 32 sym ∧ t.res3 = 0) ∧
        (∀ w l r, n = .internal w l r →
          t.res2 = 0x80000000#32 ||| BitVec.ofNat 32 l ∧ t.res3 = BitVec.ofNat 32 r) ∧
        t = { s with res0 := t.res0, res1 := t.res1, res2 := t.res2, res3 := t.res3 })

/-- 42_code_table.md R140: CODE_GEN sets CODEVALID and writes the code table and nothing else; without a tree it raises
SequenceError. (What the table holds: `CodesAreLeafPaths`, `OneSymbolTable`, `EmptyTable`.) -/
def Obligations.CodeGenWritesTheCodeTable : Prop :=
  ∀ s : State,
    (s.fault = true → exec .codeGen s = .next s) ∧
    (∀ a : Operand, s.fault = false → a ≠ 0 →
      cmdWrite (commandWord 0x30 a) s = .next (s.faulted 4 (commandWord 0x30 a))) ∧
    (s.fault = false → s.treeValid = false → raises .codeGen s 5) ∧
    (s.fault = false → s.treeValid = true →
      ∃ t, exec .codeGen s = .next t ∧ t = { s with code := t.code, codeValid := true })

/-- 42_code_table.md R143: CODE_RD puts the length of the Symbol's code in RES0 and code bit 32·ARG + j in bit 31 - j of
RES1, 0 past the code's end; without a code table it raises SequenceError, with ARG ≥ CODE_WORDS IllegalCommand. -/
def Obligations.CodeRdReadsACodeWord : Prop :=
  ∀ (s : State) (a : Operand),
    (s.fault = true → exec (.codeRd a) s = .next s) ∧
    (s.fault = false → s.params.nsym ≤ a.toNat → raises (.codeRd a) s 4) ∧
    (s.fault = false → a.toNat < s.params.nsym → s.codeValid = false → raises (.codeRd a) s 5) ∧
    (s.fault = false → a.toNat < s.params.nsym → s.codeValid = true →
      max 1 ((2 ^ s.params.symW - 1 + 31) / 32) ≤ s.arg.toNat → raises (.codeRd a) s 4) ∧
    (s.fault = false → a.toNat < s.params.nsym → s.codeValid = true →
      s.arg.toNat < max 1 ((2 ^ s.params.symW - 1 + 31) / 32) →
      ∃ t, exec (.codeRd a) s = .next t ∧ t.res0 = BitVec.ofNat 32 (s.codeOf a.toNat).length ∧
        (∀ j, j < 32 → t.res1.getLsbD (31 - j) = ((s.codeOf a.toNat)[32 * s.arg.toNat + j]?).getD false) ∧
        t = { s with res0 := t.res0, res1 := t.res1, res2 := 0, res3 := 0 })

/-- 43_bitstream_codec.md R160: ENC_SYM appends the Symbol's code to the bitstring and changes nothing else; in order,
no code table raises SequenceError, no code UnknownSymbol, too many bits CapacityExceeded. -/
def Obligations.EncSymAppendsTheCode : Prop :=
  ∀ (s : State) (a : Operand),
    (s.fault = true → exec (.encSym a) s = .next s) ∧
    (s.fault = false → s.params.nsym ≤ a.toNat → raises (.encSym a) s 4) ∧
    (s.fault = false → a.toNat < s.params.nsym → s.codeValid = false → raises (.encSym a) s 5) ∧
    (s.fault = false → a.toNat < s.params.nsym → s.codeValid = true → s.codeOf a.toNat = [] →
      raises (.encSym a) s 1) ∧
    (s.fault = false → a.toNat < s.params.nsym → s.codeValid = true → s.codeOf a.toNat ≠ [] →
      8 * (s.params.blobCap - 1) < s.bitLen + (s.codeOf a.toNat).length → raises (.encSym a) s 6) ∧
    (s.fault = false → a.toNat < s.params.nsym → s.codeValid = true → s.codeOf a.toNat ≠ [] →
      s.bitLen + (s.codeOf a.toNat).length ≤ 8 * (s.params.blobCap - 1) →
      ∃ t, exec (.encSym a) s = .next t ∧ t.bitLen = s.bitLen + (s.codeOf a.toNat).length ∧
        t = { s with bits := s.bits ++ s.codeOf a.toNat })

/-- 43_bitstream_codec.md R161, R164: DECODE writes SYMBUF and SYMLEN and nothing else (BITS is not consumed), at most
one Symbol per bit; without a tree it raises SequenceError, with bits to decode and an empty tree
MalformedFrequencyTable. (Which Symbols: `DecodeEmitsTheLeavesReached`, `OneSymbolTable`.) -/
def Obligations.DecodeReplacesTheSymbolBuffer : Prop :=
  ∀ s : State,
    (s.fault = true → exec .decode s = .next s) ∧
    (∀ a : Operand, s.fault = false → a ≠ 0 →
      cmdWrite (commandWord 0x41 a) s = .next (s.faulted 4 (commandWord 0x41 a))) ∧
    (s.fault = false → s.treeValid = false → raises .decode s 5) ∧
    (s.fault = false → s.treeValid = true → s.nNodes = 0 → s.bitLen ≠ 0 → raises .decode s 3) ∧
    (s.fault = false → s.treeValid = true → (s.nNodes ≠ 0 ∨ s.bitLen = 0) →
      ∃ t, exec .decode s = .next t ∧ t.symLen ≤ s.bitLen ∧ t = { s with symBuf := t.symBuf })

/-- 43_bitstream_codec.md R161, R163: with a tree of two Leaves or more, the bitstring is the codes of the Symbols DECODE
leaves in SYMBUF, in order, and a tail that leads from the root to an Internal node only; the tail leaves no
Symbol and no fault. -/
def Obligations.DecodeEmitsTheLeavesReached : Prop :=
  ∀ s : State, s.Inv → s.fault = false → s.treeValid = true → 2 ≤ s.nLeaf →
    ∃ t tail j, exec .decode s = .next t ∧
      s.bits = codesOf (codeTable s.node) t.symBuf ++ tail ∧
      (∀ x ∈ t.symBuf, Memory.read [] (codeTable s.node) x ≠ []) ∧
      follow s.node (s.nNodes - 1) tail = some j ∧ isInternalAt s.node j ∧
      t = { s with symBuf := t.symBuf }

/-- 43_bitstream_codec.md R165: BITS_RD puts bit 32·w + j of the bitstring in bit 31 - j of RES0, 0 past BITLEN; an index
of ceil(BITLEN / 32) or more raises IllegalCommand. -/
def Obligations.BitsRdReadsABitWord : Prop :=
  ∀ (s : State) (a : Operand),
    (s.fault = true → exec (.bitsRd a) s = .next s) ∧
    (s.fault = false → s.bitLen ≤ 32 * a.toNat → raises (.bitsRd a) s 4) ∧
    (s.fault = false → 32 * a.toNat < s.bitLen →
      ∃ t, exec (.bitsRd a) s = .next t ∧
        (∀ j, j < 32 → t.res0.getLsbD (31 - j) = (s.bits[32 * a.toNat + j]?).getD false) ∧
        t = { s with res0 := t.res0, res1 := 0, res2 := 0, res3 := 0 })

/-- 43_bitstream_codec.md R166: SYM_RD puts a decoded Symbol in RES0; an index of SYMLEN or more raises
IllegalCommand. -/
def Obligations.SymRdReadsASymbol : Prop :=
  ∀ (s : State) (a : Operand),
    (s.fault = true → exec (.symRd a) s = .next s) ∧
    (s.fault = false → s.symLen ≤ a.toNat → raises (.symRd a) s 4) ∧
    (s.fault = false → a.toNat < s.symLen →
      ∃ x, s.symBuf[a.toNat]? = some x ∧
        exec (.symRd a) s = .next { s with res0 := BitVec.ofNat 32 x, res1 := 0, res2 := 0, res3 := 0 })

/-- 44_byte_packer.md R180, R181, R185: PACK replaces BLOB with the padding count, 0 to 7 and 0 for a whole number of
bytes, and then ceil(BITLEN / 8) bytes in which bit 8i + j of the bitstring is bit 7 - j of byte i and every padding
bit is 0; it fits BLOB_CAP; nothing else changes. -/
def Obligations.PackWritesTheBlob : Prop :=
  ∀ s : State,
    (s.fault = true → exec .pack s = .next s) ∧
    (∀ a : Operand, s.fault = false → a ≠ 0 →
      cmdWrite (commandWord 0x50 a) s = .next (s.faulted 4 (commandWord 0x50 a))) ∧
    (s.fault = false →
      ∃ t p, exec .pack s = .next t ∧ p ≤ 7 ∧ (s.bitLen + p) % 8 = 0 ∧ (s.bitLen % 8 = 0 → p = 0) ∧
        t.blob[0]? = some (BitVec.ofNat 8 p) ∧ t.blobLen = 1 + (s.bitLen + p) / 8 ∧
        (∀ i j, i < (s.bitLen + p) / 8 → j < 8 →
          ∃ v : Byte, t.blob[1 + i]? = some v ∧ v.getLsbD (7 - j) = (s.bits[8 * i + j]?).getD false) ∧
        (s.bitLen ≤ s.params.bitCap → 1 ≤ s.params.blobCap → t.blobLen ≤ s.params.blobCap) ∧
        t = { s with blob := t.blob })

/-- 44_byte_packer.md R182: UNPACK replaces BITS with the first 8·(BLOBLEN - 1) - p data bits, bit x being bit 7 - x mod 8
of data byte x div 8, and does not inspect the dropped ones; an empty blob, a count above 7, or a count above the bits
present raises InvalidPadding. -/
def Obligations.UnpackWritesTheBitstring : Prop :=
  ∀ s : State,
    (s.fault = true → exec .unpack s = .next s) ∧
    (∀ a : Operand, s.fault = false → a ≠ 0 →
      cmdWrite (commandWord 0x51 a) s = .next (s.faulted 4 (commandWord 0x51 a))) ∧
    (s.fault = false → s.blobLen = 0 → raises .unpack s 2) ∧
    (∀ p : Byte, s.fault = false → s.blob[0]? = some p → 7 < p.toNat → raises .unpack s 2) ∧
    (∀ p : Byte, s.fault = false → s.blob[0]? = some p → 8 * (s.blobLen - 1) < p.toNat → raises .unpack s 2) ∧
    (∀ p : Byte, s.fault = false → s.blob[0]? = some p → p.toNat ≤ 7 → p.toNat ≤ 8 * (s.blobLen - 1) →
      ∃ t, exec .unpack s = .next t ∧ t.bitLen = 8 * (s.blobLen - 1) - p.toNat ∧
        (∀ x, x < t.bitLen →
          ∃ v : Byte, s.blob[1 + x / 8]? = some v ∧ t.bits[x]? = some (v.getLsbD (7 - x % 8))) ∧
        t = { s with bits := t.bits })

/-- 44_byte_packer.md R183: BLOB_PUSH appends its byte to the blob and changes nothing else; a full buffer raises
CapacityExceeded, a word whose operand is no byte IllegalCommand. -/
def Obligations.BlobPushAppendsAByte : Prop :=
  ∀ (s : State) (b : Byte),
    (s.fault = true → exec (.blobPush b) s = .next s) ∧
    (∀ a : Operand, s.fault = false → 256 ≤ a.toNat →
      cmdWrite (commandWord 0x52 a) s = .next (s.faulted 4 (commandWord 0x52 a))) ∧
    (s.fault = false → s.blobLen = s.params.blobCap → raises (.blobPush b) s 6) ∧
    (s.fault = false → s.blobLen ≠ s.params.blobCap →
      ∃ t, exec (.blobPush b) s = .next t ∧ t.blobLen = s.blobLen + 1 ∧ t.blob[s.blobLen]? = some b ∧
        t = { s with blob := s.blob ++ [b] })

/-- 44_byte_packer.md R184: BLOB_RD puts a byte of the blob in RES0; an index of BLOBLEN or more raises
IllegalCommand. -/
def Obligations.BlobRdReadsAByte : Prop :=
  ∀ (s : State) (a : Operand),
    (s.fault = true → exec (.blobRd a) s = .next s) ∧
    (s.fault = false → s.blobLen ≤ a.toNat → raises (.blobRd a) s 4) ∧
    (s.fault = false → a.toNat < s.blobLen →
      ∃ v : Byte, s.blob[a.toNat]? = some v ∧
        exec (.blobRd a) s = .next { s with res0 := v.setWidth 32, res1 := 0, res2 := 0, res3 := 0 })

/-! ## What the tree and the code table are -/

/-- 10_state.md R42, 41_tree_builder.md R127: while TREEVALID = 1 and FAULT = 0: the Leaves come
first, by strictly ascending Symbol, each weighing its Symbol's count, at least 1; every other node is Internal with two
different children of smaller index and their summed weight; every node but the last is the child of exactly one node;
the last weighs TOKCNT; NNODES = 2·NLEAF - 1; no Leaf is deeper than NLEAF - 1 ≤ LEN_MAX. -/
def Obligations.ValidTreeIsAStrictBinaryTree : Prop :=
  ∀ s : State, s.Inv → s.fault = false → s.treeValid = true →
    s.nNodes = 2 * s.nLeaf - 1 ∧ s.nLeaf - 1 ≤ s.params.lenMax ∧
    (∀ j, j < s.nLeaf → ∃ sym, s.node[j]? = some (.leaf sym (s.count sym)) ∧ 1 ≤ s.count sym ∧ sym < s.params.nsym) ∧
    (∀ j k x y v w, j < k → k < s.nLeaf → s.node[j]? = some (.leaf x v) → s.node[k]? = some (.leaf y w) → x < y) ∧
    (∀ i, s.nLeaf ≤ i → i < s.nNodes →
      ∃ l r x y, s.node[i]? = some (.internal (x.weight + y.weight) l r) ∧ l ≠ r ∧ l < i ∧ r < i ∧
        s.node[l]? = some x ∧ s.node[r]? = some y) ∧
    (∀ k, k + 1 < s.nNodes →
      ∃ (i : Nat) (n : Node), s.node[i]? = some n ∧ n.hasChild k ∧
        ∀ (j : Nat) (m : Node), s.node[j]? = some m → m.hasChild k → j = i) ∧
    (1 ≤ s.nLeaf → ∃ n, s.node[s.nNodes - 1]? = some n ∧ n.weight = s.tokCnt) ∧
    (∀ path j, follow s.node (s.nNodes - 1) path = some j → path.length ≤ s.nLeaf - 1)

/-- 41_tree_builder.md R126: two states with the same Symbol width and the same count of every Symbol, however different
otherwise, have the same arena after TREE_BUILD, node for node. -/
def Obligations.TreeIsAFunctionOfTheTable : Prop :=
  ∀ s₁ s₂ t₁ t₂ : State, s₁.params.symW = s₂.params.symW → (∀ x, x < s₁.params.nsym → s₁.count x = s₂.count x) →
    s₁.fault = false → s₂.fault = false → exec .treeBuild s₁ = .next t₁ → exec .treeBuild s₂ = .next t₂ →
      t₁.node = t₂.node ∧ t₁.nLeaf = t₂.nLeaf

/-- 41_tree_builder.md R123, 42_code_table.md R142, 43_bitstream_codec.md R162: with exactly one non-zero count the tree
is one Leaf, the one code is "0", and DECODE emits the Symbol once for every bit, whatever the bits. -/
def Obligations.OneSymbolTable : Prop :=
  ∀ (s : State) (sym : Nat), s.fault = false → sym < s.params.nsym → s.count sym ≠ 0 →
    (∀ u, u < s.params.nsym → u ≠ sym → s.count u = 0) →
    ∃ t c d, exec .treeBuild s = .next t ∧ exec .codeGen t = .next c ∧ exec .decode c = .next d ∧
      t.nLeaf = 1 ∧ t.node = [.leaf sym (s.count sym)] ∧
      c.codeOf sym = [false] ∧ (∀ u, u ≠ sym → c.codeOf u = []) ∧
      d.symBuf = List.replicate s.bitLen sym

/-- 41_tree_builder.md R124, 42_code_table.md R144, 43_bitstream_codec.md R164: with no non-zero count TREE_BUILD and
CODE_GEN complete with no node and no code; then ENC_SYM raises UnknownSymbol, and DECODE gives the empty sequence for
no bits and raises MalformedFrequencyTable for any. -/
def Obligations.EmptyTable : Prop :=
  ∀ s : State, s.fault = false → (∀ u, u < s.params.nsym → s.count u = 0) →
    ∃ t c, exec .treeBuild s = .next t ∧ exec .codeGen t = .next c ∧
      t.nLeaf = 0 ∧ t.nNodes = 0 ∧ t.treeValid = true ∧ c.codeValid = true ∧ (∀ u, c.codeOf u = []) ∧
      (∀ a : Operand, a.toNat < s.params.nsym → raises (.encSym a) c 1) ∧
      (s.bits = [] → exec .decode c = .next { c with symBuf := [] }) ∧
      (s.bits ≠ [] → raises .decode c 3)

/-- 42_code_table.md R141: with two Leaves or more, the codes are exactly the paths from the root to the Leaves, 0 for a
step to the left child and 1 for a step to the right, the step out of the root first; a Symbol of no Leaf has no
code. -/
def Obligations.CodesAreLeafPaths : Prop :=
  ∀ s : State, s.Inv → s.fault = false → s.codeValid = true → 2 ≤ s.nLeaf →
    ∀ (sym : Nat) (b : Bits),
      (s.codeOf sym = b ∧ b ≠ []) ↔
        ∃ j w, follow s.node (s.nNodes - 1) b = some j ∧ s.node[j]? = some (.leaf sym w)

/-- 10_state.md R43, 49_properties.md R216: while CODEVALID = 1 and FAULT = 0, exactly the Symbols with a count of 1 or
more have a code, and no code is a beginning of another Symbol's code. -/
def Obligations.CodesArePrefixFree : Prop :=
  ∀ s : State, s.Inv → s.fault = false → s.codeValid = true →
    (∀ x, 1 ≤ (s.codeOf x).length ↔ 1 ≤ s.count x) ∧
    (∀ x y, x ≠ y → s.codeOf x ≠ [] → s.codeOf y ≠ [] → ¬ s.codeOf x <+: s.codeOf y)

/-- 49_properties.md R220: a Symbol with a larger count never has a longer code. -/
def Obligations.MoreFrequentIsNotLonger : Prop :=
  ∀ s : State, s.Inv → s.fault = false → s.codeValid = true →
    ∀ x y, s.count y < s.count x → 1 ≤ s.count y → (s.codeOf x).length ≤ (s.codeOf y).length

/-! ## Laws of whole sequences -/

/-- 44_byte_packer.md R186, 49_properties.md R219: PACK then UNPACK gives the bitstring back, for every bitstring; UNPACK
then PACK gives a blob back whose count is legal and whose padding bits are zero. -/
def Obligations.PackAndUnpackAreInverse : Prop :=
  (∀ s : State, s.fault = false →
    ∃ t u, exec .pack s = .next t ∧ exec .unpack t = .next u ∧ u.bits = s.bits ∧ u.bitLen = s.bitLen ∧
      u.fault = false) ∧
  (∀ (s : State) (p : Byte) (data : List Byte), s.fault = false → s.blob = p :: data → p.toNat ≤ 7 →
    p.toNat ≤ 8 * data.length →
    (∀ x, 8 * data.length - p.toNat ≤ x → x < 8 * data.length → (data.getD (x / 8) 0).getLsbD (7 - x % 8) = false) →
    ∃ t u, exec .unpack s = .next t ∧ exec .pack t = .next u ∧ u.blob = s.blob)

/-- 49_properties.md R217, R225, with 70_reset_and_hazards.md R275, R276: for every sequence of Symbols that compresses
without a fault, the decompress sequence with the table it left, its pairs in any order, and the blob it left, on a block
with the same parameters and any history, raises no fault, leaves exactly that sequence, and rebuilds the same arena. -/
def Obligations.CompressThenDecompressIsIdentity : Prop :=
  ∀ (s t : State) (tokens : List Operand), s.params.Legal → s.resetPin = false →
    (∀ x ∈ tokens, x.toNat < s.params.nsym) →
    s.runs (compressEvents tokens) = .next t → t.fault = false →
    ∀ (r : State) (table : Memory Nat), r.params = s.params → r.resetPin = false → table.Perm t.freq →
      ∃ u, r.runs (decompressEvents table t.blob) = .next u ∧ u.fault = false ∧
        u.symBuf = tokens.map (fun x => x.toNat) ∧ u.symLen = tokens.length ∧ u.node = t.node

/-- 49_properties.md R215: the compress sequence over Symbols below NSYM completes, and a fault it raises is CountOverflow
or CapacityExceeded. -/
def Obligations.CompressFaultsOnlyOnSize : Prop :=
  ∀ (s : State) (tokens : List Operand), s.params.Legal → s.resetPin = false →
    (∀ x ∈ tokens, x.toNat < s.params.nsym) →
    ∃ t, s.runs (compressEvents tokens) = .next t ∧ (t.fault = true → t.err = 6 ∨ t.err = 7)

/-- 49_properties.md R224: after a compress sequence without a fault BITLEN is the sum over all Symbols of count times code
length, and at least the number of tokens. -/
def Obligations.CompressedSize : Prop :=
  ∀ (s t : State) (tokens : List Operand), s.params.Legal → s.resetPin = false →
    (∀ x ∈ tokens, x.toNat < s.params.nsym) →
    s.runs (compressEvents tokens) = .next t → t.fault = false →
      t.bitLen = ((List.range t.params.nsym).map fun x => t.count x * (t.codeOf x).length).sum ∧
      tokens.length ≤ t.bitLen

/-- 49_properties.md R221: n copies of one Symbol: one Leaf, the code "0", n zero bits, the blob of the padding count and
ceil(n / 8) zero bytes; decompression gives the n copies back. -/
def Obligations.DegenerateAlphabet : Prop :=
  ∀ (s : State) (a : Operand) (n : Nat), s.params.Legal → s.resetPin = false → a.toNat < s.params.nsym →
    1 ≤ n → n < 2 ^ s.params.cntW → n ≤ s.params.bitCap →
    ∃ t u, s.runs (compressEvents (List.replicate n a)) = .next t ∧ t.fault = false ∧
      t.count a.toNat = n ∧ (∀ x, x ≠ a.toNat → t.count x = 0) ∧ t.nLeaf = 1 ∧ t.nNodes = 1 ∧
      t.codeOf a.toNat = [false] ∧ t.bits = List.replicate n false ∧
      t.blob = BitVec.ofNat 8 ((8 - n % 8) % 8) :: List.replicate ((n + 7) / 8) 0#8 ∧
      s.runs (decompressEvents t.freq t.blob) = .next u ∧ u.fault = false ∧
      u.symBuf = List.replicate n a.toNat

/-- 49_properties.md R223: the empty sequence compresses without a fault to an empty table, no node, no code, no bit and the
blob of one zero byte, and decompresses without a fault to the empty sequence. -/
def Obligations.EmptyInputBothWays : Prop :=
  ∀ s : State, s.resetPin = false → 1 ≤ s.params.blobCap →
    ∃ t u, s.runs (compressEvents []) = .next t ∧ t.fault = false ∧ (∀ x, t.count x = 0) ∧ t.tokCnt = 0 ∧
      t.nNodes = 0 ∧ (∀ x, t.codeOf x = []) ∧ t.bitLen = 0 ∧ t.blob = [0#8] ∧
      s.runs (decompressEvents [] [0#8]) = .next u ∧ u.fault = false ∧ u.symBuf = []

/-- 40_frequency_histogram.md R104, R105: after the counting pass over a token sequence from ResetState each Symbol's count
is the number of its occurrences and TOKCNT the number of tokens. -/
def Obligations.CountingPassCountsOccurrences : Prop :=
  ∀ (s : State) (tokens : List Operand), s.toBlock = Block.reset → s.resetPin = false →
    (∀ x ∈ tokens, x.toNat < s.params.nsym) → (∀ x, tokens.count x < 2 ^ s.params.cntW) →
    ∃ t, s.runs (countEvents tokens) = .next t ∧ t.fault = false ∧ t.tokCnt = tokens.length ∧
      ∀ x : Nat, t.count x = (tokens.map fun y => y.toNat).count x

/-- 49_properties.md R226: a command that raises a fault leaves BITLEN, BLOBLEN and SYMLEN at 0, and whatever the host then
does short of CLR_ALL and reset they stay 0. -/
def Obligations.NoPartialOutputAfterAFault : Prop :=
  (∀ (i : Instr) (s t : State), s.fault = false → exec i s = .next t → t.fault = true →
    t.bitLen = 0 ∧ t.blobLen = 0 ∧ t.symLen = 0) ∧
  (∀ (s t : State) (events : List HostEvent), s.Inv → s.fault = true →
    (∀ e ∈ events, e ≠ .regWrite 0 0x01000000#32 ∧ ∀ b, e ≠ .resetPin b) → s.runs events = .next t →
    t.fault = true ∧ t.bitLen = 0 ∧ t.blobLen = 0 ∧ t.symLen = 0)

/-! ## Rules about the whole machine -/

/-- 10_state.md R46, R21: the invariant holds right after reset. -/
def Obligations.ResetMeetsTheInvariant : Prop := State.reset.Inv

/-- 10_state.md R22, R23, R25, R27 to R31, 60_exceptions.md R245: every step of every state keeps the invariant: FREQ in
canonical form and in range, TOKCNT its sum, a valid tree the tree of the present FREQ and a valid code table the
present tree's, every length within its capacity, the fault registers 0 without a fault, and nothing but the fault and
ARG in the fault state. -/
def Obligations.StepKeepsTheInvariant : Prop :=
  ∀ s t : State, s.Inv → step s = .next t → t.Inv

/-- 10_state.md R32: no command writes ARG; CLR_ALL, the release of reset and fault entry clear it. -/
def Obligations.NoCommandWritesArg : Prop :=
  (∀ (i : Instr) (s t : State), i ≠ .clrAll → exec i s = .next t →
    t.arg = s.arg ∨ (s.fault = false ∧ t.fault = true ∧ t.arg = 0)) ∧
  (∀ (i : Instr) (s t : State), s.fault = false → exec i s = .next t → t.fault = true → t.arg = 0) ∧
  (∀ s t : State, exec .clrAll s = .next t → t.arg = 0) ∧
  (∀ (s t : State) (rest : List HostEvent), s.pending = .resetPin false :: rest → s.resetPin = true →
    step s = .next t → t.arg = 0) ∧
  (∀ (s : State) (v : Word) (rest : List HostEvent), s.pending = .regWrite 1 v :: rest → s.resetPin = false →
    ∃ t, step s = .next t ∧ t.arg = v) ∧
  State.reset.arg = 0

/-- 10_state.md R33: only the six read commands write the result registers; CLR_ALL, reset and fault entry clear
them. -/
def Obligations.OnlyReadCommandsWriteResults : Prop :=
  (∀ (i : Instr) (s t : State), isReadCommand i = false → i ≠ .clrAll → exec i s = .next t →
    (t.res0 = s.res0 ∧ t.res1 = s.res1 ∧ t.res2 = s.res2 ∧ t.res3 = s.res3) ∨ (s.fault = false ∧ t.fault = true)) ∧
  (∀ (i : Instr) (s t : State), (i = .clrAll ∨ (s.fault = false ∧ t.fault = true)) → exec i s = .next t →
    t.res0 = 0 ∧ t.res1 = 0 ∧ t.res2 = 0 ∧ t.res3 = 0)

/-- 10_state.md R30: TREEVALID is set by TREE_BUILD alone and cleared by HIST_SYM, FREQ_LD, CLR_ALL and fault entry alone;
CODEVALID is set by CODE_GEN alone and cleared by those and TREE_BUILD alone; a command clears FAULT only if it is
CLR_ALL. -/
def Obligations.FlagsChangeOnlyAsListed : Prop :=
  ∀ (i : Instr) (s t : State), exec i s = .next t →
    (s.treeValid = false → t.treeValid = true → i = .treeBuild) ∧
    (s.treeValid = true → t.treeValid = false →
      (∃ a, i = .histSym a) ∨ (∃ a, i = .freqLd a) ∨ i = .clrAll ∨ t.fault = true) ∧
    (s.codeValid = false → t.codeValid = true → i = .codeGen) ∧
    (s.codeValid = true → t.codeValid = false →
      (∃ a, i = .histSym a) ∨ (∃ a, i = .freqLd a) ∨ i = .treeBuild ∨ i = .clrAll ∨ t.fault = true) ∧
    (s.fault = true → t.fault = false → i = .clrAll)

/-- 70_reset_and_hazards.md R284: after a HIST_SYM or FREQ_LD that completes, CODE_GEN, ENC_SYM, DECODE, NODE_RD and CODE_RD
raise SequenceError until the tree is built again, while the bits already in BITS stay. -/
def Obligations.FreqWriteInvalidatesTreeAndCode : Prop :=
  ∀ (s t : State) (i : Instr), ((∃ a, i = .histSym a) ∨ ∃ a, i = .freqLd a) → s.fault = false →
    exec i s = .next t → t.fault = false →
      t.treeValid = false ∧ t.codeValid = false ∧ t.nLeaf = 0 ∧ t.nNodes = 0 ∧ t.bits = s.bits ∧
      raises .codeGen t 5 ∧ raises .decode t 5 ∧ (∀ a, raises (.nodeRd a) t 5) ∧
      (∀ a : Operand, a.toNat < t.params.nsym → raises (.encSym a) t 5 ∧ raises (.codeRd a) t 5)

/-- 10_state.md R45, 20_memory.md R61, R65: no command changes the parameters or the host's side, and no step changes the
parameters; each step takes at most one event off the host's queue (the queue is the model's own: log 2). -/
def Obligations.CommandsLeaveTheHostAlone : Prop :=
  (∀ (i : Instr) (s t : State), exec i s = .next t →
    t.params = s.params ∧ t.pending = s.pending ∧ t.readData = s.readData ∧ t.resetPin = s.resetPin) ∧
  (∀ s t : State, step s = .next t → t.params = s.params ∧ t.pending = s.pending.tail)

/-! ## The two operations through the port -/

/-- 70_reset_and_hazards.md R275, R276: with FAULT = 0 the blob read-out returns a STATUS with bit 0 clear, BLOBLEN and
every byte of the blob, the table read-out the count of every Symbol below NSYM, the token read-out a STATUS with bit 0
clear, SYMLEN and every decoded Symbol; each changes RES0 to RES3 alone. -/
def Obligations.ReadOutsReturnTheMemories : Prop :=
  ∀ s : State, s.Inv → s.fault = false → s.resetPin = false →
    (∃ status t, s.serve (blobReadUnits s.blobLen).flatten =
        some (status :: BitVec.ofNat 32 s.blobLen :: s.blob.map (fun b => b.setWidth 32), t) ∧
      status.getLsbD 0 = false ∧
      t.toBlock = { s.toBlock with res0 := t.res0, res1 := t.res1, res2 := t.res2, res3 := t.res3 }) ∧
    (∃ t, s.serve (tableReadUnits s.params).flatten =
        some ((List.range s.params.nsym).map (fun x => BitVec.ofNat 32 (s.count x)), t) ∧
      t.toBlock = { s.toBlock with res0 := t.res0, res1 := t.res1, res2 := t.res2, res3 := t.res3 }) ∧
    (∃ status t, s.serve (symbolReadUnits s.symLen).flatten =
        some (status :: BitVec.ofNat 32 s.symLen :: s.symBuf.map (fun x => BitVec.ofNat 32 x), t) ∧
      status.getLsbD 0 = false ∧
      t.toBlock = { s.toBlock with res0 := t.res0, res1 := t.res1, res2 := t.res2, res3 := t.res3 })

/-- 70_reset_and_hazards.md R275, R276, 49_properties.md R217: everything through the port. A compress operation whose
events up to PACK raise no fault gives the host the frequency table and the blob, one that faults gives it nothing; and
what it gives, the pairs in any order, a decompress operation on a block with the same parameters and any history turns
back into the tokens. -/
def Obligations.RoundTripThroughThePort : Prop :=
  ∀ (s : State) (tokens : List Operand), s.params.Legal → s.resetPin = false →
    (∀ x ∈ tokens, x.toNat < s.params.nsym) →
    (∀ t, s.runs (compressEvents tokens) = .next t → t.fault = false →
      ∃ u, s.hostCompress tokens = some (t.freq, t.blob, u) ∧ u.fault = false) ∧
    (∀ t, s.runs (compressEvents tokens) = .next t → t.fault = true → s.hostCompress tokens = none) ∧
    (∀ (table : Memory Nat) (blob : List Byte) (u : State), s.hostCompress tokens = some (table, blob, u) →
      ∀ (r : State) (pairs : Memory Nat), r.params = s.params → r.resetPin = false → pairs.Perm table →
        ∃ v, r.hostDecompress pairs blob = some (tokens.map (fun x => x.toNat), v) ∧ v.fault = false)

/-- 70_reset_and_hazards.md R275: when the compress sequence in the order R275 lists ends without a fault, so does every
order R275 allows (CLR_ALL or reset first, the table read at any time after the counting pass), in the same block but
for RES0, and the host reads the same words: those of the blob read-out and those of the table read-out, each in its
order. (Reset as two events of the host: the model's form, log 7.) -/
def Obligations.EveryAllowedCompressOrderAgrees : Prop :=
  ∀ (s c : State) (tokens : List Operand) (n : Nat) (words : List Word) (events : List HostEvent),
    s.resetPin = false → s.serve (compressSequence s.params tokens n) = some (words, c) → c.fault = false →
    compressOrder s.params tokens n events →
    ∃ read t, s.serve events = some (read, t) ∧ t.toBlock = { c.toBlock with res0 := t.res0 } ∧
      Interleaves (words.take (2 + n)) (words.drop (2 + n)) read

/-- 70_reset_and_hazards.md R276: when the decompress sequence in the order R276 lists ends without a fault, so does every
order R276 allows (CLR_ALL or reset first, the pairs of the table in any order, the table load and the blob load
interleaved or swapped), and the host reads the same words; the block it ends in is the same but for ARG, and the same
with ARG when the pairs are in the same order. (Reset as two events of the host: the model's form, log 7.) -/
def Obligations.EveryAllowedDecompressOrderAgrees : Prop :=
  ∀ (s c : State) (table pairs : Memory Nat) (blob : List Byte) (n : Nat) (words : List Word)
    (events : List HostEvent),
    s.resetPin = false → s.serve (decompressSequence table blob n) = some (words, c) → c.fault = false →
    pairs.Perm table → decompressOrder pairs blob n events →
    ∃ t, s.serve events = some (words, t) ∧ t.toBlock = { c.toBlock with arg := t.arg } ∧
      (pairs = table → t.arg = c.arg)

/-- 40_frequency_histogram.md R101, 49_properties.md R217: char mode. A text is refused exactly when it has a code point of
NSYM or above; any other is presented as one Symbol per code point, its value, and its compress operation is that of those
Symbols; one code point per Symbol gives the text back from them; and what compressing a text gives the host, the pairs in
any order, a block with the same parameters and any history decompresses to that text. (What a code point is: the
model's choice, log 14.) -/
def Obligations.CharModeRoundTrip : Prop :=
  ∀ (s : State) (text : List CodePoint), s.params.Legal → s.resetPin = false →
    ((∃ c ∈ text, s.params.nsym ≤ c.val) → charSymbols s.params text = none ∧ s.hostCompressText text = none) ∧
    ((∀ c ∈ text, c.val < s.params.nsym) →
      ∃ tokens : List Operand, charSymbols s.params text = some tokens ∧
        tokens.map (fun x => x.toNat) = text.map (fun c => c.val) ∧
        s.hostCompressText text = s.hostCompress tokens ∧
        symbolsText (tokens.map fun x => x.toNat) = some text) ∧
    (∀ (table : Memory Nat) (blob : List Byte) (u : State), s.hostCompressText text = some (table, blob, u) →
      ∀ (r : State) (pairs : Memory Nat), r.params = s.params → r.resetPin = false → pairs.Perm table →
        ∃ v, r.hostDecompressText pairs blob = some (text, v) ∧ v.fault = false)
end

