-- ==== Sys2Proof/Laws/Bits.lean ====
section
/-! SUPPORT. What the bit-order operations do (20_memory.md R66, R67 (c)): the place of each bit in a word, in a
byte, in a blob and in an unpacked bitstring. -/

namespace Sys2Proof.Machine

/-- Bit `j` of the run is bit `n - 1 - j` of the word. -/
theorem msbFirst_getLsbD (n : Nat) (f : Nat → Bool) (j : Nat) (h : j < n) :
    (msbFirst n f).getLsbD (n - 1 - j) = f j := by
  induction n generalizing f j with
  | zero => omega
  | succ n ih =>
    rw [msbFirst, BitVec.getLsbD_cons]
    cases j with
    | zero => simp
    | succ j =>
      rw [if_neg (by omega), show n + 1 - 1 - (j + 1) = n - 1 - j by omega]
      exact ih (fun j => f (j + 1)) j (by omega)

/-- Bit `32w + j` of a bitstring is bit `31 - j` of its word `w` (R67 (c)). -/
theorem bitsWord_getLsbD (b : Bits) (w j : Nat) (h : j < 32) :
    (bitsWord b w).getLsbD (31 - j) = (b[32 * w + j]?).getD false := by
  rw [bitsWord, show 31 - j = 32 - 1 - j by omega, msbFirst_getLsbD _ _ _ h, bitAt, List.getD_eq_getElem?_getD]

/-- Bit `8i + j` of a bitstring is bit `7 - j` of its byte `i` (R66). -/
theorem bitsByte_getLsbD (b : Bits) (i j : Nat) (h : j < 8) :
    (bitsByte b i).getLsbD (7 - j) = (b[8 * i + j]?).getD false := by
  rw [bitsByte, show 7 - j = 8 - 1 - j by omega, msbFirst_getLsbD _ _ _ h, bitAt, List.getD_eq_getElem?_getD]

theorem padding_le (n : Nat) : padding n ≤ 7 := by
  unfold padding; omega

/-- The padding brings a bitstring to a whole number of bytes (44_byte_packer.md R180). -/
theorem add_padding_mod (n : Nat) : (n + padding n) % 8 = 0 := by
  unfold padding; omega

theorem packBits_length (b : Bits) : (packBits b).length = 1 + (b.length + padding b.length) / 8 := by
  simp [packBits]; omega

@[simp] theorem dataBits_length (data : List Byte) (n : Nat) : (dataBits data n).length = n := by
  simp [dataBits]

/-- Bit `x` of an unpacked bitstring is bit `7 - x mod 8` of data byte `x div 8` (44_byte_packer.md R182). -/
theorem dataBits_getElem? (data : List Byte) (n x : Nat) (h : x < n) :
    (dataBits data n)[x]? = some ((data.getD (x / 8) 0).getLsbD (7 - x % 8)) := by
  simp [dataBits, h]

end Sys2Proof.Machine
end

