-- ==== Sys2Proof/Laws/Encoding.lean ====
section
/-! SUPPORT. The fields of a command word (30_encoding.md R81): the two fields of a composed word, and a word
composed of its own fields. -/

namespace Sys2Proof

theorem commandWord_toNat (op : BitVec 8) (a : Operand) :
    (commandWord op a).toNat = op.toNat * 2 ^ 24 + a.toNat := by
  have h := BitVec.toNat_append (x := op) (y := a)
  rw [← Nat.shiftLeft_add_eq_or_of_lt a.isLt, Nat.shiftLeft_eq] at h
  exact h

theorem opField_toNat (w : Word) : (opField w).toNat = w.toNat / 2 ^ 24 := by
  have := w.isLt
  simp [opField, Nat.shiftRight_eq_div_pow]
  omega

theorem operandField_toNat (w : Word) : (operandField w).toNat = w.toNat % 2 ^ 24 := by
  simp [operandField]

@[simp] theorem opField_commandWord (op : BitVec 8) (a : Operand) : opField (commandWord op a) = op := by
  apply BitVec.eq_of_toNat_eq
  rw [opField_toNat, commandWord_toNat]
  have := a.isLt
  omega

@[simp] theorem operandField_commandWord (op : BitVec 8) (a : Operand) :
    operandField (commandWord op a) = a := by
  apply BitVec.eq_of_toNat_eq
  rw [operandField_toNat, commandWord_toNat]
  have := a.isLt
  omega

@[simp] theorem commandWord_fields (w : Word) : commandWord (opField w) (operandField w) = w := by
  apply BitVec.eq_of_toNat_eq
  rw [commandWord_toNat, opField_toNat, operandField_toNat]
  omega

end Sys2Proof
end

