-- ==== Sys2Proof/Laws/State.lean ====
section
/-! SUPPORT. One lemma per field per update of the state, so that no later proof unfolds a record update. -/

namespace Sys2Proof.Machine

variable (s : State)


/-! ### clear: ResetState (10_state.md R46) -/

@[simp] theorem State.clear_freq : (s.clear).freq = [] := rfl
@[simp] theorem State.clear_tokCnt : (s.clear).tokCnt = 0 := rfl
@[simp] theorem State.clear_node : (s.clear).node = [] := rfl
@[simp] theorem State.clear_nLeaf : (s.clear).nLeaf = 0 := rfl
@[simp] theorem State.clear_code : (s.clear).code = [] := rfl
@[simp] theorem State.clear_bits : (s.clear).bits = [] := rfl
@[simp] theorem State.clear_blob : (s.clear).blob = [] := rfl
@[simp] theorem State.clear_symBuf : (s.clear).symBuf = [] := rfl
@[simp] theorem State.clear_fault : (s.clear).fault = false := rfl
@[simp] theorem State.clear_treeValid : (s.clear).treeValid = false := rfl
@[simp] theorem State.clear_codeValid : (s.clear).codeValid = false := rfl
@[simp] theorem State.clear_err : (s.clear).err = 0 := rfl
@[simp] theorem State.clear_errInfo : (s.clear).errInfo = 0 := rfl
@[simp] theorem State.clear_arg : (s.clear).arg = 0 := rfl
@[simp] theorem State.clear_res0 : (s.clear).res0 = 0 := rfl
@[simp] theorem State.clear_res1 : (s.clear).res1 = 0 := rfl
@[simp] theorem State.clear_res2 : (s.clear).res2 = 0 := rfl
@[simp] theorem State.clear_res3 : (s.clear).res3 = 0 := rfl
@[simp] theorem State.clear_params : (s.clear).params = s.params := rfl
@[simp] theorem State.clear_pending : (s.clear).pending = s.pending := rfl
@[simp] theorem State.clear_readData : (s.clear).readData = s.readData := rfl
@[simp] theorem State.clear_resetPin : (s.clear).resetPin = s.resetPin := rfl
@[simp] theorem State.clear_toBlock : s.clear.toBlock = Block.reset := rfl

/-! ### setRes (10_state.md R33) -/

@[simp] theorem State.setRes_freq (r0 r1 r2 r3 : Word) : (s.setRes r0 r1 r2 r3).freq = s.freq := rfl
@[simp] theorem State.setRes_tokCnt (r0 r1 r2 r3 : Word) : (s.setRes r0 r1 r2 r3).tokCnt = s.tokCnt := rfl
@[simp] theorem State.setRes_node (r0 r1 r2 r3 : Word) : (s.setRes r0 r1 r2 r3).node = s.node := rfl
@[simp] theorem State.setRes_nLeaf (r0 r1 r2 r3 : Word) : (s.setRes r0 r1 r2 r3).nLeaf = s.nLeaf := rfl
@[simp] theorem State.setRes_code (r0 r1 r2 r3 : Word) : (s.setRes r0 r1 r2 r3).code = s.code := rfl
@[simp] theorem State.setRes_bits (r0 r1 r2 r3 : Word) : (s.setRes r0 r1 r2 r3).bits = s.bits := rfl
@[simp] theorem State.setRes_blob (r0 r1 r2 r3 : Word) : (s.setRes r0 r1 r2 r3).blob = s.blob := rfl
@[simp] theorem State.setRes_symBuf (r0 r1 r2 r3 : Word) : (s.setRes r0 r1 r2 r3).symBuf = s.symBuf := rfl
@[simp] theorem State.setRes_fault (r0 r1 r2 r3 : Word) : (s.setRes r0 r1 r2 r3).fault = s.fault := rfl
@[simp] theorem State.setRes_treeValid (r0 r1 r2 r3 : Word) : (s.setRes r0 r1 r2 r3).treeValid = s.treeValid := rfl
@[simp] theorem State.setRes_codeValid (r0 r1 r2 r3 : Word) : (s.setRes r0 r1 r2 r3).codeValid = s.codeValid := rfl
@[simp] theorem State.setRes_err (r0 r1 r2 r3 : Word) : (s.setRes r0 r1 r2 r3).err = s.err := rfl
@[simp] theorem State.setRes_errInfo (r0 r1 r2 r3 : Word) : (s.setRes r0 r1 r2 r3).errInfo = s.errInfo := rfl
@[simp] theorem State.setRes_arg (r0 r1 r2 r3 : Word) : (s.setRes r0 r1 r2 r3).arg = s.arg := rfl
@[simp] theorem State.setRes_res0 (r0 r1 r2 r3 : Word) : (s.setRes r0 r1 r2 r3).res0 = r0 := rfl
@[simp] theorem State.setRes_res1 (r0 r1 r2 r3 : Word) : (s.setRes r0 r1 r2 r3).res1 = r1 := rfl
@[simp] theorem State.setRes_res2 (r0 r1 r2 r3 : Word) : (s.setRes r0 r1 r2 r3).res2 = r2 := rfl
@[simp] theorem State.setRes_res3 (r0 r1 r2 r3 : Word) : (s.setRes r0 r1 r2 r3).res3 = r3 := rfl
@[simp] theorem State.setRes_params (r0 r1 r2 r3 : Word) : (s.setRes r0 r1 r2 r3).params = s.params := rfl
@[simp] theorem State.setRes_pending (r0 r1 r2 r3 : Word) : (s.setRes r0 r1 r2 r3).pending = s.pending := rfl
@[simp] theorem State.setRes_readData (r0 r1 r2 r3 : Word) : (s.setRes r0 r1 r2 r3).readData = s.readData := rfl
@[simp] theorem State.setRes_resetPin (r0 r1 r2 r3 : Word) : (s.setRes r0 r1 r2 r3).resetPin = s.resetPin := rfl

/-! ### takeFault (60_exceptions.md R245) -/

@[simp] theorem State.takeFault_freq (k : FaultKind) (w : Word) : (s.takeFault k w).freq = [] := rfl
@[simp] theorem State.takeFault_tokCnt (k : FaultKind) (w : Word) : (s.takeFault k w).tokCnt = 0 := rfl
@[simp] theorem State.takeFault_node (k : FaultKind) (w : Word) : (s.takeFault k w).node = [] := rfl
@[simp] theorem State.takeFault_nLeaf (k : FaultKind) (w : Word) : (s.takeFault k w).nLeaf = 0 := rfl
@[simp] theorem State.takeFault_code (k : FaultKind) (w : Word) : (s.takeFault k w).code = [] := rfl
@[simp] theorem State.takeFault_bits (k : FaultKind) (w : Word) : (s.takeFault k w).bits = [] := rfl
@[simp] theorem State.takeFault_blob (k : FaultKind) (w : Word) : (s.takeFault k w).blob = [] := rfl
@[simp] theorem State.takeFault_symBuf (k : FaultKind) (w : Word) : (s.takeFault k w).symBuf = [] := rfl
@[simp] theorem State.takeFault_fault (k : FaultKind) (w : Word) : (s.takeFault k w).fault = true := rfl
@[simp] theorem State.takeFault_treeValid (k : FaultKind) (w : Word) : (s.takeFault k w).treeValid = false := rfl
@[simp] theorem State.takeFault_codeValid (k : FaultKind) (w : Word) : (s.takeFault k w).codeValid = false := rfl
@[simp] theorem State.takeFault_err (k : FaultKind) (w : Word) : (s.takeFault k w).err = k.code := rfl
@[simp] theorem State.takeFault_errInfo (k : FaultKind) (w : Word) : (s.takeFault k w).errInfo = w := rfl
@[simp] theorem State.takeFault_arg (k : FaultKind) (w : Word) : (s.takeFault k w).arg = 0 := rfl
@[simp] theorem State.takeFault_res0 (k : FaultKind) (w : Word) : (s.takeFault k w).res0 = 0 := rfl
@[simp] theorem State.takeFault_res1 (k : FaultKind) (w : Word) : (s.takeFault k w).res1 = 0 := rfl
@[simp] theorem State.takeFault_res2 (k : FaultKind) (w : Word) : (s.takeFault k w).res2 = 0 := rfl
@[simp] theorem State.takeFault_res3 (k : FaultKind) (w : Word) : (s.takeFault k w).res3 = 0 := rfl
@[simp] theorem State.takeFault_params (k : FaultKind) (w : Word) : (s.takeFault k w).params = s.params := rfl
@[simp] theorem State.takeFault_pending (k : FaultKind) (w : Word) : (s.takeFault k w).pending = s.pending := rfl
@[simp] theorem State.takeFault_readData (k : FaultKind) (w : Word) : (s.takeFault k w).readData = s.readData := rfl
@[simp] theorem State.takeFault_resetPin (k : FaultKind) (w : Word) : (s.takeFault k w).resetPin = s.resetPin := rfl

/-! ### invalidate (40_frequency_histogram.md R109) -/

@[simp] theorem State.invalidate_freq : (s.invalidate).freq = s.freq := rfl
@[simp] theorem State.invalidate_tokCnt : (s.invalidate).tokCnt = s.tokCnt := rfl
@[simp] theorem State.invalidate_node : (s.invalidate).node = [] := rfl
@[simp] theorem State.invalidate_nLeaf : (s.invalidate).nLeaf = 0 := rfl
@[simp] theorem State.invalidate_code : (s.invalidate).code = [] := rfl
@[simp] theorem State.invalidate_bits : (s.invalidate).bits = s.bits := rfl
@[simp] theorem State.invalidate_blob : (s.invalidate).blob = s.blob := rfl
@[simp] theorem State.invalidate_symBuf : (s.invalidate).symBuf = s.symBuf := rfl
@[simp] theorem State.invalidate_fault : (s.invalidate).fault = s.fault := rfl
@[simp] theorem State.invalidate_treeValid : (s.invalidate).treeValid = false := rfl
@[simp] theorem State.invalidate_codeValid : (s.invalidate).codeValid = false := rfl
@[simp] theorem State.invalidate_err : (s.invalidate).err = s.err := rfl
@[simp] theorem State.invalidate_errInfo : (s.invalidate).errInfo = s.errInfo := rfl
@[simp] theorem State.invalidate_arg : (s.invalidate).arg = s.arg := rfl
@[simp] theorem State.invalidate_res0 : (s.invalidate).res0 = s.res0 := rfl
@[simp] theorem State.invalidate_res1 : (s.invalidate).res1 = s.res1 := rfl
@[simp] theorem State.invalidate_res2 : (s.invalidate).res2 = s.res2 := rfl
@[simp] theorem State.invalidate_res3 : (s.invalidate).res3 = s.res3 := rfl
@[simp] theorem State.invalidate_params : (s.invalidate).params = s.params := rfl
@[simp] theorem State.invalidate_pending : (s.invalidate).pending = s.pending := rfl
@[simp] theorem State.invalidate_readData : (s.invalidate).readData = s.readData := rfl
@[simp] theorem State.invalidate_resetPin : (s.invalidate).resetPin = s.resetPin := rfl

/-! ### accept: one event taken off the queue -/

@[simp] theorem State.accept_freq (rest : List HostEvent) : (s.accept rest).freq = s.freq := rfl
@[simp] theorem State.accept_tokCnt (rest : List HostEvent) : (s.accept rest).tokCnt = s.tokCnt := rfl
@[simp] theorem State.accept_node (rest : List HostEvent) : (s.accept rest).node = s.node := rfl
@[simp] theorem State.accept_nLeaf (rest : List HostEvent) : (s.accept rest).nLeaf = s.nLeaf := rfl
@[simp] theorem State.accept_code (rest : List HostEvent) : (s.accept rest).code = s.code := rfl
@[simp] theorem State.accept_bits (rest : List HostEvent) : (s.accept rest).bits = s.bits := rfl
@[simp] theorem State.accept_blob (rest : List HostEvent) : (s.accept rest).blob = s.blob := rfl
@[simp] theorem State.accept_symBuf (rest : List HostEvent) : (s.accept rest).symBuf = s.symBuf := rfl
@[simp] theorem State.accept_fault (rest : List HostEvent) : (s.accept rest).fault = s.fault := rfl
@[simp] theorem State.accept_treeValid (rest : List HostEvent) : (s.accept rest).treeValid = s.treeValid := rfl
@[simp] theorem State.accept_codeValid (rest : List HostEvent) : (s.accept rest).codeValid = s.codeValid := rfl
@[simp] theorem State.accept_err (rest : List HostEvent) : (s.accept rest).err = s.err := rfl
@[simp] theorem State.accept_errInfo (rest : List HostEvent) : (s.accept rest).errInfo = s.errInfo := rfl
@[simp] theorem State.accept_arg (rest : List HostEvent) : (s.accept rest).arg = s.arg := rfl
@[simp] theorem State.accept_res0 (rest : List HostEvent) : (s.accept rest).res0 = s.res0 := rfl
@[simp] theorem State.accept_res1 (rest : List HostEvent) : (s.accept rest).res1 = s.res1 := rfl
@[simp] theorem State.accept_res2 (rest : List HostEvent) : (s.accept rest).res2 = s.res2 := rfl
@[simp] theorem State.accept_res3 (rest : List HostEvent) : (s.accept rest).res3 = s.res3 := rfl
@[simp] theorem State.accept_params (rest : List HostEvent) : (s.accept rest).params = s.params := rfl
@[simp] theorem State.accept_pending (rest : List HostEvent) : (s.accept rest).pending = rest := rfl
@[simp] theorem State.accept_readData (rest : List HostEvent) : (s.accept rest).readData = none := rfl
@[simp] theorem State.accept_resetPin (rest : List HostEvent) : (s.accept rest).resetPin = s.resetPin := rfl

/-! ### withCommand -/

@[simp] theorem State.withCommand_freq (w : Word) : (s.withCommand w).freq = s.freq := rfl
@[simp] theorem State.withCommand_tokCnt (w : Word) : (s.withCommand w).tokCnt = s.tokCnt := rfl
@[simp] theorem State.withCommand_node (w : Word) : (s.withCommand w).node = s.node := rfl
@[simp] theorem State.withCommand_nLeaf (w : Word) : (s.withCommand w).nLeaf = s.nLeaf := rfl
@[simp] theorem State.withCommand_code (w : Word) : (s.withCommand w).code = s.code := rfl
@[simp] theorem State.withCommand_bits (w : Word) : (s.withCommand w).bits = s.bits := rfl
@[simp] theorem State.withCommand_blob (w : Word) : (s.withCommand w).blob = s.blob := rfl
@[simp] theorem State.withCommand_symBuf (w : Word) : (s.withCommand w).symBuf = s.symBuf := rfl
@[simp] theorem State.withCommand_fault (w : Word) : (s.withCommand w).fault = s.fault := rfl
@[simp] theorem State.withCommand_treeValid (w : Word) : (s.withCommand w).treeValid = s.treeValid := rfl
@[simp] theorem State.withCommand_codeValid (w : Word) : (s.withCommand w).codeValid = s.codeValid := rfl
@[simp] theorem State.withCommand_err (w : Word) : (s.withCommand w).err = s.err := rfl
@[simp] theorem State.withCommand_errInfo (w : Word) : (s.withCommand w).errInfo = s.errInfo := rfl
@[simp] theorem State.withCommand_arg (w : Word) : (s.withCommand w).arg = s.arg := rfl
@[simp] theorem State.withCommand_res0 (w : Word) : (s.withCommand w).res0 = s.res0 := rfl
@[simp] theorem State.withCommand_res1 (w : Word) : (s.withCommand w).res1 = s.res1 := rfl
@[simp] theorem State.withCommand_res2 (w : Word) : (s.withCommand w).res2 = s.res2 := rfl
@[simp] theorem State.withCommand_res3 (w : Word) : (s.withCommand w).res3 = s.res3 := rfl
@[simp] theorem State.withCommand_params (w : Word) : (s.withCommand w).params = s.params := rfl
@[simp] theorem State.withCommand_pending (w : Word) : (s.withCommand w).pending = .regWrite 0 w :: s.pending := rfl
@[simp] theorem State.withCommand_readData (w : Word) : (s.withCommand w).readData = s.readData := rfl
@[simp] theorem State.withCommand_resetPin (w : Word) : (s.withCommand w).resetPin = s.resetPin := rfl

end Sys2Proof.Machine
end

