-- ==== Sys2Proof/Laws/Ops.lean ====
section
/-! SUPPORT. What the shared operations do: the laws of an internal memory, how a command ends, what a check
does. -/

namespace Sys2Proof.Machine

namespace Memory

variable {α : Type} (d : α)

@[simp] theorem read_nil (i : Nat) : read d [] i = d := rfl

theorem read_cons (k : Nat) (v : α) (m : Memory α) (i : Nat) :
    read d ((k, v) :: m) i = if k = i then v else read d m i := rfl

/-- An index below every listed one reads as `d`. -/
theorem read_of_lt (m : Memory α) (i : Nat) (h : ∀ c ∈ m, i < c.1) : read d m i = d := by
  induction m with
  | nil => rfl
  | cons c m ih =>
    have hc := h c (by simp)
    rw [read, if_neg (by omega)]
    exact ih fun x hx => h x (by simp [hx])

variable [DecidableEq α]

/-- A write leaves every other element alone. -/
theorem read_write_of_ne (m : Memory α) (i j : Nat) (v : α) (h : j ≠ i) :
    read d (write d m i v) j = read d m j := by
  induction m with
  | nil => by_cases hv : v = d <;> simp [write, read, hv, h.symm]
  | cons c m ih =>
    obtain ⟨k, u⟩ := c
    rw [write]
    split
    · split <;> simp [read, h.symm]
    · split
      · subst_vars; split <;> simp [read, h.symm]
      · simp [read, ih]

/-- An element written with a value that is listed reads back, in any memory. -/
theorem read_write_self_of_ne (m : Memory α) (i : Nat) (v : α) (h : v ≠ d) :
    read d (write d m i v) i = v := by
  induction m with
  | nil => simp [write, read, h]
  | cons c m ih =>
    obtain ⟨k, u⟩ := c
    rw [write]
    split
    · simp [read]
    · split
      · simp [read]
      · rename_i h1 h2
        rw [read, if_neg (by omega), ih]

/-- An element written reads back, in a memory in canonical form. -/
theorem read_write_self (m : Memory α) (i : Nat) (v : α) (hm : wf d m) :
    read d (write d m i v) i = v := by
  by_cases hv : v = d
  · subst hv
    induction m with
    | nil => simp [write]
    | cons c m ih =>
      obtain ⟨k, u⟩ := c
      have hr : ∀ x ∈ m, k < x.1 := (List.pairwise_cons.1 hm.1).1
      rw [write]
      split
      · rename_i hlt
        simp only [if_true]
        exact read_of_lt _ _ _ fun x hx => by
          rcases List.mem_cons.1 hx with rfl | hx
          · exact hlt
          · exact Nat.lt_trans hlt (hr x hx)
      · split
        · rename_i heq
          simp only [if_true]
          exact read_of_lt _ _ _ fun x hx => heq ▸ hr x hx
        · rw [read, if_neg (by omega)]
          exact ih ⟨(List.pairwise_cons.1 hm.1).2, fun c hc => hm.2 c (by simp [hc])⟩
  · exact read_write_self_of_ne d m i v hv

/-- Every entry of a written memory is the one written or an old one. -/
theorem mem_write (m : Memory α) (i : Nat) (v : α) (c : Nat × α) (h : c ∈ write d m i v) :
    c = (i, v) ∨ c ∈ m := by
  induction m with
  | nil =>
    rw [write] at h
    split at h <;> simp_all
  | cons e m ih =>
    obtain ⟨k, u⟩ := e
    rw [write] at h
    split at h
    · split at h <;> simp_all
    · split at h
      · split at h
        · simp [h]
        · rcases List.mem_cons.1 h with h | h <;> simp [h]
      · rcases List.mem_cons.1 h with h | h
        · simp [h]
        · rcases ih h with h | h <;> simp [h]

/-- A write keeps the canonical form. -/
theorem write_wf (m : Memory α) (i : Nat) (v : α) (hm : wf d m) : wf d (write d m i v) := by
  induction m with
  | nil => by_cases hv : v = d <;> simp [write, wf, hv]
  | cons e m ih =>
    obtain ⟨k, u⟩ := e
    obtain ⟨hp, hd⟩ := hm
    have hr := (List.pairwise_cons.1 hp).1
    have hm' : wf d m := ⟨(List.pairwise_cons.1 hp).2, fun c hc => hd c (by simp [hc])⟩
    rw [write]
    split
    · rename_i hlt
      split
      · exact ⟨hp, hd⟩
      · rename_i hv
        refine ⟨List.pairwise_cons.2 ⟨fun x hx => ?_, hp⟩, fun c hc => ?_⟩
        · rcases List.mem_cons.1 hx with rfl | hx
          · exact hlt
          · exact Nat.lt_trans hlt (hr x hx)
        · rcases List.mem_cons.1 hc with rfl | hc
          · exact hv
          · exact hd c hc
    · split
      · rename_i heq
        split
        · exact hm'
        · rename_i hv
          refine ⟨List.pairwise_cons.2 ⟨fun x hx => heq ▸ hr x hx, hm'.1⟩, fun c hc => ?_⟩
          rcases List.mem_cons.1 hc with rfl | hc
          · exact hv
          · exact hm'.2 c hc
      · refine ⟨List.pairwise_cons.2 ⟨fun x hx => ?_, (ih hm').1⟩, fun c hc => ?_⟩
        · rcases mem_write d m i v x hx with rfl | hx
          · simp only; omega
          · exact hr x hx
        · rcases List.mem_cons.1 hc with rfl | hc
          · exact hd _ (by simp)
          · exact (ih hm').2 c hc

omit [DecidableEq α] in
/-- What is read at an index that is not listed. -/
theorem read_of_not_mem (m : Memory α) (i : Nat) (h : ∀ c ∈ m, c.1 ≠ i) : read d m i = d := by
  induction m with
  | nil => rfl
  | cons c m ih =>
    rw [read, if_neg (h c (by simp))]
    exact ih fun x hx => h x (by simp [hx])

omit [DecidableEq α] in
/-- In canonical form an entry is what is read at its index. -/
theorem read_of_mem (m : Memory α) (hm : wf d m) (c : Nat × α) (h : c ∈ m) : read d m c.1 = c.2 := by
  induction m with
  | nil => cases h
  | cons e m ih =>
    obtain ⟨hp, hd⟩ := hm
    rcases List.mem_cons.1 h with rfl | h
    · simp [read]
    · have := (List.pairwise_cons.1 hp).1 c h
      rw [read, if_neg (by omega)]
      exact ih ⟨(List.pairwise_cons.1 hp).2, fun x hx => hd x (by simp [hx])⟩ h

omit [DecidableEq α] in
/-- A value read that is not `d` is listed. -/
theorem mem_of_read (m : Memory α) (i : Nat) (h : read d m i ≠ d) : (i, read d m i) ∈ m := by
  induction m with
  | nil => exact absurd rfl h
  | cons e m ih =>
    obtain ⟨k, u⟩ := e
    by_cases hk : k = i
    · subst hk; simp [read]
    · rw [read, if_neg hk] at h ⊢
      exact List.mem_cons_of_mem _ (ih h)

omit [DecidableEq α] in
/-- Two memories in canonical form that read the same everywhere are the same list: equal memories are equal
data. -/
theorem ext_of_read (m n : Memory α) (hm : wf d m) (hn : wf d n) (h : ∀ i, read d m i = read d n i) : m = n := by
  induction m generalizing n with
  | nil =>
    cases n with
    | nil => rfl
    | cons e n => exact absurd ((h e.1).trans (by simp [read])).symm (hn.2 e (by simp))
  | cons e m ih =>
    cases n with
    | nil => exact absurd ((h e.1).symm.trans (by simp [read])).symm (hm.2 e (by simp))
    | cons f n =>
      have hm' : wf d m := ⟨(List.pairwise_cons.1 hm.1).2, fun c hc => hm.2 c (by simp [hc])⟩
      have hn' : wf d n := ⟨(List.pairwise_cons.1 hn.1).2, fun c hc => hn.2 c (by simp [hc])⟩
      have he := (List.pairwise_cons.1 hm.1).1
      have hf := (List.pairwise_cons.1 hn.1).1
      have hkey : e.1 = f.1 := by
        by_contra hne
        rcases Nat.lt_or_gt_of_ne hne with hlt | hlt
        · have h1 := h e.1
          rw [read_of_lt d (f :: n) e.1 (fun c hc => by
            rcases List.mem_cons.1 hc with rfl | hc
            · exact hlt
            · exact Nat.lt_trans hlt (hf c hc))] at h1
          exact hm.2 e (by simp) (by rw [← h1]; simp [read])
        · have h1 := h f.1
          rw [read_of_lt d (e :: m) f.1 (fun c hc => by
            rcases List.mem_cons.1 hc with rfl | hc
            · exact hlt
            · exact Nat.lt_trans hlt (he c hc))] at h1
          exact hn.2 f (by simp) (by rw [h1]; simp [read])
      have hval : e.2 = f.2 := by
        have h1 := h e.1
        rw [read, if_pos rfl, read, if_pos hkey.symm] at h1
        exact h1
      have hef : e = f := Prod.ext hkey hval
      subst hef
      congr 1
      refine ih n hm' hn' fun i => ?_
      by_cases hi : e.1 = i
      · subst hi
        rw [read_of_lt d m e.1 he, read_of_lt d n e.1 hf]
      · have h1 := h i
        rwa [read, if_neg hi, read, if_neg hi] at h1

end Memory

/-! ### How a command ends -/

@[simp] theorem check_false (k : FaultKind) (r : Except FaultKind State) : check false k r = r := rfl

@[simp] theorem check_true (k : FaultKind) (r : Except FaultKind State) : check true k r = .error k := rfl

/-- A check that lets a command through held nothing against it. -/
theorem check_eq_ok {bad : Bool} {k : FaultKind} {r : Except FaultKind State} {t : State} :
    check bad k r = .ok t ↔ bad = false ∧ r = .ok t := by
  cases bad <;> simp [check]

/-- A check that stops a command is this one or a later one. -/
theorem check_eq_error {bad : Bool} {k j : FaultKind} {r : Except FaultKind State} :
    check bad k r = .error j ↔ (bad = true ∧ k = j) ∨ (bad = false ∧ r = .error j) := by
  cases bad <;> simp [check]

/-- The static check of a Symbol operand that lets a command through: the Symbol is below NSYM. -/
theorem checkSym_eq_ok {s : State} {a : Operand} {r : Except FaultKind State} {t : State} :
    checkSym s a r = .ok t ↔ a.toNat < s.params.nsym ∧ r = .ok t := by
  simp [checkSym, check_eq_ok, Params.symLegal]

/-- The static check of a Symbol operand that stops a command. -/
theorem checkSym_eq_error {s : State} {a : Operand} {r : Except FaultKind State} {j : FaultKind} :
    checkSym s a r = .error j ↔
      (s.params.nsym ≤ a.toNat ∧ FaultKind.illegalCommand = j) ∨ (a.toNat < s.params.nsym ∧ r = .error j) := by
  simp [checkSym, check_eq_error, Params.symLegal]

theorem command_of_fault {i : Instr} {s : State} {body : Except FaultKind State} (h : s.fault = true) :
    command i s body = .next s := by
  simp [command, h]

theorem command_of_ok {i : Instr} {s t : State} {body : Except FaultKind State} (h : s.fault = false)
    (hb : body = .ok t) : command i s body = .next t := by
  simp [command, h, hb]

theorem command_of_error {i : Instr} {s : State} {k : FaultKind} {body : Except FaultKind State}
    (h : s.fault = false) (hb : body = .error k) : command i s body = .next (s.takeFault k i.encode) := by
  simp [command, h, hb]

/-- Everything a command can do: nothing in the fault state, else its effect, or the entry of the fault that its
checks raise. -/
theorem command_cases {i : Instr} {s t : State} {body : Except FaultKind State} (h : command i s body = .next t) :
    (s.fault = true ∧ t = s) ∨ (s.fault = false ∧ body = .ok t) ∨
      (s.fault = false ∧ ∃ k, body = .error k ∧ t = s.takeFault k i.encode) := by
  unfold command at h
  cases hf : s.fault
  · cases body with
    | ok u => simp_all
    | error k => simp_all
  · simp_all

/-- A command always has a next state. -/
theorem command_next (i : Instr) (s : State) (body : Except FaultKind State) :
    ∃ t, command i s body = .next t := by
  unfold command
  split
  · exact ⟨_, rfl⟩
  · cases body <;> exact ⟨_, rfl⟩

end Sys2Proof.Machine
end

