-- ==== Sys2Proof/Laws/PerInstr.lean ====
section
/-! SUPPORT. Facts about every command as syntax, one lemma per constructor. -/

namespace Sys2Proof

namespace Laws.EncodedFields

/-- The encoding of a command has the command's opcode in its opcode field and its operand in its operand field
(30_encoding.md R81). -/
def Statement (i : Instr) : Prop :=
  opField i.encode = i.opcode ∧ operandField i.encode = i.operand

theorem nop : Statement .nop := ⟨opField_commandWord _ _, operandField_commandWord _ _⟩
theorem clrAll : Statement .clrAll := ⟨opField_commandWord _ _, operandField_commandWord _ _⟩
theorem histSym (sym : Operand) : Statement (.histSym sym) := ⟨opField_commandWord _ _, operandField_commandWord _ _⟩
theorem freqLd (sym : Operand) : Statement (.freqLd sym) := ⟨opField_commandWord _ _, operandField_commandWord _ _⟩
theorem freqRd (sym : Operand) : Statement (.freqRd sym) := ⟨opField_commandWord _ _, operandField_commandWord _ _⟩
theorem treeBuild : Statement .treeBuild := ⟨opField_commandWord _ _, operandField_commandWord _ _⟩
theorem nodeRd (idx : Operand) : Statement (.nodeRd idx) := ⟨opField_commandWord _ _, operandField_commandWord _ _⟩
theorem codeGen : Statement .codeGen := ⟨opField_commandWord _ _, operandField_commandWord _ _⟩
theorem codeRd (sym : Operand) : Statement (.codeRd sym) := ⟨opField_commandWord _ _, operandField_commandWord _ _⟩
theorem encSym (sym : Operand) : Statement (.encSym sym) := ⟨opField_commandWord _ _, operandField_commandWord _ _⟩
theorem decode : Statement .decode := ⟨opField_commandWord _ _, operandField_commandWord _ _⟩
theorem bitsRd (idx : Operand) : Statement (.bitsRd idx) := ⟨opField_commandWord _ _, operandField_commandWord _ _⟩
theorem symRd (idx : Operand) : Statement (.symRd idx) := ⟨opField_commandWord _ _, operandField_commandWord _ _⟩
theorem pack : Statement .pack := ⟨opField_commandWord _ _, operandField_commandWord _ _⟩
theorem unpack : Statement .unpack := ⟨opField_commandWord _ _, operandField_commandWord _ _⟩
theorem blobPush (byte : Byte) : Statement (.blobPush byte) := ⟨opField_commandWord _ _, operandField_commandWord _ _⟩
theorem blobRd (idx : Operand) : Statement (.blobRd idx) := ⟨opField_commandWord _ _, operandField_commandWord _ _⟩

end Laws.EncodedFields

end Sys2Proof
end

