-- ==== Sys2Proof/Laws/Session.lean ====
section
/-! SUPPORT. Serving host events: the state it ends in is that of the run, and serving composes. -/

namespace Sys2Proof.Machine

@[simp] theorem State.replies_zero (s : State) : State.replies 0 s = some ([], s) := rfl

theorem State.replies_succ {k : Nat} {s t : State} (h : step s = .next t) :
    State.replies (k + 1) s = (State.replies k t).map fun x => (t.readData.toList ++ x.1, x.2) := by
  simp [State.replies, h]

/-- A run of `k + 1` steps is a step and a run of `k`. -/
theorem core_run_succ (M : Host.Core) (k : Nat) (s : M.State) :
    M.run (k + 1) s =
      match M.step s with
      | .next t => M.run k t
      | .fault r => .fault r
      | .refused r => .refused r := by
  cases h : M.step s <;> simp [Host.Core.run, h]

/-- The run ends in `t` exactly when serving the same number of events does. -/
theorem State.run_eq_next_iff (k : Nat) (s t : State) :
    Sys2Proof.core.run k s = .next t ↔ ∃ words, State.replies k s = some (words, t) := by
  induction k generalizing s with
  | zero =>
    rw [State.replies]
    exact ⟨fun h => ⟨[], congrArg (fun u => some ([], u)) (Host.Outcome.next.inj h)⟩,
      fun ⟨_, h⟩ => congrArg Host.Outcome.next (congrArg Prod.snd (Option.some.inj h))⟩
  | succ k ih =>
    have run := core_run_succ Sys2Proof.core k s
    rw [State.replies]
    cases h : step s with
    | next u =>
      have hu : Sys2Proof.core.step s = .next u := h
      simp only [hu] at run
      rw [run, ih]
      simp
    | fault r => cases r
    | refused r =>
      have hu : Sys2Proof.core.step s = .refused r := h
      simp only [hu] at run
      rw [run]
      simp

/-- Serving a list of host events ends where running it does. -/
theorem State.runs_eq_next_iff (s t : State) (events : List HostEvent) :
    s.runs events = .next t ↔ ∃ words, s.serve events = some (words, t) :=
  State.run_eq_next_iff _ _ _

/-- First `j` steps, then `k` more: the words of the first, then those of the rest. -/
theorem State.replies_add (j k : Nat) (s : State) :
    State.replies (j + k) s =
      (State.replies j s).bind fun x => (State.replies k x.2).map fun y => (x.1 ++ y.1, y.2) := by
  induction j generalizing s with
  | zero => simp [State.replies]
  | succ j ih =>
    rw [Nat.succ_add, State.replies, State.replies]
    cases step s with
    | next u =>
      simp only [ih]
      cases State.replies j u with
      | none => rfl
      | some x =>
        simp only [Option.bind_some, Option.map_some]
        cases State.replies k x.2 <;> simp
    | fault r => rfl
    | refused r => rfl

/-! ### Char mode -/

/-- One Symbol per code point (40_frequency_histogram.md R101). -/
theorem charSymbols_length {p : Params} {text : List CodePoint} {tokens : List Operand}
    (h : charSymbols p text = some tokens) : tokens.length = text.length := by
  induction text generalizing tokens with
  | nil => simp_all [charSymbols]
  | cons c text ih =>
    rw [charSymbols] at h
    split at h
    · obtain ⟨t, ht, rfl⟩ := Option.map_eq_some_iff.1 h
      simp [ih ht]
    · cases h

/-- One code point per Symbol, its value, in order (40_frequency_histogram.md R101). -/
theorem symbolsText_eq_some {syms : List Nat} {text : List CodePoint} :
    symbolsText syms = some text ↔ syms = text.map fun c => c.val := by
  induction syms generalizing text with
  | nil => cases text <;> simp [symbolsText]
  | cons x syms ih =>
    rw [symbolsText]
    split
    · rename_i hx
      simp only [Option.map_eq_some_iff, ih]
      constructor
      · rintro ⟨t, rfl, rfl⟩; rfl
      · cases text with
        | nil => simp
        | cons c text =>
          intro h
          simp only [List.map_cons, List.cons.injEq] at h
          exact ⟨text, h.2, by simp [h.1]⟩
    · rename_i hx
      cases text with
      | nil => simp
      | cons c text => simp only [reduceCtorEq, List.map_cons, List.cons.injEq, false_iff]; omega

/-! ### Interleavings -/

/-- The second list alone. -/
theorem Interleaves.nil_left {α : Type} (ys : List α) : Interleaves [] ys ys := by
  induction ys with
  | nil => exact ⟨rfl, rfl⟩
  | cons y ys ih => exact .inr ⟨ys, rfl, ih⟩

/-- The first list, then the second. -/
theorem Interleaves.append {α : Type} (xs ys : List α) : Interleaves xs ys (xs ++ ys) := by
  induction xs with
  | nil => exact .nil_left ys
  | cons x xs ih => exact .inl ⟨xs, rfl, ih⟩

theorem Interleaves.symm {α : Type} {xs ys zs : List α} (h : Interleaves xs ys zs) : Interleaves ys xs zs := by
  induction zs generalizing xs ys with
  | nil => exact ⟨h.2, h.1⟩
  | cons z zs ih =>
    rcases h with ⟨xs', hx, h⟩ | ⟨ys', hy, h⟩
    · exact .inr ⟨xs', hx, ih h⟩
    · exact .inl ⟨ys', hy, ih h⟩

/-- The order R275 lists is one it allows. -/
theorem compressOrder_compressSequence (p : Params) (tokens : List Operand) (n : Nat) :
    compressOrder p tokens n (compressSequence p tokens n) := by
  refine ⟨[cmdEvent .clrAll], by simp [startEvents], _, Interleaves.append _ _, ?_⟩
  have single (l : List HostEvent) : (l.map fun e => [e]).flatten = l := by
    induction l <;> simp_all
  rw [List.flatten_append, List.flatten_append, single]
  simp [compressSequence, compressEvents]

/-- The order R276 lists is one it allows. -/
theorem decompressOrder_decompressSequence (table : Memory Nat) (blob : List Byte) (n : Nat) :
    decompressOrder table blob n (decompressSequence table blob n) := by
  refine ⟨[cmdEvent .clrAll], by simp [startEvents], _, Interleaves.append _ _, ?_⟩
  simp [decompressSequence, decompressEvents]

end Sys2Proof.Machine
end

