-- ==== Sys2Proof/Laws/Tree.lean ====
section
/-! SUPPORT. What the tree builder's and the decoder's operations do: ExtractMin takes the node that comes before every
other (41_tree_builder.md R121), the merging loop as one induction principle, the decoder's walk along a path. -/

namespace Sys2Proof.Machine

/-! ### The order of keys -/

theorem Key.before_iff (x y : Key) :
    x.before y = true ↔ x.weight < y.weight ∨ (x.weight = y.weight ∧ x.index < y.index) := by
  simp [Key.before]

theorem Key.before_trans {x y z : Key} (h : x.before y = true) (g : y.before z = true) : x.before z = true := by
  rw [Key.before_iff] at *; omega

/-- Two keys that do not come before each other are the same. -/
theorem Key.eq_of_not_before {x y : Key} (h : x.before y = false) (g : y.before x = false) : x = y := by
  have h' : ¬ x.before y = true := by simp [h]
  have g' : ¬ y.before x = true := by simp [g]
  rw [Key.before_iff] at h' g'
  cases x; cases y
  simp only [Key.mk.injEq] at *
  omega

/-! ### ExtractMin -/

/-- `leastKey` is one of the keys, and every other comes after it. -/
theorem leastKey_spec (x : Key) (q : List Key) :
    leastKey x q ∈ x :: q ∧ ∀ y ∈ x :: q, y = leastKey x q ∨ (leastKey x q).before y = true := by
  induction q generalizing x with
  | nil => simp [leastKey]
  | cons z q ih =>
    rw [leastKey]
    obtain ⟨hm, hl⟩ := ih (if z.before x then z else x)
    cases hz : z.before x <;> simp only [hz, if_true, Bool.false_eq_true, if_false] at hm hl ⊢
    · refine ⟨?_, fun y hy => ?_⟩
      · rcases List.mem_cons.1 hm with h | h <;> simp [h]
      · rcases List.mem_cons.1 hy with rfl | hy
        · exact hl y (by simp)
        · rcases List.mem_cons.1 hy with rfl | hy
          · rcases hl x (by simp) with h | h
            · rw [← h]
              cases hx : x.before y
              · exact .inl (Key.eq_of_not_before hz hx)
              · exact .inr rfl
            · cases hx : x.before y
              · rw [Key.eq_of_not_before hz hx]
                exact .inr h
              · exact .inr (Key.before_trans h hx)
          · exact hl y (by simp [hy])
    · refine ⟨?_, fun y hy => ?_⟩
      · rcases List.mem_cons.1 hm with h | h <;> simp [h]
      · rcases List.mem_cons.1 hy with rfl | hy
        · rcases hl z (by simp) with h | h
          · rw [← h]; exact .inr hz
          · exact .inr (Key.before_trans h hz)
        · exact hl y hy

theorem extractMin_eq_none {q : List Key} : extractMin q = none ↔ q = [] := by
  cases q <;> simp [extractMin]

/-- Everything ExtractMin does (R121): it takes one key off the collection, and every other key comes after it. -/
theorem extractMin_spec {q q' : List Key} {m : Key} (h : extractMin q = some (m, q')) :
    m ∈ q ∧ q' = q.erase m ∧ q'.length + 1 = q.length ∧ ∀ y ∈ q, y = m ∨ m.before y = true := by
  cases q with
  | nil => simp [extractMin] at h
  | cons x q =>
    simp only [extractMin, Option.some.injEq, Prod.mk.injEq] at h
    obtain ⟨rfl, rfl⟩ := h
    obtain ⟨hm, hl⟩ := leastKey_spec x q
    refine ⟨hm, rfl, ?_, hl⟩
    have := List.length_pos_of_mem hm
    rw [List.length_erase_of_mem hm]
    omega

/-! ### The merging loop -/

/-- The induction of the merging loop (R120), packaged once: what holds of the collection and the arena at its start and
is kept by one merge holds at its end, with at most one node left in the collection. -/
theorem mergeNodes_induction (P : List Key → List Node → Prop)
    (merge : ∀ q arena l q₁ r q₂, P q arena → extractMin q = some (l, q₁) → extractMin q₁ = some (r, q₂) →
      P (q₂ ++ [{ weight := l.weight + r.weight, index := arena.length }])
        (arena ++ [.internal (l.weight + r.weight) l.index r.index]))
    (n : Nat) (q : List Key) (arena : List Node) (start : P q arena) (enough : q.length ≤ n + 1) :
    ∃ q', q'.length ≤ 1 ∧ P q' (mergeNodes n q arena) := by
  induction n generalizing q arena with
  | zero => exact ⟨q, by omega, start⟩
  | succ n ih =>
    rw [mergeNodes]
    cases h₁ : extractMin q with
    | none => exact ⟨q, by simp [extractMin_eq_none.1 h₁], start⟩
    | some x =>
      obtain ⟨l, q₁⟩ := x
      have len₁ := (extractMin_spec h₁).2.2.1
      dsimp only
      cases h₂ : extractMin q₁ with
      | none =>
        refine ⟨q, ?_, start⟩
        rw [extractMin_eq_none.1 h₂] at len₁
        simp at len₁
        omega
      | some y =>
        obtain ⟨r, q₂⟩ := y
        have len₂ := (extractMin_spec h₂).2.2.1
        refine ih _ _ (merge q arena l q₁ r q₂ start h₁ h₂) ?_
        simp
        omega

/-! ### Paths and the decoder's walk -/

theorem follow_append (arena : List Node) (i : Nat) (p q : Bits) :
    follow arena i (p ++ q) = (follow arena i p).bind fun j => follow arena j q := by
  induction p generalizing i with
  | nil => rfl
  | cons b p ih =>
    simp only [List.cons_append, follow]
    split
    · exact ih _
    · rfl

/-- The walk along a path that ends on a Leaf emits the Leaf's Symbol and goes on from the root
(43_bitstream_codec.md R161). -/
theorem walkBits_leaf_path (arena : List Node) (root cur j sym w : Nat) (b : Bool) (path rest : Bits)
    (h : follow arena cur (b :: path) = some j) (hj : arena[j]? = some (.leaf sym w)) :
    walkBits arena root cur (b :: path ++ rest) = sym :: walkBits arena root root rest := by
  induction path generalizing cur b with
  | nil =>
    rw [follow] at h
    split at h
    · rename_i w' l r hc
      simp only [follow, Option.some.injEq] at h
      simp [walkBits, moveCursor, hc, h, hj]
    · cases h
  | cons b' path ih =>
    rw [follow] at h
    split at h
    · rename_i w' l r hc
      have hi : ∃ v x y, arena[if b then r else l]? = some (.internal v x y) := by
        rw [follow] at h
        split at h
        · exact ⟨_, _, _, by assumption⟩
        · cases h
      obtain ⟨v, x, y, hv⟩ := hi
      rw [List.cons_append, walkBits, moveCursor, hc]
      simp only [hv]
      exact ih _ _ h
    · cases h

/-- The walk along a path that ends on an Internal node emits nothing (R163). -/
theorem walkBits_internal_path (arena : List Node) (root cur j : Nat) (path : Bits)
    (h : follow arena cur path = some j) (hj : isInternalAt arena j) : walkBits arena root cur path = [] := by
  induction path generalizing cur with
  | nil => rfl
  | cons b path ih =>
    rw [follow] at h
    split at h
    · rename_i w' l r hc
      have hi : ∃ v x y, arena[if b then r else l]? = some (.internal v x y) := by
        cases path with
        | nil =>
          simp only [follow, Option.some.injEq] at h
          obtain ⟨v, x, y, hv⟩ := hj
          exact ⟨v, x, y, h ▸ hv⟩
        | cons b' path =>
          rw [follow] at h
          split at h
          · exact ⟨_, _, _, by assumption⟩
          · cases h
      obtain ⟨v, x, y, hv⟩ := hi
      rw [walkBits, moveCursor, hc]
      simp only [hv]
      exact ih _ h
    · cases h

/-- DECODE emits at most one Symbol per bit (10_state.md R29). -/
theorem walkBits_length_le (arena : List Node) (root cur : Nat) (bits : Bits) :
    (walkBits arena root cur bits).length ≤ bits.length := by
  induction bits generalizing cur with
  | nil => simp [walkBits]
  | cons b bits ih =>
    rw [walkBits]
    split
    · simpa using ih root
    · exact Nat.le_succ_of_le (ih _)

end Sys2Proof.Machine
end

