-- ==== Sys2Proof/Tests/Slice0.lean ====
section
/-! SUPPORT. Tests of the model against the spec's own vectors and programs (95_test_vectors.md, named V, T, P below),
the decoder's words written out from 30_encoding.md R81 to R83, the checks of WellFormed, and for every statement with
hypotheses a concrete state and operands that meet them. -/

namespace Sys2Proof.Tests

open Sys2Proof Sys2Proof.Machine

/-- The state a result ends in. -/
def after : Result → State
  | .next t => t
  | .fault _ => .reset
  | .refused _ => .reset

/-- The state after a run of host events from reset. -/
def run (events : List HostEvent) : State := after (State.reset.runs events)

/-- The four results registers. -/
def results (s : State) : Word × Word × Word × Word := (s.res0, s.res1, s.res2, s.res3)

/-- The fault state a test expects: STATUS, ERR and ERRINFO. -/
def faultView (s : State) : Word × BitVec 4 × Word := (s.statusWord, s.err, s.errInfo)

/-! ### WellFormed refuses an ill-formed term at each of its checks -/

theorem test_wf_histSym : (Instr.histSym 256).wellFormed .defaults = false := by decide
theorem test_wf_freqLd : (Instr.freqLd 256).wellFormed .defaults = false := by decide
theorem test_wf_freqRd : (Instr.freqRd 0xFFFFFF).wellFormed .defaults = false := by decide
theorem test_wf_codeRd : (Instr.codeRd 256).wellFormed .defaults = false := by decide
theorem test_wf_encSym : (Instr.encSym 256).wellFormed .defaults = false := by decide
theorem test_wf_encSym_last : (Instr.encSym 255).wellFormed .defaults = true := by decide
theorem test_wf_other_width :
    (Instr.encSym 256).wellFormed { symW := 9, cntW := 32, blobCap := 65536 } = true := by decide

/-! ### Every constructor's word, written out from 30_encoding.md R81 and R83: op in bits 31:24, a in bits 23:0 -/

theorem test_decode_nop : decode .defaults 0b00000000000000000000000000000000#32 = .ok .nop := by decide
theorem test_decode_clrAll : decode .defaults 0b00000001000000000000000000000000#32 = .ok .clrAll := by decide
theorem test_decode_histSym :
    decode .defaults 0b00010000000000000000000001100001#32 = .ok (.histSym 0x61) := by decide
theorem test_decode_freqLd :
    decode .defaults 0b00010001000000000000000001100001#32 = .ok (.freqLd 0x61) := by decide
theorem test_decode_freqRd :
    decode .defaults 0b00010010000000000000000001100010#32 = .ok (.freqRd 0x62) := by decide
theorem test_decode_treeBuild : decode .defaults 0b00100000000000000000000000000000#32 = .ok .treeBuild := by decide
theorem test_decode_nodeRd :
    decode .defaults 0b00100001111111111111111111111111#32 = .ok (.nodeRd 0xFFFFFF) := by decide
theorem test_decode_codeGen : decode .defaults 0b00110000000000000000000000000000#32 = .ok .codeGen := by decide
theorem test_decode_codeRd :
    decode .defaults 0b00110001000000000000000001100011#32 = .ok (.codeRd 0x63) := by decide
theorem test_decode_encSym :
    decode .defaults 0b01000000000000000000000001100010#32 = .ok (.encSym 0x62) := by decide
theorem test_decode_decode : decode .defaults 0b01000001000000000000000000000000#32 = .ok .decode := by decide
theorem test_decode_bitsRd :
    decode .defaults 0b01000010000000000000000000000001#32 = .ok (.bitsRd 1) := by decide
theorem test_decode_symRd :
    decode .defaults 0b01000011000000000000000000100011#32 = .ok (.symRd 35) := by decide
theorem test_decode_pack : decode .defaults 0b01010000000000000000000000000000#32 = .ok .pack := by decide
theorem test_decode_unpack : decode .defaults 0b01010001000000000000000000000000#32 = .ok .unpack := by decide
theorem test_decode_blobPush :
    decode .defaults 0b01010010000000000000000010010000#32 = .ok (.blobPush 0x90) := by decide
theorem test_decode_blobRd :
    decode .defaults 0b01010011000000000000000000000001#32 = .ok (.blobRd 1) := by decide

/-- The illegal words of T15 (V130 to V137), each rejected by its name. -/
theorem test_decode_rejects :
    [0x02000000#32, 0xFF000000#32, 0x13000000#32, 0x20000001#32, 0x41000001#32, 0x40000100#32, 0x31000100#32,
      0x5200FFFF#32].map (decode .defaults) =
    [.error .undefinedOpcode, .error .undefinedOpcode, .error .undefinedOpcode, .error .operandNotZero,
      .error .operandNotZero, .error .symbolOutOfRange, .error .symbolOutOfRange, .error .byteOutOfRange] := by decide

theorem test_decodeTableWord : decodeTableWord 32 0x12000061 = some (.freqRd 0x61) := by decide

/-! ### The port, control and faults (T1, T2, T15, T16) -/

/-- V1, V2, V3: every register reads 0 after reset, and so do CMD and unmapped offsets. -/
theorem test_port_reset_reads :
    (List.range 17 ++ [0xFFC / 4]).map State.reset.portRead = List.replicate 18 0#32 := by decide

/-- V4: a write to ARG. -/
theorem test_port_arg : run [.regWrite 1 0xDEADBEEF#32] = { State.reset with arg := 0xDEADBEEF#32 } := by decide

/-- V5: writes to read-only and unmapped offsets are ignored. -/
theorem test_port_ignored :
    run [.regWrite 2 0xFFFFFFFF#32, .regWrite 3 5#32, .regWrite 13 9#32, .regWrite 16 1#32] = State.reset := by decide

/-- A read returns the word and leaves the block alone (20_memory.md R65). -/
theorem test_port_read :
    run [argEvent 7, .regRead 1] = { State.reset with arg := 7, readData := some 7 } := by decide

/-- V11: NOP with a non-zero operand. -/
theorem test_nop_operand : faultView (run [.regWrite 0 1#32]) = (1, 4, 0x00000001#32) := by decide

/-- V13: CLR_ALL with a non-zero operand while FAULT = 0. -/
theorem test_clrAll_operand : faultView (run [.regWrite 0 0x01000005#32]) = (1, 4, 0x01000005#32) := by decide

/-- V14, V16, V141: in the fault state nothing but the exact CLR_ALL word acts. -/
theorem test_fault_state_ignores :
    faultView (run [.regWrite 0 0x02000000#32, .regWrite 0 0x01000005#32, cmdEvent (.histSym 0x61),
      .regWrite 0 0xFF000000#32]) = (1, 4, 0x02000000#32) := by decide

/-- V15: CLR_ALL leaves the fault state, and clears ARG. -/
theorem test_clrAll_clears_fault :
    run [.regWrite 0 0x02000000#32, argEvent 7, cmdEvent .clrAll] = State.reset := by decide

/-- The reset input (70_reset_and_hazards.md R270): an operation while it is asserted is not accepted, and its release
gives ResetState. -/
theorem test_reset_input :
    run [cmdEvent (.histSym 0x61), .resetPin true, argEvent 7, .resetPin false, .regRead 9] =
      { State.reset with readData := some 0 } := by decide

/-- Right after reset, the word withFetchWord places is the next command. -/
theorem test_withFetchWord :
    step (State.reset.withFetchWord 32 0x52000090) = exec (.blobPush 0x90) State.reset := rfl

/-! ### frequency_histogram (T3) -/

/-- V20a, V20b. -/
theorem test_histSym_counts :
    let s := run [cmdEvent (.histSym 0x61), cmdEvent (.histSym 0x61), cmdEvent (.histSym 0x61)]
    s.freq = [(0x61, 3)] ∧ s.tokCnt = 3 ∧ results (after (exec (.freqRd 0x61) s)) = (3, 0, 0, 0) := by decide

/-- V27: the largest count, then CountOverflow. -/
theorem test_histSym_overflow :
    let s := run [argEvent 0xFFFFFFFF#32, cmdEvent (.freqLd 0x61)]
    s.tokCnt = 0xFFFFFFFF ∧ faultView (after (exec (.histSym 0x61) s)) = (1, 7, 0x10000061#32) := by decide

/-- V28: a token count wider than 32 bits. -/
theorem test_freqLd_wide_total :
    let s := run [argEvent 0xFFFFFFFF#32, cmdEvent (.freqLd 0x61), cmdEvent (.freqLd 0x62)]
    s.portRead 9 = 0xFFFFFFFE#32 ∧ s.portRead 10 = 1#32 := by decide

/-- V24, V25: a zero count and a Symbol loaded twice. -/
theorem test_freqLd_malformed :
    faultView (run [cmdEvent (.freqLd 0x61)]) = (1, 3, 0x11000061#32) ∧
    faultView (run [argEvent 5, cmdEvent (.freqLd 0x61), cmdEvent (.freqLd 0x61)]) = (1, 3, 0x11000061#32) := by decide

/-- V20b: a Symbol that is not in the table reads 0. -/
theorem test_freqRd_absent : results (run [cmdEvent (.histSym 0x61), cmdEvent (.freqRd 0x62)]) = (0, 0, 0, 0) := by
  decide

/-! ### The worked example of 41_tree_builder.md R129 (V34, V50e), with FREQ given -/

/-- FREQ of V34. -/
def counted : State :=
  { State.reset with freq := [(0x61, 16), (0x62, 8), (0x63, 6), (0x64, 6)], tokCnt := 36 }

/-- The arena of V34 and the code table of V50e, as the spec lists them, with the bits `10010` and a last bit `1` that
reaches no Leaf. -/
def worked : State :=
  { counted with
    node := [.leaf 0x61 16, .leaf 0x62 8, .leaf 0x63 6, .leaf 0x64 6, .internal 12 2 3, .internal 20 1 4,
      .internal 36 0 5]
    nLeaf := 4
    treeValid := true
    codeValid := true
    code := [(0x61, [false]), (0x62, [true, false]), (0x63, [true, true, false]), (0x64, [true, true, true])]
    bits := [true, false, false, true, false, true]
    blob := [0x03, 0x90]
    symBuf := [0x62, 0x61, 0x62] }

/-- V34. -/
theorem test_treeBuild_worked :
    let s := after (exec .treeBuild counted)
    s.node = worked.node ∧ s.nLeaf = 4 ∧ s.nNodes = 7 ∧ s.statusWord = 2#32 := by decide

/-- V39: an Internal node as a left child, a lower index as a right child. -/
theorem test_treeBuild_mississippi :
    (after (exec .treeBuild { State.reset with freq := [(0x69, 4), (0x6D, 1), (0x70, 2), (0x73, 4)] })).node =
      [.leaf 0x69 4, .leaf 0x6D 1, .leaf 0x70 2, .leaf 0x73 4, .internal 3 1 2, .internal 7 4 0,
        .internal 11 3 5] := by decide

/-- V42, V43. -/
theorem test_nodeRd :
    results (after (exec (.nodeRd 3) worked)) = (6, 0, 0x64, 0) ∧
    results (after (exec (.nodeRd 4) worked)) = (12, 0, 0x80000002#32, 3) := by decide

/-- V45, V142. -/
theorem test_nodeRd_faults :
    faultView (after (exec (.nodeRd 7) worked)) = (1, 4, 0x21000007#32) ∧
    faultView (after (exec (.nodeRd 0xFFFFFF) counted)) = (1, 5, 0x21FFFFFF#32) := by decide

/-- V50e. -/
theorem test_codeGen_worked : (after (exec .codeGen (after (exec .treeBuild counted)))).code = worked.code := by decide

/-- V50i: the code table of "abracadabra". -/
theorem test_codeGen_abracadabra :
    (after (exec .codeGen (after (exec .treeBuild
      { State.reset with freq := [(0x61, 5), (0x62, 2), (0x63, 1), (0x64, 1), (0x72, 2)] })))).code =
    [(0x61, [false]), (0x62, [true, true, false]), (0x63, [true, false, false]), (0x64, [true, false, true]),
      (0x72, [true, true, true])] := by decide

/-- V51d, V51f: a code in the top bits of word 0, and nothing in word 1. -/
theorem test_codeRd :
    results (after (exec (.codeRd 0x64) worked)) = (3, 0xE0000000#32, 0, 0) ∧
    results (after (exec (.codeRd 0x63) { worked with arg := 1 })) = (3, 0, 0, 0) := by decide

/-- V51g, V140: the ARG range is checked after the validity flag. -/
theorem test_codeRd_faults :
    faultView (after (exec (.codeRd 0x61) { worked with arg := 8 })) = (1, 4, 0x31000061#32) ∧
    faultView (after (exec (.codeRd 0x61) { counted with arg := 8 })) = (1, 5, 0x31000061#32) := by decide

/-! ### The bitstream codec (T9 to T11) -/

/-- V60's last step and V65. -/
theorem test_encSym :
    (after (exec (.encSym 0x62) { worked with bits := [true, false, false] })).bits = [true, false, false, true, false] ∧
    (after (exec (.encSym 0x64) { worked with bits := [true, false, false, true, false] })).bits =
      [true, false, false, true, false, true, true, true] := by decide

/-- V62, V66 (at BLOB_CAP = 1, where BIT_CAP = 0). -/
theorem test_encSym_faults :
    faultView (after (exec (.encSym 0x7A) worked)) = (1, 1, 0x4000007A#32) ∧
    faultView (after (exec (.encSym 0x61) { worked with params := { symW := 8, cntW := 32, blobCap := 1 } })) =
      (1, 6, 0x40000061#32) := by decide

/-- V70c, V70d: DECODE of `10110110`, and of `1101101`, whose last bit reaches no Leaf. -/
theorem test_decode_walk :
    (after (exec .decode { worked with bits := [true, false, true, true, false, true, true, false] })).symBuf =
      [0x62, 0x63, 0x63] ∧
    (after (exec .decode { worked with bits := [true, true, false, true, true, false, true] })).symBuf =
      [0x63, 0x63] := by decide

/-- V70g, V70i: a single-leaf tree emits on 1 bits too; bits and an empty tree are a malformed table. -/
theorem test_decode_degenerate :
    (after (exec .decode { State.reset with node := [.leaf 0x61 4], nLeaf := 1, treeValid := true, bits := [true, false, true, false] })).symBuf =
      [0x61, 0x61, 0x61, 0x61] ∧
    faultView (after (exec .decode { State.reset with treeValid := true, bits := [true] })) =
      (1, 3, 0x41000000#32) := by decide

/-- V75a, V75b. -/
theorem test_bitsRd :
    let s := { worked with bits := [true, false, false, true, false] }
    results (after (exec (.bitsRd 0) s)) = (0x90000000#32, 0, 0, 0) ∧
    faultView (after (exec (.bitsRd 1) s)) = (1, 4, 0x42000001#32) := by decide

/-- V75c: word 1 of 33 bits holds the last bit in bit 31. -/
theorem test_bitsRd_second_word :
    results (after (exec (.bitsRd 1) { worked with bits := List.replicate 32 false ++ [true] })) =
      (0x80000000#32, 0, 0, 0) := by decide

/-- V76a, V76b. -/
theorem test_symRd :
    results (after (exec (.symRd 1) worked)) = (0x61, 0, 0, 0) ∧
    faultView (after (exec (.symRd 3) worked)) = (1, 4, 0x43000003#32) := by decide

/-! ### The byte packer (T12 to T14) -/

/-- V83, V86: five bits, and the byte-aligned case. -/
theorem test_pack :
    (after (exec .pack { worked with bits := [true, false, false, true, false] })).blob = [0x03, 0x90] ∧
    (after (exec .pack { worked with bits := List.replicate 8 false })).blob = [0x00, 0x00] := by decide

/-- V88: one bit into the second byte. -/
theorem test_pack_two_bytes :
    (after (exec .pack { worked with bits := [true, false, true, true, false, false, true, false, true] })).blob =
      [0x07, 0xB2, 0x80] := by decide

/-- V102, V110: padding bits that are not zero, and a count of 7 with two data bytes. -/
theorem test_unpack :
    (after (exec .unpack { worked with blob := [0x03, 0x97] })).bits = [true, false, false, true, false] ∧
    (after (exec .unpack { worked with blob := [0x07, 0x00, 0x00] })).bits = List.replicate 9 false := by decide

/-- V106, V108, V109. -/
theorem test_unpack_faults :
    [[0x08, 0x00], [0x01], []].map (fun z => faultView (after (exec .unpack { worked with blob := z }))) =
      List.replicate 3 (1, 2, 0x51000000#32) := by decide

/-- V125: appends to a packed blob; V122 at BLOB_CAP = 2. -/
theorem test_blobPush :
    (after (exec (.blobPush 0xFF) worked)).blob = [0x03, 0x90, 0xFF] ∧
    faultView (after (exec (.blobPush 0) { worked with params := { symW := 8, cntW := 32, blobCap := 2 } })) =
      (1, 6, 0x52000000#32) := by decide

/-- V123, V124. -/
theorem test_blobRd :
    results (after (exec (.blobRd 1) worked)) = (0x90, 0, 0, 0) ∧
    faultView (after (exec (.blobRd 2) worked)) = (1, 4, 0x53000002#32) := by decide

/-- The pseudo-instructions of 30_encoding.md R88 expand to their events; a code point of NSYM or above is refused. -/
theorem test_asm :
    AsmLine.events .defaults (.freqLdi 0x61 16) = some [.regWrite 1 16, .regWrite 0 0x11000061#32] ∧
    AsmLine.events .defaults (.histStr [0x61, 0x62]) = some [.regWrite 0 0x10000061#32, .regWrite 0 0x10000062#32] ∧
    AsmLine.events .defaults (.encStr [0x61, 0x100]) = none := by decide

/-! ### Witnesses: states and operands that meet the hypotheses of the statements -/

/-- A fault state: after UnknownSymbol (program P5), with ARG written since. -/
def faulted : State := { State.reset with fault := true, err := 1, errInfo := 0x4000007A#32, arg := 7 }

/-- The worked example meets the invariant. -/
theorem worked_inv : worked.Inv where
  params_legal := by decide
  freq_wf := by decide
  freq_range := by decide
  tokCnt_sum := by decide
  tree_valid := by decide
  tree_invalid := by decide
  code_valid := by decide
  code_invalid := by decide
  bits_cap := by decide
  blob_cap := by decide
  sym_cap := by decide
  sym_range := by decide
  no_fault := by decide
  in_fault := by intro h; cases h

/-- The fault state meets the invariant. -/
theorem faulted_inv : faulted.Inv where
  params_legal := by decide
  freq_wf := by decide
  freq_range := by decide
  tokCnt_sum := by decide
  tree_valid := by decide
  tree_invalid := by decide
  code_valid := by decide
  code_invalid := by decide
  bits_cap := by decide
  blob_cap := by decide
  sym_cap := by decide
  sym_range := by decide
  no_fault := by decide
  in_fault := fun _ => ⟨⟨.unknownSymbol, rfl⟩, rfl⟩

theorem witness_DecodeOfEncode :
    (Instr.histSym 255).wellFormed .defaults = true ∧ (Instr.blobPush 255).wellFormed .defaults = true ∧
    (Instr.nodeRd 0xFFFFFF).wellFormed .defaults = true := by decide

theorem witness_EncodeOfDecode : decode .defaults 0x520000FF#32 = .ok (.blobPush 255) := by decide

theorem witness_IllegalWords_opcode : illegalWord .defaults 0x02000000#32 := by decide

theorem witness_IllegalWords_none : illegalWord .defaults 0x00000001#32 := by decide

theorem witness_IllegalWords_sym : illegalWord .defaults 0x10000100#32 := by decide

theorem witness_IllegalWords_byte : illegalWord .defaults 0x52000100#32 := by decide

theorem witness_IllegalWords_legal_sym : ¬ illegalWord .defaults 0x100000FF#32 := by decide

theorem witness_IllegalWords_legal_byte : ¬ illegalWord .defaults 0x520000FF#32 := by decide

theorem witness_IllegalWords_legal_idx : ¬ illegalWord .defaults 0x21FFFFFF#32 := by decide

theorem witness_IllegalWordsRaiseIllegalCommand :
    (State.reset.withCommand 0x02000000#32).pending = [.regWrite 0 0x02000000#32] ∧
    (State.reset.withCommand 0x02000000#32).resetPin = false ∧
    (State.reset.withCommand 0x02000000#32).fault = false := by decide

theorem witness_StepRunsTheWrittenCommand :
    let s := worked.withCommand 0x31000063#32
    s.pending = [.regWrite 0 0x31000063#32] ∧ s.resetPin = false ∧ s.fault = false ∧
    decode s.params 0x31000063#32 = .ok (.codeRd 0x63) ∧
    decode worked.params (BitVec.ofNat 32 (0x31000063 % 2 ^ 32)) = .ok (.codeRd 0x63) := by decide

theorem witness_PortOperationsAreTotal :
    let s := { faulted with pending := [.regWrite 1 3, .regWrite 2 4, .regRead 15] }
    s.pending = .regWrite 1 3 :: s.pending.tail ∧ s.resetPin = false ∧
    ({ s with pending := [.regWrite 16 4] } : State).pending = [.regWrite 16 4] ∧
    ({ s with pending := [.regRead 15] } : State).pending = [.regRead 15] ∧ Reg.symLen.index = 15 := by decide

theorem witness_LengthRegistersReadTheFields : worked.Inv ∧ worked.nNodes = 7 := ⟨worked_inv, rfl⟩

theorem witness_FaultStateIgnoresCommands :
    let s := faulted.withCommand 0x01000005#32
    s.pending = [.regWrite 0 0x01000005#32] ∧ s.resetPin = false ∧ s.fault = true ∧
    (0x01000005#32 : Word) ≠ 0x01000000#32 ∧ Instr.nop ≠ .clrAll ∧
    ({ faulted with pending := [.regWrite 1 9] } : State).pending = [.regWrite 1 9] ∧
    ({ faulted with pending := [.regRead 3] } : State).pending = [.regRead 3] := by decide

theorem witness_FaultStateIgnoresCommands_inv : faulted.Inv ∧ faulted.fault = true := ⟨faulted_inv, rfl⟩

theorem witness_ClearAllGivesResetState :
    (faulted.withCommand 0x01000000#32).pending = [.regWrite 0 0x01000000#32] ∧
    (faulted.withCommand 0x01000000#32).resetPin = false ∧
    (worked.withCommand 0x01000001#32).pending = [.regWrite 0 (commandWord 0x01 1)] ∧
    (1 : Operand) ≠ 0 ∧ worked.fault = false ∧ faulted.fault = true ∧
    State.reset.toBlock = Block.reset := by decide

theorem witness_ResetInputGivesResetState :
    let s := { worked with resetPin := true, pending := [.regWrite 1 9] }
    s.pending = [.regWrite 1 9] ∧ s.resetPin = true ∧
    ({ worked with pending := [.resetPin true] } : State).pending = [.resetPin true] ∧
    ({ s with pending := [.resetPin false] } : State).pending = [.resetPin false] := by decide

theorem witness_ResetInputGivesResetState_event : ∀ b, HostEvent.regWrite 1 9 ≠ .resetPin b := by decide

theorem witness_FaultEntryLeavesOnlyTheFault :
    let s := worked.withCommand 0x4000007A#32
    s.pending = [.regWrite 0 0x4000007A#32] ∧ s.resetPin = false ∧ s.fault = false ∧
    (after (step s)).fault = true := by decide

theorem witness_FaultStateIsLeftOnlyByClearing :
    (after (step (faulted.withCommand 0x01000000#32))).fault = false ∧
    (after (step (faulted.withCommand 0x00000000#32))).fault = true ∧
    (after (step { faulted with resetPin := true, pending := [.resetPin false] })).fault = false := by decide

theorem witness_NopChangesNothing : worked.fault = false ∧ (0xFFFFFF : Operand) ≠ 0 := by decide

theorem witness_HistSymCountsOneToken :
    faulted.fault = true ∧ worked.fault = false ∧ worked.params.nsym ≤ (256 : Operand).toNat ∧
    (255 : Operand).toNat < worked.params.nsym ∧
    ({ worked with freq := [(255, 0xFFFFFFFF)] } : State).count (255 : Operand).toNat =
      2 ^ worked.params.cntW - 1 ∧
    ({ worked with freq := [(255, 0xFFFFFFFE)] } : State).count (255 : Operand).toNat ≠
      2 ^ worked.params.cntW - 1 := by decide

theorem witness_FreqLdLoadsOneEntry :
    worked.arg = 0 ∧ ({ worked with arg := 1 } : State).arg ≠ 0 ∧
    (2 ^ 4 ≤ ({ worked with params := { symW := 8, cntW := 4, blobCap := 9 }, arg := 16 } : State).arg.toNat) ∧
    ({ worked with arg := 0xFFFFFFFF#32 } : State).arg.toNat < 2 ^ worked.params.cntW ∧
    worked.count (0x61 : Operand).toNat ≠ 0 ∧ worked.count (0xFF : Operand).toNat = 0 := by decide

theorem witness_FreqRdReadsTheCount :
    worked.fault = false ∧ (0xFF : Operand).toNat < worked.params.nsym ∧
    worked.count (0x61 : Operand).toNat < 2 ^ 32 := by decide

theorem witness_TreeBuildSeedsTheLeaves : counted.fault = false ∧ (1 : Operand) ≠ 0 := by decide

theorem witness_TreeBuildMergesTheTwoLeast :
    let t := after (exec .treeBuild counted)
    counted.fault = false ∧ t.nLeaf ≤ 4 ∧ t.nLeaf ≤ 6 ∧ 6 < t.nNodes := by decide

theorem witness_NodeRdReadsANode :
    counted.treeValid = false ∧ worked.treeValid = true ∧ worked.nNodes ≤ (7 : Operand).toNat ∧
    (6 : Operand).toNat < worked.nNodes ∧ worked.node[(0 : Operand).toNat]? = some (.leaf 0x61 16) := by decide

theorem witness_CodeGenWritesTheCodeTable :
    counted.treeValid = false ∧ worked.treeValid = true ∧ worked.fault = false := by decide

theorem witness_CodeRdReadsACodeWord :
    counted.codeValid = false ∧ worked.codeValid = true ∧
    max 1 ((2 ^ worked.params.symW - 1 + 31) / 32) ≤ ({ worked with arg := 8 } : State).arg.toNat ∧
    ({ worked with arg := 7 } : State).arg.toNat < max 1 ((2 ^ worked.params.symW - 1 + 31) / 32) := by decide

theorem witness_EncSymAppendsTheCode :
    worked.codeOf (0x7A : Operand).toNat = [] ∧ worked.codeOf (0x61 : Operand).toNat ≠ [] ∧
    8 * (2 - 1) < ({ worked with params := { symW := 8, cntW := 32, blobCap := 2 } } : State).bitLen +
      (worked.codeOf (0x63 : Operand).toNat).length ∧
    worked.bitLen + (worked.codeOf (0x62 : Operand).toNat).length ≤ 8 * (2 - 1) := by decide

theorem witness_DecodeReplacesTheSymbolBuffer :
    counted.treeValid = false ∧
    (let s := { State.reset with treeValid := true, bits := [true] }
     s.treeValid = true ∧ s.nNodes = 0 ∧ s.bitLen ≠ 0) ∧
    (worked.treeValid = true ∧ worked.nNodes ≠ 0) ∧
    (let s := { State.reset with treeValid := true }
     s.treeValid = true ∧ s.bitLen = 0) := by decide

theorem witness_DecodeEmitsTheLeavesReached :
    worked.Inv ∧ worked.fault = false ∧ worked.treeValid = true ∧ 2 ≤ worked.nLeaf :=
  ⟨worked_inv, rfl, rfl, by decide⟩

theorem witness_BitsRdReadsABitWord :
    worked.bitLen ≤ 32 * (1 : Operand).toNat ∧ 32 * (0 : Operand).toNat < worked.bitLen ∧
    32 * (1 : Operand).toNat < ({ worked with bits := List.replicate 33 true } : State).bitLen := by decide

theorem witness_SymRdReadsASymbol :
    worked.symLen ≤ (3 : Operand).toNat ∧ (2 : Operand).toNat < worked.symLen := by decide

theorem witness_PackWritesTheBlob :
    worked.fault = false ∧ worked.bitLen ≤ worked.params.bitCap ∧ 1 ≤ worked.params.blobCap ∧
    ({ worked with bits := [] } : State).bitLen % 8 = 0 := by decide

theorem witness_UnpackWritesTheBitstring :
    counted.blobLen = 0 ∧
    (({ worked with blob := [8, 0] } : State).blob[0]? = some (8 : Byte) ∧ 7 < (8 : Byte).toNat) ∧
    (({ worked with blob := [1] } : State).blob[0]? = some (1 : Byte) ∧ 8 * (1 - 1) < (1 : Byte).toNat) ∧
    (({ worked with blob := [7, 0] } : State).blob[0]? = some (7 : Byte) ∧ (7 : Byte).toNat ≤ 7 ∧
      (7 : Byte).toNat ≤ 8 * (({ worked with blob := [7, 0] } : State).blobLen - 1)) ∧
    (({ worked with blob := [0] } : State).blob[0]? = some (0 : Byte) ∧ (0 : Byte).toNat ≤ 8 * (1 - 1)) := by decide

theorem witness_BlobPushAppendsAByte :
    256 ≤ (256 : Operand).toNat ∧
    (let s := { worked with params := { symW := 8, cntW := 32, blobCap := 2 } }
     s.blobLen = s.params.blobCap) ∧
    (let s := { worked with params := { symW := 8, cntW := 32, blobCap := 3 } }
     s.blobLen ≠ s.params.blobCap) := by decide

theorem witness_BlobRdReadsAByte :
    worked.blobLen ≤ (2 : Operand).toNat ∧ (1 : Operand).toNat < worked.blobLen := by decide

theorem witness_ValidTreeIsAStrictBinaryTree :
    worked.Inv ∧ worked.fault = false ∧ worked.treeValid = true ∧ 1 ≤ worked.nLeaf :=
  ⟨worked_inv, rfl, rfl, by decide⟩

theorem witness_ValidTree_inner :
    worked.node[0]? = some (.leaf 0x61 16) ∧ worked.node[3]? = some (.leaf 0x64 6) ∧ 0 < 3 ∧ 3 < worked.nLeaf ∧
    follow worked.node (worked.nNodes - 1) [true, true, true] = some 3 := by decide

theorem witness_TreeIsAFunctionOfTheTable :
    counted.params.symW = ({ worked with arg := 9 } : State).params.symW ∧
    (∀ x, x < counted.params.nsym → counted.count x = ({ worked with arg := 9 } : State).count x) ∧
    counted.fault = false ∧ worked.fault = false := by decide +kernel

theorem witness_OneSymbolTable :
    let s := { State.reset with freq := [(255, 4)], bits := [true, false] }
    s.fault = false ∧ 255 < s.params.nsym ∧ s.count 255 ≠ 0 ∧
    ∀ u, u < s.params.nsym → u ≠ 255 → s.count u = 0 := by decide +kernel

theorem witness_EmptyTable :
    State.reset.fault = false ∧ (∀ u, u < State.reset.params.nsym → State.reset.count u = 0) ∧
    (255 : Operand).toNat < State.reset.params.nsym ∧ State.reset.bits = [] ∧
    ({ State.reset with bits := [true] } : State).bits ≠ [] := by decide +kernel

theorem witness_CodesAreLeafPaths :
    worked.Inv ∧ worked.fault = false ∧ worked.codeValid = true ∧ 2 ≤ worked.nLeaf :=
  ⟨worked_inv, rfl, rfl, by decide⟩

theorem witness_CodesArePrefixFree :
    worked.Inv ∧ worked.fault = false ∧ worked.codeValid = true ∧ worked.codeOf 0x61 ≠ [] ∧ worked.codeOf 0x64 ≠ [] :=
  ⟨worked_inv, rfl, rfl, by decide, by decide⟩

theorem witness_MoreFrequentIsNotLonger :
    worked.Inv ∧ worked.fault = false ∧ worked.codeValid = true ∧ worked.count 0x62 < worked.count 0x61 ∧
    1 ≤ worked.count 0x62 :=
  ⟨worked_inv, rfl, rfl, by decide, by decide⟩

theorem witness_PackAndUnpackAreInverse :
    worked.fault = false ∧ worked.blob = (3 : Byte) :: [0x90] ∧ (3 : Byte).toNat ≤ 7 ∧ (3 : Byte).toNat ≤ 8 * 1 ∧
    ∀ x, x < 8 * 1 → 8 * 1 - (3 : Byte).toNat ≤ x →
      (([0x90] : List Byte).getD (x / 8) 0).getLsbD (7 - x % 8) = false := by decide

/-- The tokens of the witnesses below are Symbols of an instance with 8-bit Symbols. -/
theorem tokens_are_symbols :
    ∀ x ∈ ([0x61, 0x62, 0x61, 0xFF] : List Operand), x.toNat < (2 : Nat) ^ 8 := by simp

/-- The compress sequence over `a b a` from a used block does not fault; its table read back in the other order is a
permutation. -/
theorem witness_CompressThenDecompressIsIdentity :
    let tokens : List Operand := [0x61, 0x62, 0x61]
    worked.params.Legal ∧ worked.resetPin = false ∧ worked.params.nsym = 2 ^ 8 ∧
    (after (worked.runs (compressEvents tokens))).fault = false ∧
    faulted.params = worked.params ∧ faulted.resetPin = false ∧
    ([(0x62, 1), (0x61, 2)] : Memory Nat).Perm (after (worked.runs (compressEvents tokens))).freq := by decide +kernel

theorem witness_CompressFaultsOnlyOnSize :
    let s := { worked with params := { symW := 8, cntW := 1, blobCap := 2 } }
    s.params.Legal ∧ s.resetPin = false ∧ s.params.nsym = 2 ^ 8 ∧
    (after (s.runs (compressEvents [0xFF, 0xFF]))).err = 7 := by decide +kernel

theorem witness_CompressedSize :
    (after (worked.runs (compressEvents [0x61, 0x62, 0x61]))).fault = false ∧
    (after (worked.runs (compressEvents [0x61, 0x62, 0x61]))).bitLen = 3 := by decide

theorem witness_DegenerateAlphabet :
    worked.params.Legal ∧ worked.resetPin = false ∧ (255 : Operand).toNat < worked.params.nsym ∧ 1 ≤ 4 ∧
    4 < 2 ^ worked.params.cntW ∧ 4 ≤ worked.params.bitCap := by decide

theorem witness_EmptyInputBothWays : faulted.resetPin = false ∧ 1 ≤ faulted.params.blobCap := by decide

theorem witness_CountingPassCountsOccurrences :
    State.reset.toBlock = Block.reset ∧ State.reset.resetPin = false ∧ State.reset.params.nsym = 2 ^ 8 := by decide

theorem witness_CountingPass_occurrences :
    ∀ x : Operand, ([0x61, 0xFF, 0x61] : List Operand).count x < 2 ^ State.reset.params.cntW := by
  intro x
  exact Nat.lt_of_le_of_lt List.count_le_length (by decide)

theorem witness_NoPartialOutputAfterAFault :
    worked.fault = false ∧ (after (exec (.encSym 0x7A) worked)).fault = true ∧
    ∀ e ∈ [cmdEvent .pack, .regRead 13, argEvent 3],
      e ≠ .regWrite 0 0x01000000#32 ∧ ∀ b, e ≠ .resetPin b := by decide

theorem witness_StepKeepsTheInvariant :
    worked.Inv ∧ faulted.Inv := ⟨worked_inv, faulted_inv⟩

theorem witness_NoCommandWritesArg :
    Instr.pack ≠ .clrAll ∧ worked.fault = false ∧ (after (exec (.encSym 0x7A) worked)).fault = true ∧
    ({ worked with resetPin := true, pending := [.resetPin false] } : State).pending = [.resetPin false] ∧
    ({ worked with pending := [.regWrite 1 5] } : State).pending = [.regWrite 1 5] := by decide

theorem witness_OnlyReadCommandsWriteResults :
    isReadCommand .pack = false ∧ isReadCommand (.encSym 0x7A) = false ∧ Instr.pack ≠ .clrAll ∧
    worked.fault = false ∧ (after (exec (.encSym 0x7A) worked)).fault = true := by decide

theorem witness_FlagsChangeOnlyAsListed :
    (counted.treeValid = false ∧ (after (exec .treeBuild counted)).treeValid = true) ∧
    (worked.treeValid = true ∧ (after (exec (.histSym 0x61) worked)).treeValid = false) ∧
    (worked.codeValid = true ∧ (after (exec .treeBuild worked)).codeValid = false) ∧
    ((after (exec .treeBuild worked)).codeValid = false ∧
      (after (exec .codeGen (after (exec .treeBuild worked)))).codeValid = true) ∧
    (faulted.fault = true ∧ (after (exec .clrAll faulted)).fault = false) := by decide

theorem witness_FreqWriteInvalidatesTreeAndCode :
    worked.fault = false ∧ (after (exec (.histSym 0x61) worked)).fault = false ∧
    (after (exec (.freqLd 0x65) { worked with arg := 3 })).fault = false ∧
    (255 : Operand).toNat < (after (exec (.histSym 0x61) worked)).params.nsym := by decide

theorem witness_CommandsLeaveTheHostAlone :
    (after (exec .pack worked)).blob = [0x02, 0x94] ∧
    (after (step { worked with pending := [.regRead 1, .regRead 2] })).pending = [.regRead 2] := by decide

/-- A block with 1-bit Symbols, so that a table read-out is short. -/
def small : State := { faulted with params := { symW := 1, cntW := 3, blobCap := 4 } }

/-- R275, R276 by hand: `0 1 1` has the counts 1 and 2, so Symbol 0 is the left child with the code "0"; the bits `011`
need five bits of padding, and the byte is 0b01100000. -/
theorem test_hostCompress :
    (small.hostCompress [0, 1, 1]).map (fun x => (x.1, x.2.1)) = some ([(0, 1), (1, 2)], [5, 0b01100000]) := by
  decide +kernel

/-- The tokens back, the pairs loaded in the other order; a blob with a count above 7 gives the host nothing. -/
theorem test_hostDecompress :
    (small.hostDecompress [(1, 2), (0, 1)] [5, 0b01100000]).map (fun x => x.1) = some [0, 1, 1] ∧
    (small.hostDecompress [(1, 2), (0, 1)] [8, 0b01100000]).map (fun x => x.1) = none := by decide +kernel

theorem witness_ReadOutsReturnTheMemories :
    worked.Inv ∧ worked.fault = false ∧ worked.resetPin = false := ⟨worked_inv, rfl, rfl⟩

/-- The tokens of the witnesses below are Symbols of an instance with 1-bit Symbols. -/
theorem tokens_are_small : ∀ x ∈ ([0, 1, 1] : List Operand), x.toNat < (2 : Nat) ^ 1 := by simp

theorem witness_RoundTripThroughThePort :
    small.params.Legal ∧ small.resetPin = false ∧ small.params.nsym = 2 ^ 1 ∧
    (after (small.runs (compressEvents [0, 1, 1]))).fault = false := by decide +kernel

/-- A compress operation that faults, CountOverflow with 1-bit counts, gives the host nothing. -/
theorem witness_RoundTripThroughThePort_fault :
    let s := { small with params := { symW := 1, cntW := 1, blobCap := 4 } }
    s.params.Legal ∧ s.resetPin = false ∧ s.params.nsym = 2 ^ 1 ∧
    (after (s.runs (compressEvents [1, 1]))).fault = true ∧ (s.hostCompress [1, 1]).isNone = true := by decide +kernel

/-- The sequences in the order listed end without a fault. -/
theorem witness_sequences_complete :
    small.resetPin = false ∧
    ((small.serve (compressSequence small.params [0, 1, 1] 2)).map fun x => x.2.fault) = some false ∧
    ((small.serve (decompressSequence [(1, 2), (0, 1)] [5, 0b01100000] 3)).map fun x => x.2.fault) = some false := by
  decide +kernel

/-- An order R275 allows that begins with reset and reads the table first. -/
theorem witness_EveryAllowedCompressOrderAgrees :
    ∃ units, compressOrder small.params [0, 1, 1] 2
      ([.resetPin true, .resetPin false] ++ countEvents [0, 1, 1] ++
        ((tableReadUnits small.params) ++ units : List (List HostEvent)).flatten) :=
  ⟨_, _, by simp [startEvents], _, (Interleaves.append _ _).symm, rfl⟩

/-- An order R276 allows that begins with reset and loads the blob first, with the pairs the other way round. -/
theorem witness_EveryAllowedDecompressOrderAgrees :
    ([(0, 1), (1, 2)] : Memory Nat).Perm [(1, 2), (0, 1)] ∧
    decompressOrder [(0, 1), (1, 2)] [5, 0b01100000] 3
      ([.resetPin true, .resetPin false] ++
        ((pushEvents [5, 0b01100000] ++ [cmdEvent .unpack]) ++ (loadEvents [(0, 1), (1, 2)] ++ [cmdEvent .treeBuild])) ++
        [cmdEvent .decode] ++ (symbolReadUnits 3).flatten) :=
  ⟨by decide, _, by simp [startEvents], _, (Interleaves.append _ _).symm, rfl⟩

/-- R101 by hand: "ab" and back; a surrogate value is a code point where NSYM admits it; 0x110000 is none. -/
theorem test_charMode :
    charSymbols .defaults [0x61, 0x62] = some [0x61, 0x62] ∧ symbolsText [0x61, 0x62] = some [0x61, 0x62] ∧
    charSymbols { symW := 21, cntW := 32, blobCap := 65536 } [0xD800] = some [0xD800] ∧
    symbolsText [0x110000] = none := by decide

theorem witness_CharModeRoundTrip :
    small.params.Legal ∧ small.resetPin = false ∧ small.params.nsym = 2 ^ 1 ∧
    (small.hostCompressText [0, 1, 1]).isSome = true ∧ (small.hostCompressText [0, 2]).isNone = true := by
  decide +kernel

end Sys2Proof.Tests
end

section
/-! What a completed command, a command and a step can do, said once, and the frame facts that follow
(10_state.md R30, R32, R33, R45). -/

namespace Sys2Proof.Machine

/-- The effect of a command that passes all its checks, from `s` to the state after it. A read command writes
the result registers and nothing else; which values it writes no frame fact needs. -/
inductive Completes (s : State) : Instr → State → Prop
  | nop : Completes s .nop s
  | histSym (sym : Operand) (below : sym.toNat < s.params.nsym) (notFull : s.count sym.toNat ≠ s.params.cntMax) :
      Completes s (.histSym sym)
        { s with
          freq := Memory.write 0 s.freq sym.toNat (s.count sym.toNat + 1)
          tokCnt := s.tokCnt + 1 }.invalidate
  | freqLd (sym : Operand) (below : sym.toNat < s.params.nsym) (fits : s.arg.toNat < 2 ^ s.params.cntW)
      (unused : s.count sym.toNat = 0) :
      Completes s (.freqLd sym)
        { s with
          freq := Memory.write 0 s.freq sym.toNat s.arg.toNat
          tokCnt := s.tokCnt + s.arg.toNat }.invalidate
  | treeBuild :
      Completes s .treeBuild
        { s with
          node := buildArena s.params s.freq
          nLeaf := (seedLeaves s.params s.freq).length
          treeValid := true
          codeValid := false
          code := [] }
  | codeGen (built : s.treeValid = true) :
      Completes s .codeGen { s with code := codeTable s.node, codeValid := true }
  | encSym (sym : Operand) (fits : s.bitLen + (s.codeOf sym.toNat).length ≤ s.params.bitCap) :
      Completes s (.encSym sym) { s with bits := s.bits ++ s.codeOf sym.toNat }
  | decode (built : s.treeValid = true) :
      Completes s .decode { s with symBuf := decodeBits s.node s.bits }
  | pack : Completes s .pack { s with blob := packBits s.bits }
  | unpack (count : Byte) (data : List Byte) (blob : s.blob = count :: data) :
      Completes s .unpack { s with bits := dataBits data (8 * data.length - count.toNat) }
  | blobPush (byte : Byte) (notFull : s.blobLen ≠ s.params.blobCap) :
      Completes s (.blobPush byte) { s with blob := s.blob ++ [byte] }
  | read (i : Instr) (reads : isReadCommand i = true) (r0 r1 r2 r3 : Word) :
      Completes s i (s.setRes r0 r1 r2 r3)

/-- How a command ends: CLR_ALL clears, a command in the fault state is ignored, a failed check enters its fault,
and else the command completes. -/
inductive Ends (s : State) (i : Instr) : State → Prop
  | cleared (clears : i = .clrAll) : Ends s i s.clear
  | ignored (inFault : s.fault = true) : Ends s i s
  | faulted (noFault : s.fault = false) (k : FaultKind) : Ends s i (s.takeFault k i.encode)
  | completed (noFault : s.fault = false) {t : State} (effect : Completes s i t) : Ends s i t

/-- A command in its frame ends as `Ends` says when its body, where it succeeds, is the command's effect. -/
theorem Ends.of_command {i : Instr} {s t : State} {body : Except FaultKind State}
    (effect : ∀ u, body = .ok u → Completes s i u) (h : command i s body = .next t) : Ends s i t := by
  obtain ⟨hf, rfl⟩ | ⟨hf, hb⟩ | ⟨hf, k, -, rfl⟩ := command_cases h
  · exact .ignored hf
  · exact .completed hf (effect t hb)
  · exact .faulted hf k

/-- Everything a command can do (45_control.md R202 step (4)). -/
theorem exec_ends {i : Instr} {s t : State} (h : exec i s = .next t) : Ends s i t := by
  cases i with
  | clrAll =>
    obtain rfl : s.clear = t := Host.Outcome.next.inj h
    exact .cleared rfl
  | nop =>
    rw [exec, execNop] at h
    refine Ends.of_command (fun u hu => ?_) h
    obtain rfl : s = u := Except.ok.inj hu
    exact .nop
  | histSym sym =>
    refine Ends.of_command (fun u hu => ?_) h
    simp only [checkSym_eq_ok, check_eq_ok, beq_eq_false_iff_ne, Except.ok.injEq] at hu
    obtain ⟨below, notFull, rfl⟩ := hu
    exact .histSym sym below notFull
  | freqLd sym =>
    refine Ends.of_command (fun u hu => ?_) h
    simp only [checkSym_eq_ok, check_eq_ok, decide_eq_false_iff_not, Nat.not_le, bne_eq_false_iff_eq,
      Except.ok.injEq] at hu
    obtain ⟨below, -, fits, unused, rfl⟩ := hu
    exact .freqLd sym below fits unused
  | freqRd sym =>
    refine Ends.of_command (fun u hu => ?_) h
    simp only [checkSym_eq_ok, Except.ok.injEq] at hu
    obtain ⟨-, rfl⟩ := hu
    exact .read _ rfl ..
  | treeBuild =>
    rw [exec, execTreeBuild] at h
    refine Ends.of_command (fun u hu => ?_) h
    obtain rfl := Except.ok.inj hu
    exact .treeBuild
  | nodeRd idx =>
    refine Ends.of_command (fun u hu => ?_) h
    obtain ⟨-, hu⟩ := check_eq_ok.1 hu
    split at hu
    · cases hu
    · obtain rfl := Except.ok.inj hu
      exact .read _ rfl ..
  | codeGen =>
    refine Ends.of_command (fun u hu => ?_) h
    simp only [check_eq_ok, Bool.not_eq_false', Except.ok.injEq] at hu
    obtain ⟨built, rfl⟩ := hu
    exact .codeGen built
  | codeRd sym =>
    refine Ends.of_command (fun u hu => ?_) h
    simp only [checkSym_eq_ok, check_eq_ok, Except.ok.injEq] at hu
    obtain ⟨-, -, -, rfl⟩ := hu
    exact .read _ rfl ..
  | encSym sym =>
    refine Ends.of_command (fun u hu => ?_) h
    simp only [checkSym_eq_ok, check_eq_ok, decide_eq_false_iff_not, Nat.not_lt, Except.ok.injEq] at hu
    obtain ⟨-, -, -, fits, rfl⟩ := hu
    exact .encSym sym fits
  | decode =>
    refine Ends.of_command (fun u hu => ?_) h
    simp only [check_eq_ok, Bool.not_eq_false', Except.ok.injEq] at hu
    obtain ⟨built, -, rfl⟩ := hu
    exact .decode built
  | bitsRd idx =>
    refine Ends.of_command (fun u hu => ?_) h
    simp only [check_eq_ok, Except.ok.injEq] at hu
    obtain ⟨-, rfl⟩ := hu
    exact .read _ rfl ..
  | symRd idx =>
    refine Ends.of_command (fun u hu => ?_) h
    split at hu
    · cases hu
    · obtain rfl := Except.ok.inj hu
      exact .read _ rfl ..
  | pack =>
    rw [exec, execPack] at h
    refine Ends.of_command (fun u hu => ?_) h
    obtain rfl := Except.ok.inj hu
    exact .pack
  | unpack =>
    refine Ends.of_command (fun u hu => ?_) h
    split at hu
    · cases hu
    · rename_i count data blob
      simp only [check_eq_ok, Except.ok.injEq] at hu
      obtain ⟨-, -, rfl⟩ := hu
      exact .unpack count data blob
  | blobPush byte =>
    refine Ends.of_command (fun u hu => ?_) h
    simp only [check_eq_ok, beq_eq_false_iff_ne, Except.ok.injEq] at hu
    obtain ⟨notFull, rfl⟩ := hu
    exact .blobPush byte notFull
  | blobRd idx =>
    refine Ends.of_command (fun u hu => ?_) h
    split at hu
    · cases hu
    · obtain rfl := Except.ok.inj hu
      exact .read _ rfl ..

/-! ### What a completed command leaves unchanged -/

section
variable {s t : State} {i : Instr}

/-- A command that completes raises no fault and clears none. -/
theorem Completes.fault_eq (h : Completes s i t) : t.fault = s.fault := by
  cases h <;> rfl

/-- No command writes ARG (10_state.md R32). -/
theorem Completes.arg_eq (h : Completes s i t) : t.arg = s.arg := by
  cases h <;> rfl

/-- A command that is no read leaves RES0 to RES3 (10_state.md R33). -/
theorem Completes.results_eq (h : Completes s i t) (hi : isReadCommand i = false) :
    t.res0 = s.res0 ∧ t.res1 = s.res1 ∧ t.res2 = s.res2 ∧ t.res3 = s.res3 := by
  cases h with
  | read i reads => simp [hi] at reads
  | _ => exact ⟨rfl, rfl, rfl, rfl⟩

/-- A command that changes TREEVALID sets it as TREE_BUILD or clears it by Invalidate (10_state.md R30). -/
theorem Completes.treeValid_cases (h : Completes s i t) :
    t.treeValid = s.treeValid ∨ (i = .treeBuild ∧ t.treeValid = true) ∨
      (((∃ a, i = .histSym a) ∨ ∃ a, i = .freqLd a) ∧ t.treeValid = false) := by
  cases h with
  | treeBuild => exact .inr (.inl ⟨rfl, rfl⟩)
  | histSym a => exact .inr (.inr ⟨.inl ⟨a, rfl⟩, rfl⟩)
  | freqLd a => exact .inr (.inr ⟨.inr ⟨a, rfl⟩, rfl⟩)
  | _ => exact .inl rfl

/-- A command that changes CODEVALID sets it as CODE_GEN or clears it as TREE_BUILD or by Invalidate
(10_state.md R30). -/
theorem Completes.codeValid_cases (h : Completes s i t) :
    t.codeValid = s.codeValid ∨ (i = .codeGen ∧ t.codeValid = true) ∨
      (((∃ a, i = .histSym a) ∨ (∃ a, i = .freqLd a) ∨ i = .treeBuild) ∧ t.codeValid = false) := by
  cases h with
  | codeGen => exact .inr (.inl ⟨rfl, rfl⟩)
  | histSym a => exact .inr (.inr ⟨.inl ⟨a, rfl⟩, rfl⟩)
  | freqLd a => exact .inr (.inr ⟨.inr (.inl ⟨a, rfl⟩), rfl⟩)
  | treeBuild => exact .inr (.inr ⟨.inr (.inr rfl), rfl⟩)
  | _ => exact .inl rfl

/-- No command touches the parameters or the host's side (10_state.md R45). -/
theorem Ends.host_eq (h : Ends s i t) :
    t.params = s.params ∧ t.pending = s.pending ∧ t.readData = s.readData ∧ t.resetPin = s.resetPin := by
  cases h with
  | completed _ effect => cases effect <;> exact ⟨rfl, rfl, rfl, rfl⟩
  | _ => exact ⟨rfl, rfl, rfl, rfl⟩

/-- Where a fault is raised, fault entry happened (60_exceptions.md R245). -/
theorem Ends.eq_takeFault (h : Ends s i t) (noFault : s.fault = false) (raised : t.fault = true) :
    ∃ k, t = s.takeFault k i.encode := by
  cases h with
  | cleared => cases raised
  | ignored inFault => simp [noFault] at inFault
  | faulted _ k => exact ⟨k, rfl⟩
  | completed _ effect => simp [effect.fault_eq, noFault] at raised

end

/-! ### What a step can do -/

/-- Everything a CMD write can do (45_control.md R202). -/
theorem cmdWrite_cases {w : Word} {s t : State} (h : cmdWrite w s = .next t) :
    t = s ∨ (s.fault = false ∧ t = s.takeFault .illegalCommand w) ∨ ∃ i, exec i s = .next t := by
  unfold cmdWrite at h
  split at h
  · split at h
    · exact .inr (.inr ⟨_, h⟩)
    · exact .inl (Host.Outcome.next.inj h).symm
  · rename_i noFault
    split at h
    · exact .inr (.inl ⟨by simpa using noFault, (Host.Outcome.next.inj h).symm⟩)
    · exact .inr (.inr ⟨_, h⟩)

/-- Everything a RegWrite can do (20_memory.md R63 to R65). -/
theorem portWrite_cases {index : Nat} {v : Word} {s t : State} (h : portWrite index v s = .next t) :
    t = s ∨ t = { s with arg := v } ∨ cmdWrite v s = .next t := by
  unfold portWrite at h
  split at h
  · exact .inr (.inr h)
  · exact .inr (.inl (Host.Outcome.next.inj h).symm)
  · exact .inl (Host.Outcome.next.inj h).symm

/-- Everything a level on the reset input can do (70_reset_and_hazards.md R270): the pin alone changes, or the block
is cleared at the release. -/
theorem driveReset_cases (asserted : Bool) (s : State) :
    (∃ pin, driveReset asserted s = { s with resetPin := pin }) ∨
      driveReset asserted s = { s.clear with resetPin := false } := by
  unfold driveReset
  split
  · exact .inl ⟨true, rfl⟩
  · split
    · exact .inr rfl
    · exact .inl ⟨s.resetPin, rfl⟩

/-- What one host event can do to the state past it: change only the model's own fields of the host's side, clear
the block, write ARG, or write CMD. -/
inductive Serves (s : State) : State → Prop
  | host (readData : Option Word) (pin : Bool) : Serves s { s with readData := readData, resetPin := pin }
  | released : Serves s { s.clear with resetPin := false }
  | argWrite (v : Word) : Serves s { s with arg := v }
  | illegal (noFault : s.fault = false) (w : Word) : Serves s (s.takeFault .illegalCommand w)
  | command (i : Instr) {t : State} (run : exec i s = .next t) : Serves s t

theorem Serves.refl (s : State) : Serves s s := .host s.readData s.resetPin

/-- Everything a step can do (20_memory.md R60, R70). -/
theorem step_serves {s t : State} (h : step s = .next t) : Serves (s.accept s.pending.tail) t := by
  unfold step nextEvent at h
  cases hp : s.pending with
  | nil =>
    simp only [hp] at h
    obtain rfl := Host.Outcome.next.inj h
    exact .refl _
  | cons e rest =>
    simp only [hp] at h
    rw [List.tail_cons]
    generalize s.accept rest = u at h
    cases e with
    | resetPin asserted =>
      obtain rfl := Host.Outcome.next.inj h
      obtain ⟨pin, hu⟩ | hu := driveReset_cases asserted u <;> rw [hu]
      · exact .host u.readData pin
      · exact .released
    | regRead index =>
      simp only [hostEvent] at h
      split at h
      · obtain rfl := Host.Outcome.next.inj h
        exact .refl _
      · obtain rfl := Host.Outcome.next.inj h
        exact .host _ u.resetPin
    | regWrite index v =>
      simp only [hostEvent] at h
      split at h
      · obtain rfl := Host.Outcome.next.inj h
        exact .refl _
      · obtain rfl | rfl | h := portWrite_cases h
        · exact .refl _
        · exact .argWrite v
        · obtain rfl | ⟨noFault, rfl⟩ | ⟨i, run⟩ := cmdWrite_cases h
          · exact .refl _
          · exact .illegal noFault v
          · exact .command i run

/-- No host event touches the parameters, and it leaves the queue that it was taken off. -/
theorem Serves.params_pending_eq {s t : State} (h : Serves s t) : t.params = s.params ∧ t.pending = s.pending := by
  cases h with
  | command i run =>
    obtain ⟨hparams, hpending, -, -⟩ := (exec_ends run).host_eq
    exact ⟨hparams, hpending⟩
  | _ => exact ⟨rfl, rfl⟩

/-! ### The obligations about frames -/

/-- Settles O49: a completed command leaves ARG, and fault entry, CLR_ALL and the release of reset clear it. -/
theorem noCommandWritesArg : Obligations.NoCommandWritesArg := by
  refine ⟨fun i s t hi h => ?_, fun i s t hf h ht => ?_, fun s t h => ?_, fun s t rest hp hr h => ?_,
    fun s v rest hp hr => ?_, rfl⟩
  · cases exec_ends h with
    | cleared clears => exact absurd clears hi
    | ignored => exact .inl rfl
    | faulted noFault k => exact .inr ⟨noFault, rfl, rfl⟩
    | completed _ effect => exact .inl effect.arg_eq
  · obtain ⟨k, rfl⟩ := (exec_ends h).eq_takeFault hf ht
    rfl
  · obtain rfl : s.clear = t := Host.Outcome.next.inj h
    rfl
  · simp only [step, nextEvent, hp, hostEvent, driveReset, State.accept_resetPin, hr] at h
    obtain rfl := Host.Outcome.next.inj h
    rfl
  · exact ⟨{ s.accept rest with arg := v }, by simp [step, nextEvent, hp, hostEvent, hr, portWrite, Reg.ofIndex?],
      rfl⟩

/-- Settles O50: a completed command that is no read leaves the results, CLR_ALL and fault entry clear them. -/
theorem onlyReadCommandsWriteResults : Obligations.OnlyReadCommandsWriteResults := by
  refine ⟨fun i s t hread hi h => ?_, fun i s t hcause h => ?_⟩
  · cases exec_ends h with
    | cleared clears => exact absurd clears hi
    | ignored => exact .inl ⟨rfl, rfl, rfl, rfl⟩
    | faulted noFault => exact .inr ⟨noFault, rfl⟩
    | completed _ effect => exact .inl (effect.results_eq hread)
  · obtain rfl | ⟨noFault, raised⟩ := hcause
    · obtain rfl : s.clear = t := Host.Outcome.next.inj h
      exact ⟨rfl, rfl, rfl, rfl⟩
    · obtain ⟨k, rfl⟩ := (exec_ends h).eq_takeFault noFault raised
      exact ⟨rfl, rfl, rfl, rfl⟩

/-- Settles O51: by the ways a command ends; a completed one changes a flag only as `treeValid_cases` and
`codeValid_cases` say. -/
theorem flagsChangeOnlyAsListed : Obligations.FlagsChangeOnlyAsListed := by
  intro i s t h
  cases exec_ends h with
  | cleared clears => simp [clears, Block.reset]
  | ignored => simp_all
  | faulted => simp_all
  | completed noFault effect =>
    have tree := effect.treeValid_cases
    have code := effect.codeValid_cases
    have fault := effect.fault_eq
    grind

/-- Settles O53: a command leaves the host's side, a step takes the head off the queue. -/
theorem commandsLeaveTheHostAlone : Obligations.CommandsLeaveTheHostAlone :=
  ⟨fun _ _ _ h => (exec_ends h).host_eq, fun _ _ h => (step_serves h).params_pending_eq⟩

end Sys2Proof.Machine
end

section
/-! The arena of TREE_BUILD: its Leaves are the seeded ones, and it is the arena of one tree (41_tree_builder.md
R120, R122). -/

namespace Sys2Proof.Machine

/-! ### The symbols of an arena -/

/-- The Symbol of a Leaf; an Internal node has none. -/
def Node.symbol? : Node → Option Nat
  | .leaf sym _ => some sym
  | .internal _ _ _ => none

/-- The Symbols of the Leaves of an arena, in index order. -/
def arenaSymbols (arena : List Node) : List Nat := arena.filterMap Node.symbol?

theorem mem_arenaSymbols_of_leaf {arena : List Node} {i sym w : Nat} (h : arena[i]? = some (.leaf sym w)) :
    sym ∈ arenaSymbols arena :=
  List.mem_filterMap.2 ⟨_, List.mem_of_getElem? h, rfl⟩

@[simp] theorem arenaSymbols_append_internal (arena : List Node) (w l r : Nat) :
    arenaSymbols (arena ++ [.internal w l r]) = arenaSymbols arena := by
  simp [arenaSymbols, Node.symbol?]

/-- One Leaf for each Symbol with a non-zero count, by ascending Symbol (R120). -/
theorem arenaSymbols_seedLeaves (p : Params) (freq : Memory Nat) :
    arenaSymbols (seedLeaves p freq) = (List.range p.nsym).filter fun sym => Memory.read 0 freq sym ≠ 0 := by
  rw [arenaSymbols, seedLeaves, List.filterMap_filterMap, ← List.filterMap_eq_filter]
  congr 1
  funext sym
  by_cases h : Memory.read 0 freq sym = 0 <;> simp [h, Node.symbol?, Option.guard]

/-- Every seeded node is a Leaf. -/
theorem symbol?_isSome_of_mem_seedLeaves {p : Params} {freq : Memory Nat} {n : Node} (h : n ∈ seedLeaves p freq) :
    n.symbol?.isSome := by
  obtain ⟨sym, -, hn⟩ := List.mem_filterMap.1 h
  dsimp only at hn
  split at hn
  · cases hn
  · obtain rfl := Option.some.inj hn
    rfl

theorem seedLeaves_length_le (p : Params) (freq : Memory Nat) : (seedLeaves p freq).length ≤ p.nsym :=
  (List.length_filterMap_le _ _).trans_eq List.length_range

/-! ### Trees -/

/-- A strict binary tree with a Symbol and its weight at each Leaf. -/
inductive CodeTree where
  | leaf (sym weight : Nat)
  | node (left right : CodeTree)

namespace CodeTree

/-- The sum of the weights of the Leaves. -/
def weight : CodeTree → Nat
  | leaf _ w => w
  | node l r => l.weight + r.weight

/-- The number of nodes. -/
def size : CodeTree → Nat
  | leaf _ _ => 1
  | node l r => 1 + (l.size + r.size)

/-- The Symbols of the Leaves, from left to right. -/
def symbols : CodeTree → List Nat
  | leaf sym _ => [sym]
  | node l r => l.symbols ++ r.symbols

/-- The Leaves from left to right, each with its path after `path` (42_code_table.md R141). -/
def codes : CodeTree → Bits → Memory Bits
  | leaf sym _, path => [(sym, path)]
  | node l r, path => l.codes (path ++ [false]) ++ r.codes (path ++ [true])

end CodeTree

/-- Node `i` of an arena is the root of the tree `t`, every Internal node with its summed weight (R122). -/
inductive TreeAt (arena : List Node) : Nat → CodeTree → Prop
  | leaf {i sym w : Nat} (here : arena[i]? = some (.leaf sym w)) : TreeAt arena i (.leaf sym w)
  | node {i l r : Nat} {tl tr : CodeTree} (here : arena[i]? = some (.internal (tl.weight + tr.weight) l r))
      (left : TreeAt arena l tl) (right : TreeAt arena r tr) : TreeAt arena i (.node tl tr)

theorem getElem?_append_of_some {α : Type} {xs : List α} {i : Nat} {x : α} (h : xs[i]? = some x) (ys : List α) :
    (xs ++ ys)[i]? = some x := by
  rw [List.getElem?_append_left (List.getElem?_eq_some_iff.1 h).1, h]

/-- A tree stays where it is when the arena grows. -/
theorem TreeAt.append {arena : List Node} {i : Nat} {t : CodeTree} (h : TreeAt arena i t) (new : List Node) :
    TreeAt (arena ++ new) i t := by
  induction h with
  | leaf here => exact .leaf (getElem?_append_of_some here new)
  | node here _ _ left right => exact .node (getElem?_append_of_some here new) left right

/-! ### The merging loop builds one tree -/

/-- The key of a tree at an index (R121). -/
def treeKey (x : Nat × CodeTree) : Key := { weight := x.2.weight, index := x.1 }

/-- The collection `q` holds the roots of the trees `ts`, which together are the whole arena: no node and no Symbol is
in none or in two of them. The last node is always a root. -/
structure Forest (q : List Key) (arena : List Node) (ts : Multiset (Nat × CodeTree)) : Prop where
  keys : ts.map treeKey = q
  trees : ∀ x ∈ ts, TreeAt arena x.1 x.2
  sizes : (ts.map fun x => x.2.size).sum = arena.length
  symbols : (ts.map fun x => (x.2.symbols : Multiset Nat)).sum = arenaSymbols arena
  last : arena ≠ [] → ∃ k ∈ q, k.index + 1 = arena.length

/-- A collection as a multiset: the key that ExtractMin takes, and the rest (R121). -/
theorem coe_eq_cons_of_extractMin {q q' : List Key} {m : Key} (h : extractMin q = some (m, q')) :
    (q : Multiset Key) = m ::ₘ q' := by
  obtain ⟨hm, rfl, -, -⟩ := extractMin_spec h
  exact Multiset.coe_eq_coe.2 (List.perm_cons_erase hm)

/-- The element of a multiset whose image is the head of the mapped multiset, and the rest. -/
theorem exists_cons_of_map_eq_cons {α β : Type} {f : α → β} {s : Multiset α} {b : β} {t : Multiset β}
    (h : s.map f = b ::ₘ t) : ∃ a s', s = a ::ₘ s' ∧ f a = b ∧ s'.map f = t := by
  classical
  obtain ⟨a, ha, hb, ht⟩ := (Multiset.map_eq_cons f s t b).2 h
  exact ⟨a, s.erase a, (Multiset.cons_erase ha).symm, hb, ht⟩

/-- A new node at the end of the arena is a root beside the trees `ts` of an older arena, when together they use every
node and every Symbol. -/
theorem Forest.of_new_node {q : List Key} {arena : List Node} {n : Node} {t : CodeTree}
    {ts : Multiset (Nat × CodeTree)} (keys : ts.map treeKey = q) (trees : ∀ x ∈ ts, TreeAt arena x.1 x.2)
    (root : TreeAt (arena ++ [n]) arena.length t)
    (sizes : t.size + (ts.map fun x => x.2.size).sum = arena.length + 1)
    (symbols : (t.symbols : Multiset Nat) + (ts.map fun x => (x.2.symbols : Multiset Nat)).sum =
      arenaSymbols (arena ++ [n])) :
    Forest (q ++ [{ weight := t.weight, index := arena.length }]) (arena ++ [n]) ((arena.length, t) ::ₘ ts) where
  keys := by
    rw [Multiset.map_cons, keys, Multiset.cons_coe]
    exact Multiset.coe_eq_coe.2 (List.perm_append_singleton _ _).symm
  trees x hx := by
    obtain rfl | hx := Multiset.mem_cons.1 hx
    · exact root
    · exact (trees x hx).append _
  sizes := by simpa using sizes
  symbols := by simpa using symbols
  last _ := ⟨_, List.mem_append_right _ (List.mem_singleton_self _), by simp⟩

/-- The seeded Leaves are the forest in which every tree is one Leaf (R120). -/
theorem exists_forest_of_leaves {arena : List Node} (leaves : ∀ n ∈ arena, n.symbol?.isSome) :
    ∃ ts, Forest (arenaKeys arena) arena ts := by
  induction arena using List.reverseRecOn with
  | nil => exact ⟨0, by simp [arenaKeys], by simp, by simp, by simp [arenaSymbols], by simp⟩
  | append_singleton arena n ih =>
    obtain ⟨ts, h⟩ := ih fun m hm => leaves m (List.mem_append_left _ hm)
    cases n with
    | internal w l r => simpa [Node.symbol?] using leaves (.internal w l r)
    | leaf sym w =>
      have keys : arenaKeys (arena ++ [.leaf sym w]) = arenaKeys arena ++ [{ weight := w, index := arena.length }] := by
        simp [arenaKeys, Node.weight, List.zipIdx_append]
      refine ⟨_, keys ▸ Forest.of_new_node (t := .leaf sym w) h.keys h.trees (.leaf (by simp)) ?_ ?_⟩
      · rw [h.sizes, CodeTree.size, Nat.add_comm]
      · rw [h.symbols, Multiset.coe_add]
        refine Multiset.coe_eq_coe.2 (List.perm_append_comm.trans ?_)
        simp [arenaSymbols, Node.symbol?, CodeTree.symbols]

/-- Taking two keys off the collection and merging their trees keeps the forest (R120, R122). -/
theorem Forest.merge {q q₁ q₂ : List Key} {arena : List Node} {l r : Key} {ts : Multiset (Nat × CodeTree)}
    (h : Forest q arena ts) (hl : extractMin q = some (l, q₁)) (hr : extractMin q₁ = some (r, q₂)) :
    ∃ ts', Forest (q₂ ++ [{ weight := l.weight + r.weight, index := arena.length }])
      (arena ++ [.internal (l.weight + r.weight) l.index r.index]) ts' := by
  obtain ⟨x, xs, rfl, rfl, keys₁⟩ := exists_cons_of_map_eq_cons (h.keys.trans (coe_eq_cons_of_extractMin hl))
  obtain ⟨y, ys, rfl, rfl, keys₂⟩ := exists_cons_of_map_eq_cons (keys₁.trans (coe_eq_cons_of_extractMin hr))
  have left : TreeAt arena x.1 x.2 := h.trees x (by simp)
  have right : TreeAt arena y.1 y.2 := h.trees y (by simp)
  have sizes := h.sizes
  have symbols := h.symbols
  simp only [Multiset.map_cons, Multiset.sum_cons] at sizes symbols
  refine ⟨_, Forest.of_new_node (t := .node x.2 y.2) keys₂ (fun z hz => h.trees z (by simp [hz]))
    (.node (by simp [treeKey]) (left.append _) (right.append _)) ?_ ?_⟩
  · rw [CodeTree.size]
    omega
  · rw [arenaSymbols_append_internal, ← symbols, CodeTree.symbols, ← Multiset.coe_add, add_assoc]

/-! ### The built arena -/

/-- The merging loop adds Internal nodes only, at most one in each turn (R120). -/
theorem mergeNodes_leaves (n : Nat) (q : List Key) (arena : List Node) :
    arenaSymbols (mergeNodes n q arena) = arenaSymbols arena ∧ (mergeNodes n q arena).length ≤ arena.length + n := by
  induction n generalizing q arena with
  | zero => exact ⟨rfl, Nat.le_refl _⟩
  | succ n ih =>
    rw [mergeNodes]
    split
    · exact ⟨rfl, Nat.le_add_right _ _⟩
    · dsimp only
      split
      · exact ⟨rfl, Nat.le_add_right _ _⟩
      · rename_i l _ _ _ r q₂ _
        obtain ⟨symbols, length⟩ := ih (q₂ ++ [{ weight := l.weight + r.weight, index := arena.length }])
          (arena ++ [.internal (l.weight + r.weight) l.index r.index])
        rw [List.length_append, List.length_singleton] at length
        exact ⟨symbols.trans (arenaSymbols_append_internal ..), by omega⟩

/-- The Leaves of the built arena are the Symbols with a non-zero count (R120). -/
theorem arenaSymbols_buildArena (p : Params) (freq : Memory Nat) :
    arenaSymbols (buildArena p freq) = (List.range p.nsym).filter fun sym => Memory.read 0 freq sym ≠ 0 :=
  (mergeNodes_leaves ..).1.trans (arenaSymbols_seedLeaves p freq)

theorem mem_arenaSymbols_buildArena {p : Params} {freq : Memory Nat} {sym : Nat} :
    sym ∈ arenaSymbols (buildArena p freq) ↔ sym < p.nsym ∧ Memory.read 0 freq sym ≠ 0 := by
  simp [arenaSymbols_buildArena]

theorem arenaSymbols_buildArena_nodup (p : Params) (freq : Memory Nat) :
    (arenaSymbols (buildArena p freq)).Nodup := by
  rw [arenaSymbols_buildArena]
  exact List.nodup_range.filter _

theorem buildArena_length_le (p : Params) (freq : Memory Nat) : (buildArena p freq).length ≤ 2 * p.nsym := by
  have length := (mergeNodes_leaves (seedLeaves p freq).length (arenaKeys (seedLeaves p freq)) (seedLeaves p freq)).2
  have seeds := seedLeaves_length_le p freq
  rw [buildArena]
  omega

/-- TREE_BUILD builds one tree: its root is the last node, its nodes and its Symbols are those of the arena (R120,
R122, R127). -/
theorem exists_tree_of_buildArena (p : Params) (freq : Memory Nat) (h : buildArena p freq ≠ []) :
    ∃ t, TreeAt (buildArena p freq) ((buildArena p freq).length - 1) t ∧ t.size = (buildArena p freq).length ∧
      t.symbols.Perm (arenaSymbols (buildArena p freq)) := by
  obtain ⟨q, short, ts, forest⟩ := mergeNodes_induction (fun q arena => ∃ ts, Forest q arena ts)
    (fun q arena l q₁ r q₂ ⟨ts, forest⟩ hl hr => forest.merge hl hr)
    (seedLeaves p freq).length (arenaKeys (seedLeaves p freq)) (seedLeaves p freq)
    (exists_forest_of_leaves fun n => symbol?_isSome_of_mem_seedLeaves) (by simp [arenaKeys])
  change Forest q (buildArena p freq) ts at forest
  obtain ⟨k, hk, index⟩ := forest.last h
  obtain ⟨k', rfl⟩ := List.length_eq_one_iff.1 (Nat.le_antisymm short (List.length_pos_of_mem hk))
  obtain rfl := List.mem_singleton.1 hk
  obtain ⟨x, rfl, rfl⟩ := Multiset.map_eq_singleton.1 forest.keys
  have root : (buildArena p freq).length - 1 = x.1 := by rw [← index]; rfl
  refine ⟨x.2, ?_, ?_, ?_⟩
  · rw [root]
    exact forest.trees x (Multiset.mem_singleton_self x)
  · simpa using forest.sizes
  · simpa using forest.symbols

end Sys2Proof.Machine
end

section
/-! The code table of a built arena: the traversal records the codes of its tree (42_code_table.md R140 to R144). -/

namespace Sys2Proof.Machine

/-- A table with the codes `cs` written one after the other. -/
def writeCodes (table cs : Memory Bits) : Memory Bits :=
  cs.foldl (fun table c => Memory.write [] table c.1 c.2) table

/-- With as many turns as the tree has nodes and `n` more, the traversal records the codes of the tree on top of the
stack, and goes on below it with `n` turns (R140). -/
theorem TreeAt.traverse_eq {arena : List Node} {i : Nat} {t : CodeTree} (h : TreeAt arena i t) (n : Nat) (path : Bits)
    (stack : List (Nat × Bits)) (table : Memory Bits) :
    traverse arena (t.size + n) ((i, path) :: stack) table =
      traverse arena n stack (writeCodes table (t.codes path)) := by
  induction h generalizing n path stack table with
  | leaf here =>
    rw [CodeTree.size, Nat.add_comm, traverse, here]
    rfl
  | @node i l r tl tr here _ _ left right =>
    rw [CodeTree.size, show 1 + (tl.size + tr.size) + n = (tl.size + (tr.size + n)) + 1 by omega, traverse, here]
    dsimp only
    rw [left, right, CodeTree.codes, writeCodes, writeCodes, writeCodes, List.foldl_append]

namespace CodeTree

@[simp] theorem codes_map_fst (t : CodeTree) (path : Bits) : (t.codes path).map Prod.fst = t.symbols := by
  induction t generalizing path with
  | leaf => rfl
  | node l r left right => rw [codes, symbols, List.map_append, left, right]

/-- Every code of a subtree begins with the path to it. -/
theorem prefix_of_mem_codes {t : CodeTree} {path : Bits} {c : Nat × Bits} (h : c ∈ t.codes path) : path <+: c.2 := by
  induction t generalizing path with
  | leaf =>
    obtain rfl := List.mem_singleton.1 h
    exact List.prefix_rfl
  | node l r left right =>
    obtain h | h := List.mem_append.1 h
    · exact (List.prefix_append path [false]).trans (left h)
    · exact (List.prefix_append path [true]).trans (right h)

/-- No code takes both steps out of one node. -/
theorem not_prefix_both {path code : Bits} {b : Bool} (h : path ++ [b] <+: code) : ¬ path ++ [!b] <+: code := by
  intro g
  have same := List.prefix_of_prefix_length_le h g (by simp)
  simp at same

/-- No code is a beginning of another Leaf's code (10_state.md R43). -/
theorem fst_eq_of_prefix {t : CodeTree} {path : Bits} {c d : Nat × Bits} (hc : c ∈ t.codes path) (hd : d ∈ t.codes path)
    (h : c.2 <+: d.2) : c.1 = d.1 := by
  induction t generalizing path with
  | leaf =>
    obtain rfl := List.mem_singleton.1 hc
    obtain rfl := List.mem_singleton.1 hd
    rfl
  | node l r left right =>
    obtain hc | hc := List.mem_append.1 hc <;> obtain hd | hd := List.mem_append.1 hd
    · exact left hc hd
    · exact absurd (prefix_of_mem_codes hd) (not_prefix_both ((prefix_of_mem_codes hc).trans h))
    · exact absurd (prefix_of_mem_codes hd) (not_prefix_both ((prefix_of_mem_codes hc).trans h))
    · exact right hc hd

/-- Below an Internal node every code has a bit. -/
theorem snd_ne_nil_of_mem_codes_node {l r : CodeTree} {path : Bits} {c : Nat × Bits} (h : c ∈ (node l r).codes path) :
    c.2 ≠ [] := by
  intro hc
  obtain h | h := List.mem_append.1 h <;> simpa [hc] using prefix_of_mem_codes h

/-- The codes of a whole tree: the paths from the root, and the one-bit code "0" for a sole Leaf (R140, R142). -/
def rootCodes : CodeTree → Memory Bits
  | leaf sym _ => [(sym, [false])]
  | node l r => (node l r).codes []

theorem rootCodes_map_fst (t : CodeTree) : t.rootCodes.map Prod.fst = t.symbols := by
  cases t with
  | leaf => rfl
  | node l r => exact codes_map_fst _ _

theorem snd_ne_nil_of_mem_rootCodes {t : CodeTree} {c : Nat × Bits} (h : c ∈ t.rootCodes) : c.2 ≠ [] := by
  cases t with
  | leaf =>
    obtain rfl := List.mem_singleton.1 h
    simp
  | node l r => exact snd_ne_nil_of_mem_codes_node h

theorem fst_eq_of_prefix_of_mem_rootCodes {t : CodeTree} {c d : Nat × Bits} (hc : c ∈ t.rootCodes)
    (hd : d ∈ t.rootCodes) (h : c.2 <+: d.2) : c.1 = d.1 := by
  cases t with
  | leaf =>
    obtain rfl := List.mem_singleton.1 hc
    obtain rfl := List.mem_singleton.1 hd
    rfl
  | node l r => exact fst_eq_of_prefix hc hd h

end CodeTree

/-- The code table of an arena that is one tree holds the codes of the tree (R140, R142). -/
theorem TreeAt.codeTable_eq {arena : List Node} {t : CodeTree} (h : TreeAt arena (arena.length - 1) t)
    (size : t.size = arena.length) : codeTable arena = writeCodes [] t.rootCodes := by
  rw [codeTable, List.getLast?_eq_getElem?]
  cases h with
  | leaf here =>
    rw [here]
    rfl
  | node here left right =>
    rw [here]
    have all := (TreeAt.node here left right).traverse_eq 0 [] [] []
    rwa [Nat.add_zero, size] at all

/-- A Symbol with no code among `cs` keeps the one it had. -/
theorem read_writeCodes_of_not_mem {table cs : Memory Bits} {sym : Nat} (h : sym ∉ cs.map Prod.fst) :
    Memory.read [] (writeCodes table cs) sym = Memory.read [] table sym := by
  induction cs generalizing table with
  | nil => rfl
  | cons c cs ih =>
    rw [List.map_cons, List.mem_cons, not_or] at h
    exact (ih h.2).trans (Memory.read_write_of_ne _ _ _ _ _ h.1)

/-- A written code reads back, when no Symbol is written twice. -/
theorem read_writeCodes_of_mem {table cs : Memory Bits} {c : Nat × Bits} (distinct : (cs.map Prod.fst).Nodup)
    (hc : c ∈ cs) (nonempty : c.2 ≠ []) : Memory.read [] (writeCodes table cs) c.1 = c.2 := by
  induction cs generalizing table with
  | nil => cases hc
  | cons d cs ih =>
    rw [List.map_cons, List.nodup_cons] at distinct
    obtain rfl | hc := List.mem_cons.1 hc
    · exact (read_writeCodes_of_not_mem distinct.1).trans (Memory.read_write_self_of_ne _ _ _ _ nonempty)
    · exact ih distinct.2 hc

/-- A Symbol with a code has one of those written, and has one exactly when it is among them. -/
theorem read_writeCodes_nil {cs : Memory Bits} (distinct : (cs.map Prod.fst).Nodup) (nonempty : ∀ c ∈ cs, c.2 ≠ [])
    (sym : Nat) :
    (Memory.read [] (writeCodes [] cs) sym ≠ [] ↔ sym ∈ cs.map Prod.fst) ∧
      (sym ∈ cs.map Prod.fst → (sym, Memory.read [] (writeCodes [] cs) sym) ∈ cs) := by
  by_cases h : sym ∈ cs.map Prod.fst
  · obtain ⟨c, hc, rfl⟩ := List.mem_map.1 h
    rw [read_writeCodes_of_mem distinct hc (nonempty c hc)]
    exact ⟨iff_of_true (nonempty c hc) h, fun _ => hc⟩
  · rw [read_writeCodes_of_not_mem h]
    exact ⟨iff_of_false (fun hne => hne rfl) h, fun hmem => absurd hmem h⟩

/-- The codes of a built arena: those of its tree, and none where it has no node (R140, R144). -/
theorem exists_codes_of_buildArena (p : Params) (freq : Memory Nat) :
    ∃ cs : Memory Bits, codeTable (buildArena p freq) = writeCodes [] cs ∧
      (cs.map Prod.fst).Perm (arenaSymbols (buildArena p freq)) ∧ (∀ c ∈ cs, c.2 ≠ []) ∧
      ∀ c ∈ cs, ∀ d ∈ cs, c.2 <+: d.2 → c.1 = d.1 := by
  by_cases h : buildArena p freq = []
  · exact ⟨[], by simp [h, codeTable, writeCodes], by simp [h, arenaSymbols], by simp, by simp⟩
  · obtain ⟨t, root, size, symbols⟩ := exists_tree_of_buildArena p freq h
    exact ⟨t.rootCodes, root.codeTable_eq size, t.rootCodes_map_fst ▸ symbols,
      fun c => CodeTree.snd_ne_nil_of_mem_rootCodes, fun c hc d => CodeTree.fst_eq_of_prefix_of_mem_rootCodes hc⟩

/-- In the code table of a built arena exactly the Symbols with a non-zero count have a code, and no code is a beginning
of another Symbol's code (10_state.md R43). -/
theorem codeTable_buildArena_spec (p : Params) (freq : Memory Nat) :
    let code := Memory.read [] (codeTable (buildArena p freq))
    (∀ x, code x ≠ [] ↔ x < p.nsym ∧ Memory.read 0 freq x ≠ 0) ∧
      ∀ x y, x ≠ y → code x ≠ [] → code y ≠ [] → ¬ code x <+: code y := by
  obtain ⟨cs, table, symbols, nonempty, prefixFree⟩ := exists_codes_of_buildArena p freq
  have read := read_writeCodes_nil (symbols.nodup_iff.2 (arenaSymbols_buildArena_nodup p freq)) nonempty
  dsimp only
  rw [table]
  refine ⟨fun x => ?_, fun x y hxy hx hy hprefix => hxy ?_⟩
  · rw [(read x).1, symbols.mem_iff, mem_arenaSymbols_buildArena]
  · exact prefixFree _ ((read x).2 ((read x).1.1 hx)) _ ((read y).2 ((read y).1.1 hy)) hprefix

end Sys2Proof.Machine
end

section
/-! The invariant: each command, the port and reset keep it (10_state.md R22 to R31). -/

namespace Sys2Proof.Machine

/-! ### The sum of the counts -/

/-- Writing an entry takes its old count out of the sum and puts the new one in (10_state.md R23). -/
theorem countSum_write {m : Memory Nat} (hm : Memory.wf 0 m) (i v : Nat) :
    countSum (Memory.write 0 m i v) + Memory.read 0 m i = countSum m + v := by
  induction m with
  | nil => by_cases hv : v = 0 <;> simp [Memory.write, countSum, hv]
  | cons e m ih =>
    obtain ⟨k, u⟩ := e
    obtain ⟨above, rising⟩ := List.pairwise_cons.1 hm.1
    have tail := ih ⟨rising, fun c hc => hm.2 c (List.mem_cons_of_mem _ hc)⟩
    rw [Memory.write, Memory.read_cons]
    rcases Nat.lt_trichotomy i k with hlt | heq | hgt
    · have unlisted : Memory.read 0 m i = 0 := Memory.read_of_lt _ _ _ fun c hc => Nat.lt_trans hlt (above c hc)
      by_cases hv : v = 0 <;> simp [countSum, hv, hlt, hlt.ne', unlisted, Nat.add_comm]
    · subst heq
      by_cases hv : v = 0 <;> simp [countSum, hv] <;> omega
    · rw [if_neg (by omega), if_neg (by omega), if_neg (by omega)]
      simp only [countSum, List.map_cons, List.sum_cons] at tail ⊢
      omega

/-! ### What the decoder emits -/

theorem mem_arenaSymbols_of_mem_walkBits {arena : List Node} {root cur : Nat} {bits : Bits} {x : Nat}
    (h : x ∈ walkBits arena root cur bits) : x ∈ arenaSymbols arena := by
  induction bits generalizing cur with
  | nil => cases h
  | cons b bits ih =>
    rw [walkBits] at h
    split at h
    · rename_i sym w landed
      obtain rfl | h := List.mem_cons.1 h
      · exact mem_arenaSymbols_of_leaf landed
      · exact ih h
    · exact ih h

/-- DECODE emits Symbols of the tree's Leaves (43_bitstream_codec.md R161, R162). -/
theorem mem_arenaSymbols_of_mem_decodeBits {arena : List Node} {bits : Bits} {x : Nat}
    (h : x ∈ decodeBits arena bits) : x ∈ arenaSymbols arena := by
  unfold decodeBits at h
  split at h
  · cases h
  · rename_i sym w root
    obtain ⟨-, -, rfl⟩ := List.mem_map.1 h
    rw [List.getLast?_eq_getElem?] at root
    exact mem_arenaSymbols_of_leaf root
  · exact mem_arenaSymbols_of_mem_walkBits h

theorem decodeBits_length_le (arena : List Node) (bits : Bits) : (decodeBits arena bits).length ≤ bits.length := by
  unfold decodeBits
  split
  · exact Nat.zero_le _
  · exact (List.length_map _).le
  · exact walkBits_length_le ..

/-- A packed bitstring of at most BIT_CAP bits fits BLOB_CAP (44_byte_packer.md R180). -/
theorem packBits_length_le {p : Params} (legal : p.Legal) {bits : Bits} (fits : bits.length ≤ p.bitCap) :
    (packBits bits).length ≤ p.blobCap := by
  obtain ⟨-, -, positive, -⟩ := legal
  have := padding_le bits.length
  rw [Params.bitCap] at fits
  rw [packBits_length]
  omega

/-- The data bits of a blob of at most BLOB_CAP bytes fit BIT_CAP (44_byte_packer.md R182). -/
theorem unpacked_length_le {p : Params} {count : Byte} {data : List Byte} (fits : (count :: data).length ≤ p.blobCap) :
    (dataBits data (8 * data.length - count.toNat)).length ≤ p.bitCap := by
  rw [List.length_cons] at fits
  rw [dataBits_length, Params.bitCap]
  omega

/-- A value narrower than 32 bits reads as itself (20_memory.md R67 (a)). -/
theorem zext32_toNat {n : Nat} (h : n < 2 ^ 32) : (zext32 n).toNat = n := by
  rw [zext32, BitVec.toNat_ofNat, Nat.mod_eq_of_lt h]

namespace State.Inv

variable {s t : State}

/-! ### What the invariant says of a state -/

/-- Every count is of CNT_W bits (10_state.md R22). -/
theorem count_lt (h : s.Inv) (sym : Nat) : s.count sym < 2 ^ s.params.cntW := by
  by_cases listed : s.count sym = 0
  · rw [listed]
    exact Nat.two_pow_pos _
  · exact (h.freq_range _ (Memory.mem_of_read 0 s.freq sym listed)).2

/-- Only Symbols below NSYM are counted (10_state.md R22). -/
theorem lt_nsym_of_count_ne_zero (h : s.Inv) {sym : Nat} (counted : s.count sym ≠ 0) : sym < s.params.nsym :=
  (h.freq_range _ (Memory.mem_of_read 0 s.freq sym counted)).1

/-- The Leaves of the present tree are Symbols below NSYM. -/
theorem lt_nsym_of_mem_arenaSymbols (h : s.Inv) (built : s.treeValid = true) {x : Nat} (hx : x ∈ arenaSymbols s.node) :
    x < s.params.nsym := by
  rw [(h.tree_valid built).1, mem_arenaSymbols_buildArena] at hx
  exact hx.1

/-- The invariant speaks of the block and the parameters only. -/
theorem congr (h : s.Inv) (block : t.toBlock = s.toBlock) (params : t.params = s.params) : t.Inv := by
  cases s
  cases t
  obtain rfl : _ = _ := block
  obtain rfl : _ = _ := params
  exact { h with }

/-! ### ResetState, fault entry, ARG -/

/-- ResetState meets the invariant at any legal parameters (10_state.md R46). -/
theorem clear (legal : s.params.Legal) : s.clear.Inv where
  params_legal := legal
  freq_wf := ⟨.nil, fun _ hc => nomatch hc⟩
  freq_range _ hc := nomatch hc
  tokCnt_sum := rfl
  tree_valid built := nomatch built
  tree_invalid _ := ⟨rfl, rfl⟩
  code_valid built := nomatch built
  code_invalid _ := rfl
  bits_cap := Nat.zero_le _
  blob_cap := Nat.zero_le _
  sym_cap := Nat.zero_le _
  sym_range _ hx := nomatch hx
  no_fault _ := ⟨rfl, rfl⟩
  in_fault inFault := nomatch inFault

/-- Fault entry meets it (60_exceptions.md R245). -/
theorem takeFault (legal : s.params.Legal) (k : FaultKind) (w : Word) : (s.takeFault k w).Inv :=
  { clear (s := s) legal with
    no_fault := fun noFault => nomatch noFault
    in_fault := fun _ => ⟨⟨k, rfl⟩, rfl⟩ }

/-- A write to ARG keeps it, in the fault state too (60_exceptions.md R247). -/
theorem argWrite (h : s.Inv) (v : Word) : State.Inv { s with arg := v } :=
  { h with
    in_fault := fun hf => ⟨(h.in_fault hf).1, congrArg (fun b => { b with arg := v }) (h.in_fault hf).2⟩ }

/-! ### Commands -/

/-- A frequency write of a Symbol below NSYM, with its count in range and TOKCNT following it, keeps the invariant
(40_frequency_histogram.md R104, R105, R109). -/
theorem freqWrite (h : s.Inv) (noFault : s.fault = false) {sym v n : Nat} (below : sym < s.params.nsym)
    (fits : v < 2 ^ s.params.cntW) (sum : n + s.count sym = s.tokCnt + v) :
    State.Inv { s with freq := Memory.write 0 s.freq sym v, tokCnt := n }.invalidate :=
  { h with
    freq_wf := Memory.write_wf 0 s.freq sym v h.freq_wf
    freq_range := fun c hc => by
      obtain rfl | hc := Memory.mem_write 0 s.freq sym v c hc
      · exact ⟨below, fits⟩
      · exact h.freq_range c hc
    tokCnt_sum := by
      have written := countSum_write h.freq_wf sym v
      rw [h.tokCnt_sum] at sum
      exact Nat.add_right_cancel (sum.trans written.symm)
    tree_valid := fun built => nomatch built
    tree_invalid := fun _ => ⟨rfl, rfl⟩
    code_valid := fun built => nomatch built
    code_invalid := fun _ => rfl
    in_fault := fun inFault => by simp [noFault] at inFault }

/-- Every command that completes keeps the invariant. -/
theorem completes {i : Instr} (h : s.Inv) (noFault : s.fault = false) (effect : Completes s i t) : t.Inv := by
  have absurdFault {P : Prop} (inFault : s.fault = true) : P := by simp [noFault] at inFault
  cases effect with
  | nop => exact h
  | histSym sym below notFull =>
    refine h.freqWrite noFault below ?_ (by omega)
    have := h.count_lt sym.toNat
    rw [Params.cntMax] at notFull
    omega
  | freqLd sym below fits unused => exact h.freqWrite noFault below fits (by omega)
  | treeBuild =>
    exact { h with
      tree_valid := fun _ => ⟨rfl, rfl⟩
      tree_invalid := fun built => nomatch built
      code_valid := fun built => nomatch built
      code_invalid := fun _ => rfl
      in_fault := absurdFault }
  | codeGen built =>
    exact { h with
      code_valid := fun _ => ⟨built, rfl⟩
      code_invalid := fun built => nomatch built
      in_fault := absurdFault }
  | encSym sym fits =>
    exact { h with
      bits_cap := List.length_append.trans_le fits
      in_fault := absurdFault }
  | decode built =>
    exact { h with
      sym_cap := (decodeBits_length_le ..).trans h.bits_cap
      sym_range := fun x hx => h.lt_nsym_of_mem_arenaSymbols built (mem_arenaSymbols_of_mem_decodeBits hx)
      in_fault := absurdFault }
  | pack =>
    exact { h with
      blob_cap := packBits_length_le h.params_legal h.bits_cap
      in_fault := absurdFault }
  | unpack count data blob =>
    exact { h with
      bits_cap := unpacked_length_le (blob ▸ h.blob_cap)
      in_fault := absurdFault }
  | blobPush byte notFull =>
    exact { h with
      blob_cap := List.length_append.trans_le (Nat.lt_of_le_of_ne h.blob_cap notFull)
      in_fault := absurdFault }
  | read i reads r0 r1 r2 r3 =>
    exact { h with in_fault := absurdFault }

/-- Every command keeps the invariant. -/
theorem exec {i : Instr} (h : s.Inv) (run : exec i s = .next t) : t.Inv := by
  cases exec_ends run with
  | cleared => exact clear h.params_legal
  | ignored => exact h
  | faulted _ k => exact takeFault h.params_legal k _
  | completed noFault effect => exact h.completes noFault effect

/-- Every host event keeps the invariant. -/
theorem serves (h : s.Inv) (event : Serves s t) : t.Inv := by
  cases event with
  | host => exact h.congr rfl rfl
  | released => exact (clear h.params_legal).congr rfl rfl
  | argWrite v => exact h.argWrite v
  | illegal _ w => exact takeFault h.params_legal _ w
  | command i run => exact h.exec run

/-! ### The count and length registers -/

theorem nsym_le (h : s.Inv) : s.params.nsym ≤ 2 ^ 21 :=
  Nat.pow_le_pow_right (by omega) h.params_legal.1.2

/-- NLEAF is at most NSYM (10_state.md R25). -/
theorem nLeaf_le (h : s.Inv) : s.nLeaf ≤ 2 ^ 21 := by
  cases built : s.treeValid
  · simp [(h.tree_invalid built).2]
  · rw [(h.tree_valid built).2]
    exact (seedLeaves_length_le ..).trans h.nsym_le

/-- NNODES is at most 2·NSYM (10_state.md R25). -/
theorem nNodes_le (h : s.Inv) : s.nNodes ≤ 2 ^ 22 := by
  rw [State.nNodes]
  cases built : s.treeValid
  · simp [(h.tree_invalid built).1]
  · rw [(h.tree_valid built).1]
    have length := buildArena_length_le s.params s.freq
    have := h.nsym_le
    omega

theorem blobCap_le (h : s.Inv) : s.params.blobCap ≤ 2 ^ 21 := h.params_legal.2.2.2

theorem bitCap_le (h : s.Inv) : s.params.bitCap ≤ 2 ^ 24 := by
  have := h.blobCap_le
  rw [Params.bitCap]
  omega

end State.Inv

/-! ### The obligations about the invariant -/

/-- Settles O48: a step serves one host event on the state past it, and every such event keeps the invariant. -/
theorem stepKeepsTheInvariant : Obligations.StepKeepsTheInvariant := fun _ _ h run =>
  State.Inv.serves (s := State.accept _ _) (h.congr rfl rfl) (step_serves run)

/-- Settles O47: the state at reset is a cleared one with the default parameters. -/
theorem resetMeetsTheInvariant : Obligations.ResetMeetsTheInvariant :=
  State.Inv.clear (s := .reset) (by decide)

/-- Settles O8: every one of the five fields is at most 2^24 under the invariant. -/
theorem lengthRegistersReadTheFields : Obligations.LengthRegistersReadTheFields := by
  intro s h
  have := h.nLeaf_le
  have := h.nNodes_le
  have := h.bits_cap
  have := h.blob_cap
  have := h.sym_cap
  have := h.bitCap_le
  have := h.blobCap_le
  have : s.params.symCap = s.params.bitCap := rfl
  refine ⟨zext32_toNat ?_, zext32_toNat ?_, zext32_toNat ?_, zext32_toNat ?_, zext32_toNat ?_⟩ <;> omega

/-- Settles O37: a valid code table is that of the arena of the present counts. -/
theorem codesArePrefixFree : Obligations.CodesArePrefixFree := by
  intro s h _ valid
  obtain ⟨built, table⟩ := h.code_valid valid
  rw [(h.tree_valid built).1] at table
  obtain ⟨coded, prefixFree⟩ := codeTable_buildArena_spec s.params s.freq
  rw [← table] at coded prefixFree
  refine ⟨fun x => ?_, prefixFree⟩
  rw [Nat.one_le_iff_ne_zero, Nat.one_le_iff_ne_zero, ne_eq, List.length_eq_zero_iff]
  exact (coded x).trans (and_iff_right_of_imp h.lt_nsym_of_count_ne_zero)

/-! ### The register window -/

/-- One flag of STATUS, bit by bit (10_state.md R37). -/
theorem flagBit_getLsbD (b : Bool) {k : Nat} (hk : k < 32) (n : Nat) :
    (flagBit b k).getLsbD n = (n == k && b) := by
  cases b
  · simp [flagBit]
  · refine (BitVec.getLsbD_twoPow k n).trans ?_
    simp [hk, Bool.beq_eq_decide_eq, eq_comm]

/-- The LO word of a wide value, bit by bit (20_memory.md R67 (b)). -/
theorem loWord_getLsbD (v n : Nat) : (loWord v).getLsbD n = (decide (n < 32) && v.testBit n) :=
  BitVec.getLsbD_ofNat ..

/-- The HI word of a wide value, bit by bit (20_memory.md R67 (b)). -/
theorem hiWord_getLsbD (p : Params) (v n : Nat) :
    (hiWord p v).getLsbD n = (decide (n < 32) && decide (32 + n < p.wgtW) && v.testBit (32 + n)) := by
  rw [hiWord]
  split
  · have : n < p.wgtW - 32 ↔ 32 + n < p.wgtW := by omega
    rw [BitVec.getLsbD_ofNat, Nat.testBit_mod_two_pow, Nat.testBit_div_two_pow, Nat.add_comm n 32, Bool.and_assoc]
    simp only [this]
  · have : ¬ 32 + n < p.wgtW := by omega
    simp [this]

/-- Every register reads 0 at reset, and so does every unmapped offset (10_state.md R46). -/
theorem portRead_reset (k : Nat) : State.reset.portRead k = 0 := by
  rw [State.portRead]
  cases Reg.ofIndex? k with
  | none => rfl
  | some r => cases r <;> rfl

/-- Settles O7: register by register, the bits of STATUS, ERR and TOKCNT by the lemmas above. -/
theorem registerWindowReads : Obligations.RegisterWindowReads := by
  intro s
  refine ⟨rfl, rfl, fun n => ?_, fun n => ?_, rfl, rfl, rfl, rfl, rfl, loWord_getLsbD _, hiWord_getLsbD _ _,
    fun v => ⟨rfl, rfl⟩, portRead_reset⟩
  · change s.statusWord.getLsbD n = _
    simp [State.statusWord, flagBit_getLsbD]
  · change (s.err.setWidth 32).getLsbD n = _
    rw [BitVec.getLsbD_setWidth]
    by_cases h : n < 4
    · have : n < 32 := by omega
      simp [h, this]
    · simp [h, BitVec.getLsbD_of_ge s.err n (by omega)]

end Sys2Proof.Machine
end

section
/-! Encoding and decoding (30_encoding.md R81 to R84): the decoder undoes the encoder, and on every word it answers the
command of that word or the word is illegal. -/

namespace Sys2Proof.Machine

variable {p : Params} {w : Word}

/-! ### Decoding an encoded command -/

/-- A byte in the operand field passes the check of class `byte` and is read back (R82). -/
theorem decodeByte_setWidth (b : Byte) (f : Byte → Instr) : decodeByte (b.setWidth 24) f = .ok (f b) := by
  have value : (b.setWidth 24).toNat = b.toNat := BitVec.toNat_setWidth_of_le (by decide)
  rw [decodeByte, value, if_pos b.isLt, BitVec.setWidth_setWidth_of_le b (by decide), BitVec.setWidth_eq]

/-- The decoder undoes the encoder: the opcode selects the command's own row of R83, and the static check of R82 on
its operand succeeds. -/
theorem decode_encode {i : Instr} (legal : i.wellFormed p = true) : decode p i.encode = .ok i := by
  rw [decode, Instr.encode, opField_commandWord, operandField_commandWord]
  cases i with
  | nop | clrAll | treeBuild | codeGen | decode | pack | unpack => rfl
  | histSym | freqLd | freqRd | codeRd | encSym => exact if_pos legal
  | nodeRd | bitsRd | symRd | blobRd => rfl
  | blobPush byte => exact decodeByte_setWidth byte .blobPush

/-- Settles O1: `decode_encode`. -/
theorem decodeOfEncode : Obligations.DecodeOfEncode := fun _ _ legal => decode_encode legal

/-- Settles O4: the ten words are evaluated. -/
theorem opcodeWordsDecode : Obligations.OpcodeWordsDecode := by
  unfold Obligations.OpcodeWordsDecode
  decide

/-! ### The illegal words of each operand class -/

theorem illegalWord_iff_of_none (op : (opField w).toNat ∈ noneOpcodes) :
    illegalWord p w ↔ operandField w ≠ 0 := by
  obtain ⟨notSym, notByte⟩ : (opField w).toNat ∉ symOpcodes ∧ (opField w).toNat ≠ byteOpcode :=
    (by decide : ∀ n ∈ noneOpcodes, n ∉ symOpcodes ∧ n ≠ byteOpcode) _ op
  rw [illegalWord, ← opField_toNat, ← operandField_toNat]
  simp [op, notSym, notByte, BitVec.toNat_eq]

theorem illegalWord_iff_of_sym (op : (opField w).toNat ∈ symOpcodes) :
    illegalWord p w ↔ ¬ p.symLegal (operandField w) = true := by
  obtain ⟨notNone, notByte⟩ : (opField w).toNat ∉ noneOpcodes ∧ (opField w).toNat ≠ byteOpcode :=
    (by decide : ∀ n ∈ symOpcodes, n ∉ noneOpcodes ∧ n ≠ byteOpcode) _ op
  rw [illegalWord, ← opField_toNat, ← operandField_toNat]
  simp [op, notNone, notByte, Params.symLegal]

theorem illegalWord_iff_of_byte (op : (opField w).toNat = byteOpcode) :
    illegalWord p w ↔ ¬ (operandField w).toNat < 256 := by
  rw [illegalWord, ← opField_toNat, ← operandField_toNat, op]
  simp [byteOpcode, noneOpcodes, symOpcodes]

theorem not_illegalWord_of_idx (op : (opField w).toNat ∈ idxOpcodes) : ¬ illegalWord p w := by
  obtain ⟨notNone, notSym, notByte⟩ :
      (opField w).toNat ∉ noneOpcodes ∧ (opField w).toNat ∉ symOpcodes ∧ (opField w).toNat ≠ byteOpcode :=
    (by decide : ∀ n ∈ idxOpcodes, n ∉ noneOpcodes ∧ n ∉ symOpcodes ∧ n ≠ byteOpcode) _ op
  rw [illegalWord, ← opField_toNat, ← operandField_toNat]
  simp [op, notNone, notSym, notByte]

/-! ### What the decoder answers -/

/-- Everything the decoder can answer on the word `w`: the well-formed command whose word it is, or a reason why the
word is illegal. -/
inductive Decodes (p : Params) (w : Word) : Except Illegal Instr → Prop
  | command (i : Instr) (word : i.encode = w) (wellFormed : i.wellFormed p = true) (legal : ¬ illegalWord p w) :
      Decodes p w (.ok i)
  | illegal (reason : Illegal) (illegal : illegalWord p w) : Decodes p w (.error reason)

/-- A command with the two fields of `w` is encoded as `w`. -/
theorem encode_eq_of_fields {i : Instr} (op : (opField w).toNat = i.opcode.toNat) (a : operandField w = i.operand) :
    i.encode = w := by
  rw [Instr.encode, ← BitVec.eq_of_toNat_eq op, ← a, commandWord_fields]

/-- A static operand check (R82) that fails on exactly the illegal words of its row. -/
theorem Decodes.of_check {c : Prop} [Decidable c] {i : Instr} {reason : Illegal} (illegal : illegalWord p w ↔ ¬ c)
    (command : c → i.encode = w ∧ i.wellFormed p = true) :
    Decodes p w (if c then .ok i else .error reason) := by
  split
  · rename_i passed
    obtain ⟨word, wellFormed⟩ := command passed
    exact .command i word wellFormed fun h => illegal.1 h passed
  · rename_i failed
    exact .illegal reason (illegal.2 failed)

/-- The rows of class `none`. -/
theorem Decodes.of_none {i : Instr} {n : Nat} (op : (opField w).toNat = n) (row : n ∈ noneOpcodes)
    (opcode : i.opcode.toNat = n) (operand : i.operand = 0) (wellFormed : i.wellFormed p = true) :
    Decodes p w (decodeNone (operandField w) i) :=
  .of_check (illegalWord_iff_of_none (op ▸ row)) fun zero =>
    ⟨encode_eq_of_fields (op.trans opcode.symm) (zero.trans operand.symm), wellFormed⟩

/-- The rows of class `sym`. -/
theorem Decodes.of_sym {f : Operand → Instr} {n : Nat} (op : (opField w).toNat = n) (row : n ∈ symOpcodes)
    (opcode : (f (operandField w)).opcode.toNat = n) (operand : (f (operandField w)).operand = operandField w)
    (wellFormed : (f (operandField w)).wellFormed p = p.symLegal (operandField w)) :
    Decodes p w (decodeSym p (operandField w) f) :=
  .of_check (illegalWord_iff_of_sym (op ▸ row)) fun below =>
    ⟨encode_eq_of_fields (op.trans opcode.symm) operand.symm, wellFormed.trans below⟩

/-- The rows of class `idx`, which have no check. -/
theorem Decodes.of_idx {f : Operand → Instr} {n : Nat} (op : (opField w).toNat = n) (row : n ∈ idxOpcodes)
    (opcode : (f (operandField w)).opcode.toNat = n) (operand : (f (operandField w)).operand = operandField w)
    (wellFormed : (f (operandField w)).wellFormed p = true) :
    Decodes p w (decodeIdx (operandField w) f) :=
  .command _ (encode_eq_of_fields (op.trans opcode.symm) operand.symm) wellFormed (not_illegalWord_of_idx (op ▸ row))

/-- The row of class `byte`: an operand field below 256 is kept whole by its low byte. -/
theorem Decodes.of_byte (op : (opField w).toNat = byteOpcode) :
    Decodes p w (decodeByte (operandField w) .blobPush) := by
  refine .of_check (illegalWord_iff_of_byte op) fun below => ⟨encode_eq_of_fields op ?_, rfl⟩
  change operandField w = ((operandField w).setWidth 8).setWidth 24
  bv_omega

/-- What the decoder answers on any word: its rows (R83), class by class, and no row. -/
theorem decodes_decode (p : Params) (w : Word) : Decodes p w (decode p w) := by
  unfold decode
  dsimp only
  split
  case h_1 op | h_2 op | h_6 op | h_8 op | h_11 op | h_14 op | h_15 op => exact .of_none op (by decide) rfl rfl rfl
  case h_3 op | h_4 op | h_5 op | h_9 op | h_10 op => exact .of_sym op (by decide) rfl rfl rfl
  case h_7 op | h_12 op | h_13 op | h_17 op => exact .of_idx op (by decide) rfl rfl rfl
  case h_16 op => exact .of_byte op
  case h_18 =>
    refine .illegal _ (.inl ?_)
    rw [← opField_toNat]
    simp only [noneOpcodes, symOpcodes, idxOpcodes, byteOpcode, List.mem_append, List.mem_cons, List.not_mem_nil,
      or_false, not_or]
    and_intros <;> assumption

/-- Settles O2: by what the decoder answers. -/
theorem encodeOfDecode : Obligations.EncodeOfDecode := by
  intro p w i answer
  obtain ⟨_, word, wellFormed, -⟩ | _ := answer ▸ decodes_decode p w
  exact ⟨word, wellFormed⟩

/-- An illegal word decodes to no command (R84). -/
theorem exists_decode_eq_error (h : illegalWord p w) : ∃ reason, decode p w = .error reason := by
  cases answer : decode p w with
  | error reason => exact ⟨reason, rfl⟩
  | ok i =>
    obtain ⟨_, -, -, legal⟩ | _ := answer ▸ decodes_decode p w
    exact absurd h legal

/-- Every other word is a command (R84). -/
theorem exists_decode_eq_ok (h : ¬ illegalWord p w) : ∃ i, decode p w = .ok i := by
  cases answer : decode p w with
  | ok i => exact ⟨i, rfl⟩
  | error reason =>
    obtain _ | ⟨_, illegal⟩ := answer ▸ decodes_decode p w
    exact absurd illegal h

/-! ### A write to CMD -/

/-- While reset is not asserted, a step that finds a write to CMD performs it on the state past it (45_control.md
R202). -/
theorem step_cmdWrite {s : State} {rest : List HostEvent} (next : s.pending = .regWrite 0 w :: rest)
    (running : s.resetPin = false) : step s = cmdWrite w (s.accept rest) := by
  rw [step, nextEvent, next]
  exact if_neg (Bool.eq_false_iff.1 running)

/-- An illegal word written to CMD while FAULT = 0 raises IllegalCommand with ERRINFO the word (R84). -/
theorem cmdWrite_of_illegalWord {s : State} (noFault : s.fault = false) (h : illegalWord s.params w) :
    cmdWrite w s = .next (s.takeFault .illegalCommand w) := by
  obtain ⟨reason, answer⟩ := exists_decode_eq_error h
  simp [cmdWrite, noFault, answer]

/-- Settles O3: an illegal word faults when it is written, and any other word decodes. -/
theorem illegalWordsRaiseIllegalCommand : Obligations.IllegalWordsRaiseIllegalCommand := by
  intro s w rest next running noFault
  refine ⟨fun h => ?_, exists_decode_eq_ok⟩
  rw [step_cmdWrite next running]
  exact cmdWrite_of_illegalWord (s := s.accept rest) noFault h

end Sys2Proof.Machine
end

section
/-! The three commands of the frequency table (40_frequency_histogram.md R104 to R106): the checks that stop them, and
what they do once their checks pass. -/

namespace Sys2Proof.Machine

variable {s : State}

/-! ### Reading rules shared by the commands -/

/-- A command whose body ends in an error raises that fault (60_exceptions.md R245). -/
theorem raises_of_error {i : Instr} {body : Except FaultKind State} {k : FaultKind}
    (frame : exec i s = command i s body) (noFault : s.fault = false) (stops : body = .error k) : raises i s k.code :=
  frame.trans (command_of_error noFault stops)

/-- A Symbol of NSYM or more stops every command of class `sym` (30_encoding.md R82). -/
theorem checkSym_of_ge {a : Operand} (above : s.params.nsym ≤ a.toNat) (rest : Except FaultKind State) :
    checkSym s a rest = .error .illegalCommand :=
  checkSym_eq_error.2 (.inl ⟨above, rfl⟩)

/-- A Symbol below NSYM passes the static check (R82). -/
theorem checkSym_of_lt {a : Operand} (below : a.toNat < s.params.nsym) (rest : Except FaultKind State) :
    checkSym s a rest = rest := by
  simp [checkSym, Params.symLegal, below]

/-! ### The frequency write -/

/-- Entry `sym` of FREQ becomes `v` and TOKCNT grows by `n`; the tree and the code table are invalidated (R104, R105,
R109). -/
def State.writeFreq (s : State) (sym v n : Nat) : State :=
  { s with freq := Memory.write 0 s.freq sym v, tokCnt := s.tokCnt + n }.invalidate

@[simp] theorem State.writeFreq_tokCnt (sym v n : Nat) : (s.writeFreq sym v n).tokCnt = s.tokCnt + n := rfl
@[simp] theorem State.writeFreq_params (sym v n : Nat) : (s.writeFreq sym v n).params = s.params := rfl

/-- A count that is not 0 reads back. -/
theorem State.writeFreq_count_self {sym v : Nat} (n : Nat) (nonzero : v ≠ 0) :
    (s.writeFreq sym v n).count sym = v :=
  Memory.read_write_self_of_ne 0 s.freq sym v nonzero

/-- Every other count stays. -/
theorem State.writeFreq_count_of_ne {sym u : Nat} (v n : Nat) (other : u ≠ sym) :
    (s.writeFreq sym v n).count u = s.count u :=
  Memory.read_write_of_ne 0 s.freq sym u v other

/-- The frame of a frequency write (R109). -/
theorem State.writeFreq_frame (sym v n : Nat) :
    s.writeFreq sym v n =
      { s with
        freq := (s.writeFreq sym v n).freq, tokCnt := s.tokCnt + n, treeValid := false, codeValid := false,
        nLeaf := 0, node := (s.writeFreq sym v n).node, code := (s.writeFreq sym v n).code } := rfl

/-! ### The commands when their checks pass -/

/-- HIST_SYM of a Symbol whose count is not at its largest (R104). -/
theorem exec_histSym {a : Operand} (noFault : s.fault = false) (below : a.toNat < s.params.nsym)
    (notFull : s.count a.toNat ≠ s.params.cntMax) :
    exec (.histSym a) s = .next (s.writeFreq a.toNat (s.count a.toNat + 1) 1) := by
  refine command_of_ok noFault ?_
  rw [checkSym_of_lt below, beq_eq_false_iff_ne.2 notFull]
  rfl

/-- FREQ_LD of a Symbol that is not in the table, with a count of CNT_W bits that is not 0 in ARG (R105). -/
theorem exec_freqLd {a : Operand} (noFault : s.fault = false) (below : a.toNat < s.params.nsym)
    (nonzero : s.arg.toNat ≠ 0) (fits : s.arg.toNat < 2 ^ s.params.cntW) (unused : s.count a.toNat = 0) :
    exec (.freqLd a) s = .next (s.writeFreq a.toNat s.arg.toNat s.arg.toNat) := by
  refine command_of_ok noFault ?_
  rw [checkSym_of_lt below, beq_eq_false_iff_ne.2 nonzero, decide_eq_false (Nat.not_le.2 fits), unused]
  rfl

/-- FREQ_RD of a Symbol below NSYM (R106). -/
theorem exec_freqRd {a : Operand} (noFault : s.fault = false) (below : a.toNat < s.params.nsym) :
    exec (.freqRd a) s = .next (s.setRes (zext32 (s.count a.toNat)) 0 0 0) :=
  command_of_ok noFault (checkSym_of_lt below _)

/-! ### The obligations about the three commands -/

/-- Settles O15: the two checks in their order, then the frequency write of the count plus one. -/
theorem histSymCountsOneToken : Obligations.HistSymCountsOneToken := by
  intro s a
  refine ⟨fun inFault => command_of_fault inFault, fun noFault above => ?_, fun noFault below full => ?_,
    fun noFault below notFull => ?_⟩
  · exact raises_of_error rfl noFault (checkSym_of_ge above _)
  · refine raises_of_error (k := .countOverflow) rfl noFault ?_
    rw [checkSym_of_lt below, full]
    simp [Params.cntMax]
  · exact ⟨_, exec_histSym noFault below notFull, State.writeFreq_count_self 1 (Nat.succ_ne_zero _),
      fun u other => State.writeFreq_count_of_ne _ 1 other, rfl, State.writeFreq_frame ..⟩

/-- Settles O16: the four checks in their order, then the frequency write of ARG. -/
theorem freqLdLoadsOneEntry : Obligations.FreqLdLoadsOneEntry := by
  intro s a
  have toNat_ne_zero (nonzero : s.arg ≠ 0) : s.arg.toNat ≠ 0 := by simpa [BitVec.toNat_eq] using nonzero
  refine ⟨fun inFault => command_of_fault inFault, fun noFault above => ?_, fun noFault below zero => ?_,
    fun noFault below nonzero wide => ?_, fun noFault below nonzero fits used => ?_,
    fun noFault below nonzero fits unused => ?_⟩
  · exact raises_of_error rfl noFault (checkSym_of_ge above _)
  · refine raises_of_error (k := .malformedFrequencyTable) rfl noFault ?_
    rw [checkSym_of_lt below, zero]
    rfl
  · refine raises_of_error (k := .countOverflow) rfl noFault ?_
    rw [checkSym_of_lt below, beq_eq_false_iff_ne.2 (toNat_ne_zero nonzero), decide_eq_true wide]
    rfl
  · refine raises_of_error (k := .malformedFrequencyTable) rfl noFault ?_
    rw [checkSym_of_lt below, beq_eq_false_iff_ne.2 (toNat_ne_zero nonzero), decide_eq_false (Nat.not_le.2 fits),
      bne_iff_ne.2 used]
    rfl
  · exact ⟨_, exec_freqLd noFault below (toNat_ne_zero nonzero) fits unused,
      State.writeFreq_count_self _ (toNat_ne_zero nonzero), fun u other => State.writeFreq_count_of_ne _ _ other, rfl,
      State.writeFreq_frame ..⟩

/-- Settles O17: the static check, then the read. -/
theorem freqRdReadsTheCount : Obligations.FreqRdReadsTheCount := by
  intro s a
  refine ⟨fun inFault => command_of_fault inFault, fun noFault above => ?_, fun noFault below => ?_⟩
  · exact raises_of_error rfl noFault (checkSym_of_ge above _)
  · exact ⟨_, exec_freqRd noFault below, zext32_toNat, rfl⟩

end Sys2Proof.Machine
end

section
/-! Serving host events, part by part: a command does the same whatever the queue and the last word read, so that a
session, a list of events served from a state, is read off event by event (20_memory.md R60, R70). -/

namespace Sys2Proof.Machine

variable {s t u : State} {i : Instr} {e : HostEvent} {es es' : List HostEvent} {ws ws' : List Word}

/-! ### The host's side of a state -/

/-- The state with another queue and another word last returned; the block does not see them (10_state.md R45). -/
def State.withHost (s : State) (queue : List HostEvent) (reply : Option Word) : State :=
  { s with pending := queue, readData := reply }

/-- Two checks that differ in the host's side alone. -/
theorem check_map (bad : Bool) (k : FaultKind) (r : Except FaultKind State) (f : State → State) :
    check bad k (r.map f) = (check bad k r).map f := by
  cases bad <;> rfl

/-- A command in its frame whose body follows the host's side does so itself. -/
theorem command_withHost {body body' : Except FaultKind State} {queue : List HostEvent} {reply : Option Word}
    (follows : body' = body.map fun u => u.withHost queue reply) (run : command i s body = .next t) :
    command i (s.withHost queue reply) body' = .next (t.withHost queue reply) := by
  subst follows
  obtain ⟨hf, rfl⟩ | ⟨hf, rfl⟩ | ⟨hf, k, rfl, rfl⟩ := command_cases run
  · exact command_of_fault hf
  · exact command_of_ok hf rfl
  · exact command_of_error hf rfl

/-- What a command does to the block does not depend on the host's side (10_state.md R45). -/
theorem exec_withHost (queue : List HostEvent) (reply : Option Word) (run : exec i s = .next t) :
    exec i (s.withHost queue reply) = .next (t.withHost queue reply) := by
  cases i with
  | clrAll =>
    obtain rfl : s.clear = t := Host.Outcome.next.inj run
    rfl
  | nop | treeBuild | pack =>
    rw [exec] at run ⊢
    exact command_withHost rfl run
  | histSym | freqLd | freqRd | codeRd | encSym | codeGen | decode | bitsRd | blobPush =>
    refine command_withHost ?_ run
    simp only [checkSym, ← check_map]
    rfl
  | nodeRd idx =>
    refine command_withHost ?_ run
    rw [← check_map]
    change check _ _ (match s.node[idx.toNat]? with | none => _ | some n => _) = _
    cases s.node[idx.toNat]? <;> rfl
  | symRd idx =>
    refine command_withHost ?_ run
    change (match s.symBuf[idx.toNat]? with | none => _ | some n => _) = _
    cases s.symBuf[idx.toNat]? <;> rfl
  | blobRd idx =>
    refine command_withHost ?_ run
    change (match s.blob[idx.toNat]? with | none => _ | some n => _) = _
    cases s.blob[idx.toNat]? <;> rfl
  | unpack =>
    refine command_withHost ?_ run
    change (match s.blob with | [] => _ | b :: data => _) = _
    cases blob : s.blob with
    | nil => rfl
    | cons b data =>
      simp only [← check_map, ← blob]
      rfl

/-! ### Every event has a next state (45_control.md R203) -/

/-- Every command but CLR_ALL runs in the frame of `command`. -/
theorem exec_eq_command (notClear : i ≠ .clrAll) (s : State) : ∃ body, exec i s = command i s body := by
  cases i with
  | clrAll => exact absurd rfl notClear
  | nop | treeBuild | pack =>
    rw [exec]
    exact ⟨_, rfl⟩
  | _ => exact ⟨_, rfl⟩

/-- While FAULT = 1 every command but CLR_ALL is ignored (60_exceptions.md R247). -/
theorem exec_of_fault (inFault : s.fault = true) (notClear : i ≠ .clrAll) : exec i s = .next s := by
  obtain ⟨body, frame⟩ := exec_eq_command notClear s
  exact frame.trans (command_of_fault inFault)

theorem exec_next (i : Instr) (s : State) : ∃ t, exec i s = .next t := by
  by_cases clears : i = .clrAll
  · exact ⟨s.clear, clears ▸ rfl⟩
  · obtain ⟨body, frame⟩ := exec_eq_command clears s
    exact frame ▸ command_next i s body

/-- The word of CLR_ALL is that of no other command. -/
theorem encode_eq_clrAllWord (same : i.encode = clrAllWord) (legal : i.wellFormed s.params = true) : i = .clrAll := by
  have decoded := decode_encode legal
  rw [same, show clrAllWord = Instr.clrAll.encode by decide, decode_encode rfl] at decoded
  exact (Except.ok.inj decoded).symm

/-- Writing the word of a well-formed command to CMD runs the command, in the fault state too (45_control.md R202). -/
theorem cmdWrite_encode (legal : i.wellFormed s.params = true) : cmdWrite i.encode s = exec i s := by
  unfold cmdWrite
  split
  · rename_i inFault
    split
    · rename_i same
      rw [encode_eq_clrAllWord same legal]
    · rename_i other
      refine (exec_of_fault inFault fun clears => other ?_).symm
      rw [clears]
      decide
  · rw [decode_encode legal]

theorem cmdWrite_next (w : Word) (s : State) : ∃ t, cmdWrite w s = .next t := by
  unfold cmdWrite
  split
  · split
    · exact exec_next _ _
    · exact ⟨_, rfl⟩
  · split
    · exact ⟨_, rfl⟩
    · exact exec_next _ _

theorem hostEvent_next (e : HostEvent) (s : State) : ∃ t, hostEvent e s = .next t := by
  cases e with
  | resetPin asserted => exact ⟨_, rfl⟩
  | regRead index =>
    rw [hostEvent]
    split <;> exact ⟨_, rfl⟩
  | regWrite index v =>
    rw [hostEvent]
    split
    · exact ⟨_, rfl⟩
    · unfold portWrite
      split
      · exact cmdWrite_next v s
      · exact ⟨_, rfl⟩
      · exact ⟨_, rfl⟩

/-- Only the reset input itself changes the reset input (70_reset_and_hazards.md R270). -/
theorem hostEvent_resetPin (run : hostEvent e s = .next t) (other : ∀ b, e ≠ .resetPin b) :
    t.resetPin = s.resetPin := by
  cases e with
  | resetPin asserted => exact absurd rfl (other asserted)
  | regRead index =>
    rw [hostEvent] at run
    split at run <;> obtain rfl := Host.Outcome.next.inj run <;> rfl
  | regWrite index v =>
    rw [hostEvent] at run
    split at run
    · obtain rfl := Host.Outcome.next.inj run
      rfl
    · obtain rfl | rfl | run := portWrite_cases run
      · rfl
      · rfl
      · obtain rfl | ⟨-, rfl⟩ | ⟨i, run⟩ := cmdWrite_cases run
        · rfl
        · rfl
        · exact (exec_ends run).host_eq.2.2.2

/-! ### Every event leaves the queue alone -/

theorem cmdWrite_withHost {w : Word} (queue : List HostEvent) (reply : Option Word) (run : cmdWrite w s = .next t) :
    cmdWrite w (s.withHost queue reply) = .next (t.withHost queue reply) := by
  unfold cmdWrite at run ⊢
  change (if s.fault then _ else match decode s.params w with | .error _ => _ | .ok i => _) = _
  split
  · rename_i inFault
    rw [if_pos inFault] at run
    split
    · rename_i clears
      rw [if_pos clears] at run
      exact exec_withHost queue reply run
    · rename_i other
      rw [if_neg other] at run
      obtain rfl := Host.Outcome.next.inj run
      rfl
  · rename_i noFault
    rw [if_neg noFault] at run
    cases answer : decode s.params w with
    | error reason =>
      rw [answer] at run
      obtain rfl := Host.Outcome.next.inj run
      rfl
    | ok i =>
      rw [answer] at run
      exact exec_withHost queue reply run

/-- A write to CMD returns no word. -/
theorem cmdWrite_readData {w : Word} (run : cmdWrite w s = .next t) : t.readData = s.readData := by
  obtain rfl | ⟨-, rfl⟩ | ⟨i, run⟩ := cmdWrite_cases run
  · rfl
  · rfl
  · exact (exec_ends run).host_eq.2.2.1

/-- What an event does, and what it returns, does not depend on the events after it (20_memory.md R70). -/
theorem hostEvent_withHost (queue : List HostEvent) (run : hostEvent e s = .next t) :
    hostEvent e (s.withHost queue s.readData) = .next (t.withHost queue t.readData) := by
  cases e with
  | resetPin asserted =>
    obtain rfl := Host.Outcome.next.inj run
    cases asserted
    · cases pin : s.resetPin <;> simp [hostEvent, driveReset, State.withHost, pin]
    · rfl
  | regRead index =>
    rw [hostEvent] at run ⊢
    split at run <;> obtain rfl := Host.Outcome.next.inj run
    · rename_i pin
      exact if_pos pin
    · rename_i pin
      exact if_neg pin
  | regWrite index v =>
    rw [hostEvent] at run ⊢
    change (if s.resetPin then _ else _) = _
    split at run
    · rename_i pin
      obtain rfl := Host.Outcome.next.inj run
      exact if_pos pin
    · rename_i pin
      rw [if_neg pin]
      unfold portWrite at run ⊢
      split at run
      · rw [cmdWrite_readData run]
        exact cmdWrite_withHost _ _ run
      · obtain rfl := Host.Outcome.next.inj run
        rfl
      · obtain rfl := Host.Outcome.next.inj run
        rfl

/-! ### Serving a list of events -/

@[simp] theorem State.serve_nil (s : State) : s.serve [] = some ([], { s with pending := [] }) := rfl

/-- Serving a list is serving its first event, then the rest (20_memory.md R60, R70). -/
theorem State.serve_cons (es : List HostEvent) (run : hostEvent e (s.accept []) = .next t) :
    s.serve (e :: es) = (t.serve es).map fun x => (t.readData.toList ++ x.1, x.2) :=
  State.replies_succ (s := { s with pending := e :: es }) (hostEvent_withHost es run)

theorem State.serve_append (s : State) (es es' : List HostEvent) :
    s.serve (es ++ es') = (s.serve es).bind fun x => (x.2.serve es').map fun y => (x.1 ++ y.1, y.2) := by
  induction es generalizing s with
  | nil => exact Option.map_id'.symm
  | cons e es ih =>
    obtain ⟨t, run⟩ := hostEvent_next e (s.accept [])
    rw [List.cons_append, State.serve_cons _ run, State.serve_cons _ run, ih]
    cases t.serve es with
    | none => rfl
    | some x => cases h : x.2.serve es' <;> simp [h]

/-- Every list of events is served to its end (45_control.md R203). -/
theorem State.exists_serve (s : State) (es : List HostEvent) : ∃ ws t, s.serve es = some (ws, t) := by
  induction es generalizing s with
  | nil => exact ⟨_, _, rfl⟩
  | cons e es ih =>
    obtain ⟨t, run⟩ := hostEvent_next e (s.accept [])
    obtain ⟨ws, u, served⟩ := ih t
    exact ⟨_, _, by rw [State.serve_cons _ run, served]; rfl⟩

/-- The words an event list returns and the state it leaves do not depend on what was queued or returned before. -/
theorem State.serve_accept (s : State) (queue : List HostEvent) (e : HostEvent) (es : List HostEvent) :
    (s.accept queue).serve (e :: es) = s.serve (e :: es) := by
  obtain ⟨t, run⟩ := hostEvent_next e (s.accept [])
  rw [State.serve_cons es run, State.serve_cons (s := s.accept queue) es run]

/-- Port operations leave the reset input. -/
theorem State.serve_resetPin (served : s.serve es = some (ws, t)) (port : ∀ b, .resetPin b ∉ es) :
    t.resetPin = s.resetPin := by
  induction es generalizing s ws with
  | nil =>
    obtain ⟨-, rfl⟩ := Prod.ext_iff.1 (Option.some.inj served)
    rfl
  | cons e es ih =>
    obtain ⟨u, run⟩ := hostEvent_next e (s.accept [])
    rw [State.serve_cons es run, Option.map_eq_some_iff] at served
    obtain ⟨⟨ws', t'⟩, rest, result⟩ := served
    obtain ⟨-, rfl⟩ := Prod.ext_iff.1 result
    exact (ih rest fun b hb => port b (List.mem_cons_of_mem e hb)).trans
      (hostEvent_resetPin (s := s.accept []) run fun b same => port b (same ▸ List.mem_cons_self))

/-! ### Sessions -/

/-- Serving `es` from `s` returns the words `ws` and leaves `t`, the queue and the last word returned aside. -/
def Session (s : State) (es : List HostEvent) (ws : List Word) (t : State) : Prop :=
  ∃ u, s.serve es = some (ws, u) ∧ u.accept [] = t.accept []

/-- States that differ in the queue and the last word returned alone have the same block. -/
theorem State.toBlock_eq_of_accept (same : s.accept [] = t.accept []) : s.toBlock = t.toBlock := by
  have block := congrArg State.toBlock same
  exact block

theorem State.params_eq_of_accept (same : s.accept [] = t.accept []) : s.params = t.params := by
  have params := congrArg State.params same
  exact params

theorem State.resetPin_eq_of_accept (same : s.accept [] = t.accept []) : s.resetPin = t.resetPin := by
  have pin := congrArg State.resetPin same
  exact pin

theorem State.readReg_eq_of_accept (same : s.accept [] = t.accept []) (r : Reg) : s.readReg r = t.readReg r := by
  have value := congrArg (State.readReg · r) same
  cases r <;> exact value

namespace Session

theorem nil_iff : Session s [] ws t ↔ ws = [] ∧ s.accept [] = t.accept [] := by
  simp only [Session, State.serve_nil, Option.some.injEq, Prod.mk.injEq]
  constructor
  · rintro ⟨u, ⟨rfl, rfl⟩, h⟩
    exact ⟨rfl, h⟩
  · rintro ⟨rfl, h⟩
    exact ⟨_, ⟨rfl, rfl⟩, h⟩

theorem nil (s : State) : Session s [] [] s := nil_iff.2 ⟨rfl, rfl⟩

theorem of_serve (served : s.serve es = some (ws, t)) : Session s es ws t := ⟨t, served, rfl⟩

/-- A session does not depend on what was queued or returned before it. -/
theorem congr_left (same : s.accept [] = t.accept []) : Session s es ws u ↔ Session t es ws u := by
  cases es with
  | nil => rw [nil_iff, nil_iff, same]
  | cons e es => rw [Session, Session, ← State.serve_accept s [], ← State.serve_accept t [], same]

theorem congr_right (same : t.accept [] = u.accept []) : Session s es ws t ↔ Session s es ws u := by
  rw [Session, Session, same]

/-- One session after another. -/
theorem append (first : Session s es ws t) (second : Session t es' ws' u) :
    Session s (es ++ es') (ws ++ ws') u := by
  obtain ⟨t', served, same⟩ := first
  obtain ⟨u', served', same'⟩ := (congr_left same).2 second
  exact ⟨u', by simp [State.serve_append, served, served'], same'⟩

/-- A session has one outcome. -/
theorem unique (one : Session s es ws t) (other : Session s es ws' u) : ws = ws' ∧ t.accept [] = u.accept [] := by
  obtain ⟨t', served, same⟩ := one
  obtain ⟨u', served', same'⟩ := other
  obtain ⟨rfl, rfl⟩ := Prod.ext_iff.1 (Option.some.inj (served.symm.trans served'))
  exact ⟨rfl, same.symm.trans same'⟩

/-- The first part of a session fixes how the rest begins. -/
theorem append_iff (first : Session s es ws t) :
    Session s (es ++ es') (ws ++ ws') u ↔ Session t es' ws' u := by
  refine ⟨fun whole => ?_, first.append⟩
  obtain ⟨v, u', rest⟩ := t.exists_serve es'
  obtain ⟨words, same⟩ := whole.unique (first.append (of_serve rest))
  rw [List.append_cancel_left words]
  exact (congr_right same).2 (of_serve rest)

/-! ### The three events of the host's programs -/

/-- A well-formed command (30_encoding.md R87). -/
theorem cmd (running : s.resetPin = false) (legal : i.wellFormed s.params = true) (run : exec i s = .next t) :
    Session s [cmdEvent i] [] t := by
  have served : hostEvent (cmdEvent i) (s.accept []) = .next (t.accept []) := by
    refine (if_neg (by simp [running])).trans ?_
    exact (cmdWrite_encode (s := s.accept []) legal).trans (exec_withHost [] none run)
  exact ⟨_, State.serve_cons [] served, rfl⟩

/-- A write to ARG (30_encoding.md R87). -/
theorem arg (running : s.resetPin = false) (v : Word) : Session s [argEvent v] [] { s with arg := v } :=
  ⟨_, State.serve_cons [] (t := { s.accept [] with arg := v }) (if_neg (by simp [running])), rfl⟩

/-- A read of a register (30_encoding.md R87). -/
theorem read (running : s.resetPin = false) (r : Reg) : Session s [readEvent r] [s.readReg r] s := by
  have mapped : (s.accept []).portRead r.index = s.readReg r := by cases r <;> rfl
  refine ⟨_, State.serve_cons [] (t := { s.accept [] with readData := some (s.readReg r) }) ?_, rfl⟩
  exact (if_neg (by simp [running])).trans (by rw [mapped])

end Session

end Sys2Proof.Machine
end

section
/-! Runs of commands that all complete: what a session without a fault is made of, and the counting pass
(40_frequency_histogram.md R103, R104). -/

namespace Sys2Proof.Machine

variable {s t u : State} {is js : List Instr} {ws : List Word} {es : List HostEvent}

/-! ### Commands that complete one after the other -/

/-- Every command of the list completes, from `s` to the state after the last. -/
inductive CompletesAll : State → List Instr → State → Prop
  | nil (s : State) : CompletesAll s [] s
  | cons {s t u : State} {i : Instr} {is : List Instr} (effect : Completes s i t) (rest : CompletesAll t is u) :
      CompletesAll s (i :: is) u

theorem completesAll_append_iff : CompletesAll s (is ++ js) u ↔ ∃ t, CompletesAll s is t ∧ CompletesAll t js u := by
  induction is generalizing s with
  | nil =>
    refine ⟨fun run => ⟨s, .nil s, run⟩, ?_⟩
    rintro ⟨_, ⟨⟩, run⟩
    exact run
  | cons i is ih =>
    constructor
    · rintro (_ | ⟨effect, rest⟩)
      obtain ⟨t, first, second⟩ := ih.1 rest
      exact ⟨t, .cons effect first, second⟩
    · rintro ⟨t, _ | ⟨effect, rest⟩, second⟩
      exact .cons effect (ih.2 ⟨t, rest, second⟩)

/-- Completed commands keep the invariant and raise no fault. -/
theorem CompletesAll.keeps_inv (run : CompletesAll s is t) (h : s.Inv) (noFault : s.fault = false) :
    t.Inv ∧ t.fault = false := by
  induction run with
  | nil => exact ⟨h, noFault⟩
  | cons effect _ ih => exact ih (h.completes noFault effect) (effect.fault_eq.trans noFault)

/-- In a session of commands without CLR_ALL that ends without a fault, every command completes: a fault would stay to
the end (60_exceptions.md R247). -/
theorem Session.completesAll (served : Session s (is.map cmdEvent) ws u) (running : s.resetPin = false)
    (legal : ∀ i ∈ is, i.wellFormed s.params = true ∧ i ≠ .clrAll) (noFault : u.fault = false) :
    s.fault = false ∧ ∃ t, CompletesAll s is t ∧ t.accept [] = u.accept [] := by
  induction is generalizing s with
  | nil =>
    obtain ⟨-, same⟩ := Session.nil_iff.1 served
    exact ⟨(congrArg Block.fault (State.toBlock_eq_of_accept same)).trans noFault, s, .nil s, same⟩
  | cons i is ih =>
    obtain ⟨wellFormed, notClear⟩ := legal i (by simp)
    obtain ⟨t, run⟩ := exec_next i s
    obtain ⟨params, -, -, pin⟩ := (exec_ends run).host_eq
    obtain ⟨noFault', u', rest, same⟩ := ih ((Session.append_iff (.cmd running wellFormed run)).1 served)
      (pin.trans running) fun j hj => params ▸ legal j (List.mem_cons_of_mem i hj)
    cases exec_ends run with
    | cleared clears => exact absurd clears notClear
    | ignored inFault => simp [inFault] at noFault'
    | faulted => cases noFault'
    | completed before effect => exact ⟨before, u', .cons effect rest, same⟩

/-- A session is a run (20_memory.md R60, R70). -/
theorem Session.runs (served : Session s es ws t) : ∃ u, s.runs es = .next u ∧ u.accept [] = t.accept [] := by
  obtain ⟨u, h, same⟩ := served
  exact ⟨u, (State.runs_eq_next_iff s u es).2 ⟨ws, h⟩, same⟩

/-! ### The counting pass -/

/-- What a HIST_SYM that completes does (R104). -/
theorem Completes.eq_writeFreq {a : Operand} (effect : Completes s (.histSym a) t) :
    t = s.writeFreq a.toNat (s.count a.toNat + 1) 1 := by
  cases effect with
  | histSym => rfl
  | read _ reads => cases reads

/-- A counting pass that completes adds to every count the number of the Symbol's occurrences (R104). -/
theorem CompletesAll.counting {tokens : List Operand} (run : CompletesAll s (tokens.map .histSym) t) :
    t.bits = s.bits ∧ t.params = s.params ∧ t.tokCnt = s.tokCnt + tokens.length ∧
      ∀ x, t.count x = s.count x + (tokens.map fun y => y.toNat).count x := by
  induction tokens generalizing s with
  | nil =>
    cases run
    exact ⟨rfl, rfl, rfl, fun x => rfl⟩
  | cons a tokens ih =>
    obtain _ | ⟨effect, rest⟩ := run
    obtain rfl := effect.eq_writeFreq
    obtain ⟨bits, params, tokCnt, counts⟩ := ih rest
    refine ⟨bits, params, ?_, fun x => (counts x).trans ?_⟩
    · rw [tokCnt, State.writeFreq_tokCnt, List.length_cons]
      omega
    by_cases hx : x = a.toNat
    · subst hx
      rw [State.writeFreq_count_self 1 (Nat.succ_ne_zero _), List.map_cons, List.count_cons_self]
      omega
    · rw [State.writeFreq_count_of_ne _ 1 hx, List.map_cons, List.count_cons_of_ne (Ne.symm hx)]

/-- A counting pass over Symbols below NSYM completes when no count reaches 2^CNT_W (R104). -/
theorem exists_counting {tokens : List Operand} (running : s.resetPin = false) (noFault : s.fault = false)
    (below : ∀ x ∈ tokens, x.toNat < s.params.nsym)
    (fits : ∀ x, s.count x + (tokens.map fun y => y.toNat).count x < 2 ^ s.params.cntW) :
    ∃ t, CompletesAll s (tokens.map .histSym) t ∧ Session s (countEvents tokens) [] t ∧ t.fault = false := by
  induction tokens generalizing s with
  | nil => exact ⟨s, .nil s, .nil s, noFault⟩
  | cons a tokens ih =>
    have belowA := below a (by simp)
    have notFull : s.count a.toNat ≠ s.params.cntMax := by
      have := fits a.toNat
      rw [List.map_cons, List.count_cons_self] at this
      rw [Params.cntMax]
      omega
    have effect : Completes s (.histSym a) (s.writeFreq a.toNat (s.count a.toNat + 1) 1) := .histSym a belowA notFull
    have one : CompletesAll s ([a].map .histSym) (s.writeFreq a.toNat (s.count a.toNat + 1) 1) := .cons effect (.nil _)
    obtain ⟨t, rest, served, noFault'⟩ := ih (s := s.writeFreq a.toNat (s.count a.toNat + 1) 1) running noFault
      (fun x hx => below x (by simp [hx])) fun x => by
        obtain ⟨-, -, -, counts⟩ := one.counting
        have := fits x
        simp only [List.map_cons, List.map_nil, List.count_cons, List.count_nil] at this counts
        rw [counts, State.writeFreq_params]
        omega
    have first := Session.cmd (i := .histSym a) running (decide_eq_true belowA) (exec_histSym noFault belowA notFull)
    exact ⟨t, .cons effect rest, first.append served, noFault'⟩

/-- Settles O45: the counting pass completes from ResetState, and adds the occurrences to counts that are all 0. -/
theorem countingPassCountsOccurrences : Obligations.CountingPassCountsOccurrences := by
  intro s tokens reset running below fits
  have empty : s.freq = [] := congrArg Block.freq reset
  have zero (x : Nat) : s.count x = 0 := by rw [State.count, empty, Memory.read_nil]
  have fitsNat (x : Nat) : s.count x + (tokens.map fun y => y.toNat).count x < 2 ^ s.params.cntW := by
    rw [zero, Nat.zero_add]
    by_cases listed : x ∈ tokens.map fun y => y.toNat
    · obtain ⟨y, -, rfl⟩ := List.mem_map.1 listed
      rw [List.count_map_of_injective tokens _ (fun _ _ => BitVec.eq_of_toNat_eq)]
      exact fits y
    · rw [List.count_eq_zero_of_not_mem listed]
      exact Nat.two_pow_pos _
  obtain ⟨t, run, served, noFault⟩ := exists_counting running (congrArg Block.fault reset) below fitsNat
  obtain ⟨-, -, tokCnt, counts⟩ := run.counting
  obtain ⟨u, runs, same⟩ := served.runs
  have block : u.toBlock = t.toBlock := State.toBlock_eq_of_accept same
  refine ⟨u, runs, (congrArg Block.fault block).trans noFault, (congrArg Block.tokCnt block).trans ?_, fun x => ?_⟩
  · rw [tokCnt, show s.tokCnt = 0 from congrArg Block.tokCnt reset, Nat.zero_add]
  · refine (congrArg (fun b : Block => Memory.read 0 b.freq x) block).trans ((counts x).trans ?_)
    rw [zero, Nat.zero_add]

end Sys2Proof.Machine
end

section
/-! Encoding and decoding are inverse: the codes of a built arena lead the decoder back to their Symbols
(49_properties.md R217), and unpacking undoes packing (44_byte_packer.md R186). -/

namespace Sys2Proof.Machine

/-! ### The codec -/

/-- The code of a Leaf, after the path to the subtree, leads from the root of the subtree to the Leaf
(42_code_table.md R141). -/
theorem TreeAt.follow_of_mem_codes {arena : List Node} {i : Nat} {t : CodeTree} (h : TreeAt arena i t) {path : Bits}
    {c : Nat × Bits} (hc : c ∈ t.codes path) :
    ∃ steps j w, c.2 = path ++ steps ∧ follow arena i steps = some j ∧ arena[j]? = some (.leaf c.1 w) := by
  induction h generalizing path with
  | leaf here =>
    obtain rfl := List.mem_singleton.1 hc
    exact ⟨[], _, _, (List.append_nil _).symm, rfl, here⟩
  | node here _ _ left right =>
    obtain hc | hc := List.mem_append.1 hc
    · obtain ⟨steps, j, w, code, leads, landed⟩ := left hc
      exact ⟨false :: steps, j, w, by simp [code], by simp [follow, here, leads], landed⟩
    · obtain ⟨steps, j, w, code, leads, landed⟩ := right hc
      exact ⟨true :: steps, j, w, by simp [code], by simp [follow, here, leads], landed⟩

@[simp] theorem decodeBits_nil (arena : List Node) : decodeBits arena [] = [] := by
  unfold decodeBits
  split <;> rfl

/-- DECODE turns the code of a Symbol back into the Symbol and goes on from the root (43_bitstream_codec.md R161,
R162). -/
theorem TreeAt.decodeBits_append {arena : List Node} {t : CodeTree} (h : TreeAt arena (arena.length - 1) t)
    {c : Nat × Bits} (hc : c ∈ t.rootCodes) (rest : Bits) :
    decodeBits arena (c.2 ++ rest) = c.1 :: decodeBits arena rest := by
  simp only [decodeBits, List.getLast?_eq_getElem?]
  cases h with
  | leaf here =>
    obtain rfl := List.mem_singleton.1 hc
    simp [here]
  | node here left right =>
    obtain ⟨steps, j, w, code, leads, landed⟩ := (TreeAt.node here left right).follow_of_mem_codes hc
    have nonempty := CodeTree.snd_ne_nil_of_mem_rootCodes hc
    rw [code, List.nil_append] at nonempty ⊢
    obtain ⟨b, path, rfl⟩ := List.exists_cons_of_ne_nil nonempty
    simp only [here]
    exact walkBits_leaf_path arena _ _ j c.1 w b path rest leads landed

/-- With an empty arena no Symbol has a count (41_tree_builder.md R124). -/
theorem eq_nil_of_buildArena_eq_nil {p : Params} {freq : Memory Nat} {syms : List Nat}
    (coded : ∀ x ∈ syms, x < p.nsym ∧ Memory.read 0 freq x ≠ 0) (empty : buildArena p freq = []) : syms = [] :=
  List.eq_nil_iff_forall_not_mem.2 fun x hx => by
    simpa [empty, arenaSymbols] using mem_arenaSymbols_buildArena.2 (coded x hx)

/-- What ENC_SYM appended for Symbols of the table, DECODE turns back into those Symbols (R217). -/
theorem decodeBits_codesOf_buildArena (p : Params) (freq : Memory Nat) {syms : List Nat}
    (coded : ∀ x ∈ syms, x < p.nsym ∧ Memory.read 0 freq x ≠ 0) :
    decodeBits (buildArena p freq) (codesOf (codeTable (buildArena p freq)) syms) = syms := by
  by_cases empty : buildArena p freq = []
  · obtain rfl := eq_nil_of_buildArena_eq_nil coded empty
    exact decodeBits_nil _
  · obtain ⟨t, root, size, symbols⟩ := exists_tree_of_buildArena p freq empty
    have distinct : (t.rootCodes.map Prod.fst).Nodup := by
      rw [t.rootCodes_map_fst, symbols.nodup_iff]
      exact arenaSymbols_buildArena_nodup p freq
    have code (x : Nat) (hx : x ∈ syms) :
        (x, Memory.read [] (codeTable (buildArena p freq)) x) ∈ t.rootCodes := by
      rw [root.codeTable_eq size]
      refine (read_writeCodes_nil distinct (fun c => CodeTree.snd_ne_nil_of_mem_rootCodes) x).2 ?_
      rw [t.rootCodes_map_fst, symbols.mem_iff]
      exact mem_arenaSymbols_buildArena.2 (coded x hx)
    clear coded
    induction syms with
    | nil => exact decodeBits_nil _
    | cons x syms ih =>
      rw [codesOf, List.map_cons, List.flatten_cons, root.decodeBits_append (code x (by simp))]
      exact congrArg (x :: ·) (ih fun y hy => code y (by simp [hy]))

/-! ### The byte packer -/

/-- Unpacking a packed bitstring, less its padding, gives the bitstring back (R186). -/
theorem dataBits_packBits (b : Bits) :
    ∃ data, packBits b = BitVec.ofNat 8 (padding b.length) :: data ∧
      8 * data.length = b.length + padding b.length ∧ dataBits data b.length = b := by
  have whole := add_padding_mod b.length
  refine ⟨_, rfl, by rw [List.length_map, List.length_range]; omega, ?_⟩
  refine List.ext_getElem? fun x => ?_
  by_cases hx : x < b.length
  · rw [dataBits_getElem? _ _ _ hx, List.getD_eq_getElem?_getD, List.getElem?_map,
      List.getElem?_range (by omega)]
    simp only [Option.map_some, Option.getD_some]
    rw [bitsByte_getLsbD _ _ _ (Nat.mod_lt x (by decide)), Nat.div_add_mod, List.getElem?_eq_getElem hx]
    rfl
  · rw [List.getElem?_eq_none (by simpa using hx), List.getElem?_eq_none (by simpa using hx)]

end Sys2Proof.Machine
end

section
/-! The compress sequence: the state it leaves when it raises no fault (70_reset_and_hazards.md R275). -/

namespace Sys2Proof.Machine

variable {s t u : State} {ws : List Word} {tokens : List Operand}

/-- The commands of the compress sequence after CLR_ALL (R275). -/
def compressCommands (tokens : List Operand) : List Instr :=
  tokens.map .histSym ++ ([.treeBuild, .codeGen] ++ (tokens.map .encSym ++ [.pack]))

theorem compressEvents_eq (tokens : List Operand) :
    compressEvents tokens = [cmdEvent .clrAll] ++ (compressCommands tokens).map cmdEvent := by
  simp [compressEvents, compressCommands, countEvents, encodeEvents, Function.comp_def]

/-- With Symbols below NSYM every one of them is well-formed, and none is CLR_ALL. -/
theorem compressCommands_legal {p : Params} (below : ∀ x ∈ tokens, x.toNat < p.nsym) :
    ∀ i ∈ compressCommands tokens, i.wellFormed p = true ∧ i ≠ .clrAll := by
  intro i hi
  simp only [compressCommands, List.mem_append, List.mem_map, List.mem_cons, List.not_mem_nil, or_false] at hi
  obtain ⟨x, hx, rfl⟩ | (rfl | rfl) | ⟨x, hx, rfl⟩ | rfl := hi
  · exact ⟨decide_eq_true (below x hx), nofun⟩
  · exact ⟨rfl, nofun⟩
  · exact ⟨rfl, nofun⟩
  · exact ⟨decide_eq_true (below x hx), nofun⟩
  · exact ⟨rfl, nofun⟩

/-- Completed commands leave the parameters and the reset input (10_state.md R45). -/
theorem CompletesAll.host_eq {is : List Instr} (run : CompletesAll s is t) :
    t.params = s.params ∧ t.resetPin = s.resetPin := by
  induction run with
  | nil => exact ⟨rfl, rfl⟩
  | cons effect _ ih => cases effect <;> exact ih

/-- An encoding pass that completes appends the codes of its Symbols (43_bitstream_codec.md R160). -/
theorem CompletesAll.encoding (run : CompletesAll s (tokens.map .encSym) t) :
    t = { s with bits := s.bits ++ codesOf s.code (tokens.map fun y => y.toNat) } := by
  induction tokens generalizing s with
  | nil =>
    cases run
    simp [codesOf]
  | cons a tokens ih =>
    obtain _ | ⟨effect, rest⟩ := run
    cases effect with
    | encSym => simpa [codesOf, State.codeOf] using ih rest
    | read _ reads => cases reads

/-- TREE_BUILD and CODE_GEN, both completed, set the two flags and leave the table and the bits (41_tree_builder.md R120,
42_code_table.md R140). -/
theorem CompletesAll.building (run : CompletesAll s [.treeBuild, .codeGen] t) :
    t.freq = s.freq ∧ t.bits = s.bits ∧ t.treeValid = true ∧ t.codeValid = true := by
  obtain _ | ⟨build, _ | ⟨generate, _ | _⟩⟩ := run
  cases build with
  | read _ reads => cases reads
  | treeBuild =>
    cases generate with
    | read _ reads => cases reads
    | codeGen => exact ⟨rfl, rfl, rfl, rfl⟩

/-- PACK, completed (44_byte_packer.md R180). -/
theorem CompletesAll.packing (run : CompletesAll s [.pack] t) : t = { s with blob := packBits s.bits } := by
  obtain _ | ⟨effect, _ | _⟩ := run
  cases effect with
  | pack => rfl
  | read _ reads => cases reads

/-- What a compress sequence without a fault leaves: the counts of the tokens, the tree and the codes of these counts,
the codes of the tokens as the bitstring and its packed form as the blob. -/
structure Compressed (tokens : List Operand) (t : State) : Prop where
  inv : t.Inv
  counts : ∀ x, t.count x = (tokens.map fun y => y.toNat).count x
  treeValid : t.treeValid = true
  codeValid : t.codeValid = true
  bits : t.bits = codesOf t.code (tokens.map fun y => y.toNat)
  blob : t.blob = packBits t.bits

theorem Compressed.congr (h : Compressed tokens t) (same : t.accept [] = u.accept []) : Compressed tokens u := by
  have block := State.toBlock_eq_of_accept same
  have params := State.params_eq_of_accept same
  cases t
  cases u
  obtain rfl : _ = _ := block
  obtain rfl : _ = _ := params
  exact { h with inv := h.inv.congr rfl rfl }

/-- The commands of the compress sequence, all completed, from ResetState. -/
theorem CompletesAll.compressed (run : CompletesAll s.clear (compressCommands tokens) t) (legal : s.params.Legal) :
    Compressed tokens t := by
  obtain ⟨inv, -⟩ := run.keeps_inv (.clear legal) rfl
  obtain ⟨c, counting, run⟩ := completesAll_append_iff.1 run
  obtain ⟨g, build, run⟩ := completesAll_append_iff.1 run
  obtain ⟨e, encode, pack⟩ := completesAll_append_iff.1 run
  obtain ⟨noBits, -, -, counts⟩ := counting.counting
  obtain ⟨freq, bits, treeValid, codeValid⟩ := build.building
  obtain rfl := encode.encoding
  obtain rfl := pack.packing
  refine ⟨inv, fun x => ?_, treeValid, codeValid, ?_, rfl⟩
  · exact (congrArg (Memory.read 0 · x) freq).trans ((counts x).trans (Nat.zero_add _))
  · change g.bits ++ _ = codesOf g.code _
    rw [bits, noBits]
    rfl

/-- A compress sequence that ends without a fault has compressed its tokens (R275). -/
theorem Session.compressed (served : Session s (compressEvents tokens) ws u) (legal : s.params.Legal)
    (running : s.resetPin = false) (below : ∀ x ∈ tokens, x.toNat < s.params.nsym) (noFault : u.fault = false) :
    Compressed tokens u ∧ u.params = s.params ∧ u.resetPin = false := by
  rw [compressEvents_eq] at served
  have rest := (Session.append_iff (.cmd running rfl rfl)).1 served
  obtain ⟨-, t, run, same⟩ := rest.completesAll running (compressCommands_legal below) noFault
  obtain ⟨params, pin⟩ := run.host_eq
  exact ⟨(run.compressed legal).congr same, (State.params_eq_of_accept same).symm.trans params,
    (State.resetPin_eq_of_accept same).symm.trans (pin.trans running)⟩

namespace Compressed

theorem code_eq (h : Compressed tokens t) : t.code = codeTable (buildArena t.params t.freq) := by
  rw [(h.inv.code_valid h.codeValid).2, (h.inv.tree_valid h.treeValid).1]

/-- Every token is in the table. -/
theorem counted (h : Compressed tokens t) :
    ∀ x ∈ tokens.map fun y => y.toNat, x < t.params.nsym ∧ Memory.read 0 t.freq x ≠ 0 := by
  intro x hx
  have nonzero : t.count x ≠ 0 := by
    rw [h.counts]
    exact (List.count_pos_iff.2 hx).ne'
  exact ⟨h.inv.lt_nsym_of_count_ne_zero nonzero, nonzero⟩

/-- The bits decode, along the tree of the table, to the tokens (49_properties.md R217). -/
theorem decodeBits_eq (h : Compressed tokens t) :
    decodeBits (buildArena t.params t.freq) t.bits = tokens.map fun y => y.toNat := by
  rw [h.bits, h.code_eq]
  exact decodeBits_codesOf_buildArena _ _ h.counted

/-- With an empty tree there is no bit to decode (43_bitstream_codec.md R164). -/
theorem bits_eq_nil (h : Compressed tokens t) (empty : buildArena t.params t.freq = []) : t.bits = [] := by
  rw [h.bits, eq_nil_of_buildArena_eq_nil h.counted empty]
  rfl

end Compressed

end Sys2Proof.Machine
end

section
/-! The decompress sequence: from a table and a blob that a compress sequence left it gives the tokens back
(70_reset_and_hazards.md R276, 49_properties.md R217). -/

namespace Sys2Proof.Machine

variable {s t u : State} {i : Instr} {tokens : List Operand}

/-- A state of the invariant in which the next event of the host is performed: no fault, no reset. -/
structure Ready (s : State) : Prop where
  inv : s.Inv
  noFault : s.fault = false
  running : s.resetPin = false

/-- A command that raises no fault, as one event of the host. -/
theorem Ready.cmd (h : Ready s) (legal : i.wellFormed s.params = true) (run : exec i s = .next t)
    (noFault : t.fault = false) : Session s [cmdEvent i] [] t ∧ Ready t := by
  obtain ⟨-, -, -, pin⟩ := (exec_ends run).host_eq
  exact ⟨.cmd h.running legal run, h.inv.exec run, noFault, pin.trans h.running⟩

theorem Ready.congr (h : Ready s) (same : s.accept [] = t.accept []) : Ready t := by
  have block := State.toBlock_eq_of_accept same
  exact ⟨h.inv.congr block.symm (State.params_eq_of_accept same).symm,
    (congrArg Block.fault block).symm.trans h.noFault, (State.resetPin_eq_of_accept same).symm.trans h.running⟩

/-! ### Tables in any order -/

/-- An entry is what is read at its index where no index is listed twice. -/
theorem Memory.read_of_mem_of_nodup {m : Memory Nat} (distinct : (m.map Prod.fst).Nodup) {c : Nat × Nat} (hc : c ∈ m) :
    Memory.read 0 m c.1 = c.2 := by
  induction m with
  | nil => cases hc
  | cons e m ih =>
    rw [List.map_cons, List.nodup_cons] at distinct
    obtain ⟨notListed, distinct⟩ := distinct
    obtain rfl | hc := List.mem_cons.1 hc
    · exact if_pos rfl
    · have other : e.1 ≠ c.1 := fun same => notListed (same ▸ List.mem_map_of_mem hc)
      exact (if_neg other).trans (ih distinct hc)

theorem Memory.wf.nodup {m : Memory Nat} (hm : Memory.wf 0 m) : (m.map Prod.fst).Nodup :=
  List.pairwise_map.2 (hm.1.imp Nat.ne_of_lt)

/-- The pairs of a table read the same in any order. -/
theorem Memory.read_perm {m pairs : Memory Nat} (hm : Memory.wf 0 m) (perm : pairs.Perm m) (x : Nat) :
    Memory.read 0 pairs x = Memory.read 0 m x := by
  by_cases listed : ∃ c ∈ m, c.1 = x
  · obtain ⟨c, hc, rfl⟩ := listed
    rw [Memory.read_of_mem 0 m hm c hc]
    exact Memory.read_of_mem_of_nodup ((perm.map Prod.fst).nodup_iff.2 hm.nodup) (perm.mem_iff.2 hc)
  · rw [Memory.read_of_not_mem 0 m x fun c hc same => listed ⟨c, hc, same⟩]
    exact Memory.read_of_not_mem 0 pairs x fun c hc same => listed ⟨c, perm.mem_iff.1 hc, same⟩

/-! ### Loading the table -/

/-- A Symbol below NSYM fits the operand field (00_scope.md R5, 30_encoding.md R82). -/
theorem State.Inv.toNat_ofNat_operand (h : s.Inv) {x : Nat} (below : x < s.params.nsym) :
    (BitVec.ofNat 24 x).toNat = x := by
  have := h.nsym_le
  exact Nat.mod_eq_of_lt (by omega)

/-- A count of CNT_W bits fits a register (00_scope.md R5). -/
theorem State.Inv.lt_of_lt_cntW (h : s.Inv) {n : Nat} (fits : n < 2 ^ s.params.cntW) : n < 2 ^ 32 :=
  fits.trans_le (Nat.pow_le_pow_right (by decide) h.params_legal.2.1.2)

/-- ARG and FREQ_LD for one pair (R276). -/
theorem Ready.loadEntry (h : Ready s) {sym v : Nat} (below : sym < s.params.nsym) (nonzero : v ≠ 0)
    (fits : v < 2 ^ s.params.cntW) (unused : s.count sym = 0) :
    ∃ t, Session s [argEvent (BitVec.ofNat 32 v), cmdEvent (.freqLd (BitVec.ofNat 24 sym))] [] t ∧ Ready t ∧
      t.params = s.params ∧ t.blob = s.blob ∧ t.count sym = v ∧ ∀ x, x ≠ sym → t.count x = s.count x := by
  have operand := h.inv.toNat_ofNat_operand below
  have arg : (BitVec.ofNat 32 v).toNat = v := Nat.mod_eq_of_lt (h.inv.lt_of_lt_cntW fits)
  have ready : Ready { s with arg := BitVec.ofNat 32 v } := ⟨h.inv.argWrite _, h.noFault, h.running⟩
  have run := exec_freqLd (a := BitVec.ofNat 24 sym) ready.noFault (operand.trans_lt below) (arg.trans_ne nonzero)
    (arg.trans_lt fits) ((congrArg s.count operand).trans unused)
  obtain ⟨served, ready⟩ := ready.cmd (i := .freqLd (BitVec.ofNat 24 sym)) (decide_eq_true (operand.trans_lt below)) run
    h.noFault
  simp only [operand, arg] at served ready
  exact ⟨_, (Session.arg h.running _).append served, ready, rfl, rfl, State.writeFreq_count_self v nonzero,
    fun x other => State.writeFreq_count_of_ne v v other⟩

/-- Loading pairs with different Symbols that are not in the table yet (40_frequency_histogram.md R105). -/
theorem Ready.load {pairs : Memory Nat} (h : Ready s) (distinct : (pairs.map Prod.fst).Nodup)
    (entries : ∀ c ∈ pairs, c.1 < s.params.nsym ∧ c.2 ≠ 0 ∧ c.2 < 2 ^ s.params.cntW)
    (unused : ∀ c ∈ pairs, s.count c.1 = 0) :
    ∃ t, Session s (loadEvents pairs) [] t ∧ Ready t ∧ t.params = s.params ∧ t.blob = s.blob ∧
      ∀ x, t.count x = s.count x + Memory.read 0 pairs x := by
  induction pairs generalizing s with
  | nil => exact ⟨s, .nil s, h, rfl, rfl, fun x => rfl⟩
  | cons c pairs ih =>
    rw [List.map_cons, List.nodup_cons] at distinct
    obtain ⟨notListed, distinct⟩ := distinct
    have absent : ∀ d ∈ pairs, d.1 ≠ c.1 := fun d hd same => notListed (same ▸ List.mem_map_of_mem hd)
    obtain ⟨below, nonzero, fits⟩ := entries c (by simp)
    obtain ⟨t, first, ready, params, blob, count, others⟩ := h.loadEntry below nonzero fits (unused c (by simp))
    obtain ⟨u, rest, ready', params', blob', counts⟩ := ih ready distinct
      (fun d hd => params ▸ entries d (by simp [hd]))
      fun d hd => (others _ (absent d hd)).trans (unused d (by simp [hd]))
    refine ⟨u, first.append rest, ready', params'.trans params, blob'.trans blob, fun x => ?_⟩
    rw [counts, Memory.read_cons]
    split
    · rename_i same
      rw [← same, count, unused c (by simp), Memory.read_of_not_mem 0 pairs c.1 absent, Nat.add_comm]
    · rename_i other
      rw [others x (Ne.symm other)]

/-! ### The other commands of the sequence -/

theorem exec_treeBuild (noFault : s.fault = false) :
    exec .treeBuild s = .next
      { s with
        node := buildArena s.params s.freq
        nLeaf := (seedLeaves s.params s.freq).length
        treeValid := true
        codeValid := false
        code := [] } := by
  rw [exec]
  exact command_of_ok noFault rfl

/-- BLOB_PUSH where a byte is free (44_byte_packer.md R183). -/
theorem exec_blobPush {b : Byte} (noFault : s.fault = false) (notFull : s.blobLen ≠ s.params.blobCap) :
    exec (.blobPush b) s = .next { s with blob := s.blob ++ [b] } := by
  refine command_of_ok noFault ?_
  rw [beq_eq_false_iff_ne.2 notFull]
  rfl

/-- UNPACK of a packed bitstring (44_byte_packer.md R182, R186). -/
theorem exec_unpack_of_packBits {b : Bits} (noFault : s.fault = false) (blob : s.blob = packBits b) :
    exec .unpack s = .next { s with bits := b } := by
  obtain ⟨data, packed, length, unpacked⟩ := dataBits_packBits b
  have small := padding_le b.length
  have count : (BitVec.ofNat 8 (padding b.length)).toNat = padding b.length := Nat.mod_eq_of_lt (by omega)
  refine command_of_ok noFault ?_
  simp only [blob, packed, count]
  rw [decide_eq_false (by omega), decide_eq_false (by omega),
    show 8 * data.length - padding b.length = b.length by omega, unpacked]
  simp

/-- DECODE with a tree, or with no bits (43_bitstream_codec.md R161, R164). -/
theorem exec_decode (noFault : s.fault = false) (built : s.treeValid = true) (decodable : s.node = [] → s.bits = []) :
    exec .decode s = .next { s with symBuf := decodeBits s.node s.bits } := by
  refine command_of_ok noFault ?_
  have passes : (s.nNodes == 0 && s.bitLen != 0) = false := by
    by_cases empty : s.node = []
    · simp [State.bitLen, decodable empty]
    · simp [State.nNodes, empty]
  rw [passes, built]
  rfl

/-- Pushing a blob that fits (R276). -/
theorem Ready.push {blob : List Byte} (h : Ready s) (fits : s.blobLen + blob.length ≤ s.params.blobCap) :
    Session s (pushEvents blob) [] { s with blob := s.blob ++ blob } ∧ Ready { s with blob := s.blob ++ blob } := by
  induction blob generalizing s with
  | nil =>
    rw [List.append_nil]
    exact ⟨.nil s, h⟩
  | cons b blob ih =>
    rw [List.length_cons] at fits
    have run := exec_blobPush (b := b) h.noFault (by omega)
    obtain ⟨first, ready⟩ := h.cmd rfl run h.noFault
    have rest := ih ready (by simp only [State.blobLen, List.length_append, List.length_singleton] at *; omega)
    simp only [List.append_assoc, List.singleton_append] at rest
    exact ⟨first.append rest.1, rest.2⟩

/-! ### The sequence -/

/-- The table a compress sequence left, its pairs in any order, loads back and gives the tree back (R276, 49_properties.md
R225). -/
theorem Compressed.load (h : Compressed tokens t) (ready : Ready s) (params : s.params = t.params)
    (empty : ∀ x, s.count x = 0) {pairs : Memory Nat} (perm : pairs.Perm t.freq) :
    ∃ u, Session s (loadEvents pairs ++ [cmdEvent .treeBuild]) [] u ∧ Ready u ∧ u.params = t.params ∧
      u.blob = s.blob ∧ u.treeValid = true ∧ u.node = buildArena t.params t.freq := by
  have wf := h.inv.freq_wf
  have entries (c : Nat × Nat) (hc : c ∈ pairs) : c.1 < s.params.nsym ∧ c.2 ≠ 0 ∧ c.2 < 2 ^ s.params.cntW := by
    have listed := perm.mem_iff.1 hc
    obtain ⟨below, fits⟩ := h.inv.freq_range c listed
    rw [params]
    exact ⟨below, wf.2 c listed, fits⟩
  obtain ⟨l, load, ready, params', blob, counts⟩ := ready.load ((perm.map Prod.fst).nodup_iff.2 wf.nodup) entries
    fun c _ => empty c.1
  have freq : l.freq = t.freq := by
    refine Memory.ext_of_read 0 l.freq t.freq ready.inv.freq_wf wf fun x => (counts x).trans ?_
    rw [empty, Nat.zero_add, Memory.read_perm wf perm]
  obtain ⟨build, ready'⟩ := ready.cmd rfl (exec_treeBuild ready.noFault) ready.noFault
  refine ⟨_, load.append build, ready', params'.trans params, blob, rfl, ?_⟩
  rw [params', params, freq]

/-- The blob a compress sequence left loads back and unpacks to its bits (R276). -/
theorem Compressed.unpack (h : Compressed tokens t) (ready : Ready s) (params : s.params = t.params)
    (empty : s.blob = []) :
    ∃ u, Session s (pushEvents t.blob ++ [cmdEvent .unpack]) [] u ∧ Ready u ∧
      u = { s with blob := t.blob, bits := t.bits } := by
  have fits : s.blobLen + t.blob.length ≤ s.params.blobCap := by
    rw [State.blobLen, empty, params]
    exact (Nat.zero_add _).trans_le h.inv.blob_cap
  obtain ⟨push, ready⟩ := ready.push fits
  rw [empty, List.nil_append] at push ready
  obtain ⟨unpack, ready⟩ := ready.cmd rfl (exec_unpack_of_packBits (b := t.bits) ready.noFault h.blob) ready.noFault
  exact ⟨_, push.append unpack, ready, rfl⟩

/-- The decompress sequence over what a compress sequence left, on a block with the same parameters and any history,
gives the tokens back and rebuilds the tree (R276, 49_properties.md R217, R225). -/
theorem Compressed.decompress (h : Compressed tokens t) (params : s.params = t.params) (running : s.resetPin = false)
    {pairs : Memory Nat} (perm : pairs.Perm t.freq) :
    ∃ v, Session s (decompressEvents pairs t.blob) [] v ∧ Ready v ∧ v.symBuf = tokens.map (fun y => y.toNat) ∧
      v.node = t.node := by
  have cleared : Ready s.clear := ⟨.clear (params ▸ h.inv.params_legal), rfl, running⟩
  obtain ⟨l, load, ready, params', noBlob, built, node⟩ := h.load cleared params (fun x => rfl) perm
  obtain ⟨u, unpack, ready, rfl⟩ := h.unpack ready params' noBlob
  have run := exec_decode ready.noFault built fun empty => h.bits_eq_nil (node.symm.trans empty)
  obtain ⟨decode, ready⟩ := ready.cmd rfl run ready.noFault
  refine ⟨_, ?_, ready, ?_, node.trans (h.inv.tree_valid h.treeValid).1.symm⟩
  · have whole := (Session.cmd (i := .clrAll) running rfl rfl).append (load.append (unpack.append decode))
    simpa [decompressEvents] using whole
  · exact (congrArg (decodeBits · t.bits) node).trans h.decodeBits_eq

end Sys2Proof.Machine
end

section
/-! Compressing and decompressing through the port: the read-outs give the host what the block holds
(70_reset_and_hazards.md R275, R276), and char mode on top of them (40_frequency_histogram.md R101). -/

namespace Sys2Proof.Machine

variable {s t u : State} {tokens : List Operand}

/-! ### Read-outs -/

/-- BLOB_RD of a byte of the blob (44_byte_packer.md R184). -/
theorem exec_blobRd {a : Operand} {b : Byte} (noFault : s.fault = false) (listed : s.blob[a.toNat]? = some b) :
    exec (.blobRd a) s = .next (s.setRes (b.setWidth 32) 0 0 0) := by
  refine command_of_ok noFault ?_
  rw [listed]

/-- SYM_RD of a decoded Symbol (43_bitstream_codec.md R166). -/
theorem exec_symRd {a : Operand} {x : Nat} (noFault : s.fault = false) (listed : s.symBuf[a.toNat]? = some x) :
    exec (.symRd a) s = .next (s.setRes (zext32 x) 0 0 0) := by
  refine command_of_ok noFault ?_
  rw [listed]

/-- `t` is `s` but for the result registers. -/
def SameButResults (s t : State) : Prop := ∃ r0 r1 r2 r3, t = s.setRes r0 r1 r2 r3

theorem SameButResults.refl (s : State) : SameButResults s s := ⟨s.res0, s.res1, s.res2, s.res3, rfl⟩

/-- A read-out whose every command puts one word in RES0, whatever the result registers held, returns those words
(R275, R276). -/
theorem Session.readOut {cmd : Operand → Instr} {word : Nat → Word} {xs : List Nat} (running : s.resetPin = false)
    (legal : ∀ x ∈ xs, (cmd (BitVec.ofNat 24 x)).wellFormed s.params = true)
    (reads : ∀ x ∈ xs, ∀ t, SameButResults s t → exec (cmd (BitVec.ofNat 24 x)) t = .next (t.setRes (word x) 0 0 0)) :
    ∃ t, Session s (xs.map fun x => readBack (cmd (BitVec.ofNat 24 x))).flatten (xs.map word) t ∧
      SameButResults s t := by
  suffices fromAny : ∀ r, SameButResults s r → ∃ t,
      Session r (xs.map fun x => readBack (cmd (BitVec.ofNat 24 x))).flatten (xs.map word) t ∧ SameButResults s t from
    fromAny s (.refl s)
  induction xs with
  | nil => exact fun r same => ⟨r, .nil r, same⟩
  | cons x xs ih =>
    intro r same
    have run := reads x (by simp) r same
    obtain ⟨r0, r1, r2, r3, rfl⟩ := same
    have first := (Session.cmd (s := s.setRes r0 r1 r2 r3) running (legal x (by simp)) run).append
      (.read (by exact running) .res0)
    obtain ⟨t, rest, same⟩ := ih (fun y hy => legal y (by simp [hy])) (fun y hy => reads y (by simp [hy]))
      ((s.setRes r0 r1 r2 r3).setRes (word x) 0 0 0) ⟨_, _, _, _, rfl⟩
    exact ⟨t, first.append rest, same⟩

/-- A read-out of a whole list, element by element, whose indices fit the operand field. -/
theorem Session.readList {α : Type} {cmd : Operand → Instr} {word : α → Word} {xs : List α}
    (running : s.resetPin = false) (fits : xs.length ≤ 2 ^ 24) (legal : ∀ a, (cmd a).wellFormed s.params = true)
    (reads : ∀ (a : Operand) x, xs[a.toNat]? = some x →
      ∀ t, SameButResults s t → exec (cmd a) t = .next (t.setRes (word x) 0 0 0)) :
    ∃ t, Session s (readBacks cmd xs.length).flatten (xs.map word) t ∧ SameButResults s t := by
  have words : (List.range xs.length).map (fun k => (xs[k]?.map word).getD 0) = xs.map word := by
    refine List.ext_getElem (by simp) fun k hk _ => ?_
    rw [List.length_map, List.length_range] at hk
    simp [List.getElem?_eq_getElem hk]
  rw [← words]
  refine Session.readOut running (fun k _ => legal _) fun k hk t same => ?_
  have hk := List.mem_range.1 hk
  have operand : (BitVec.ofNat 24 k).toNat = k := Nat.mod_eq_of_lt (by omega)
  rw [List.getElem?_eq_getElem hk]
  exact reads _ _ (operand.symm ▸ List.getElem?_eq_getElem hk) t same

/-- A read-out as the host performs it: the words, and a block that differs in the result registers alone. -/
theorem Ready.serve_readOut (h : Ready s) {es : List HostEvent} {ws : List Word}
    (readOut : ∃ t, Session s es ws t ∧ SameButResults s t) :
    ∃ u, s.serve es = some (ws, u) ∧ Ready u ∧ u.params = s.params ∧
      u.toBlock = { s.toBlock with res0 := u.res0, res1 := u.res1, res2 := u.res2, res3 := u.res3 } := by
  obtain ⟨_, ⟨u, served, same⟩, r0, r1, r2, r3, rfl⟩ := readOut
  have inFault {P : Prop} (raised : s.fault = true) : P := by simp [h.noFault] at raised
  have ready : Ready (s.setRes r0 r1 r2 r3) := ⟨{ h.inv with in_fault := inFault }, h.noFault, h.running⟩
  have block := State.toBlock_eq_of_accept same
  exact ⟨u, served, ready.congr same.symm, (State.params_eq_of_accept same :), by rw [block]; rfl⟩

/-- The blob read-out (R275). -/
theorem Ready.readBlob (h : Ready s) :
    ∃ u, s.serve (readBacks .blobRd s.blobLen).flatten = some (s.blob.map (fun b => b.setWidth 32), u) ∧ Ready u ∧
      u.params = s.params ∧
      u.toBlock = { s.toBlock with res0 := u.res0, res1 := u.res1, res2 := u.res2, res3 := u.res3 } := by
  refine h.serve_readOut (Session.readList h.running (h.inv.blob_cap.trans (h.inv.blobCap_le.trans (by decide)))
    (fun _ => rfl) ?_)
  rintro a b listed _ ⟨r0, r1, r2, r3, rfl⟩
  exact exec_blobRd h.noFault listed

/-- The token read-out (R276). -/
theorem Ready.readSymbols (h : Ready s) :
    ∃ u, s.serve (readBacks .symRd s.symLen).flatten = some (s.symBuf.map zext32, u) ∧ Ready u ∧
      u.params = s.params ∧
      u.toBlock = { s.toBlock with res0 := u.res0, res1 := u.res1, res2 := u.res2, res3 := u.res3 } := by
  refine h.serve_readOut (Session.readList h.running (h.inv.sym_cap.trans h.inv.bitCap_le) (fun _ => rfl) ?_)
  rintro a x listed _ ⟨r0, r1, r2, r3, rfl⟩
  exact exec_symRd h.noFault listed

/-- The table read-out (R275). -/
theorem Ready.readTable (h : Ready s) :
    ∃ u, s.serve (tableReadUnits s.params).flatten =
        some ((List.range s.params.nsym).map fun x => zext32 (s.count x), u) ∧ Ready u ∧
      u.params = s.params ∧
      u.toBlock = { s.toBlock with res0 := u.res0, res1 := u.res1, res2 := u.res2, res3 := u.res3 } := by
  have below (x : Nat) (hx : x ∈ List.range s.params.nsym) := List.mem_range.1 hx
  have operand (x : Nat) (hx : x ∈ List.range s.params.nsym) := h.inv.toNat_ofNat_operand (below x hx)
  refine h.serve_readOut (Session.readOut h.running (fun x hx => ?_) ?_)
  · exact decide_eq_true ((operand x hx).trans_lt (below x hx))
  · rintro x hx _ ⟨r0, r1, r2, r3, rfl⟩
    have run := exec_freqRd (s := s.setRes r0 r1 r2 r3) (a := BitVec.ofNat 24 x) h.noFault
      ((operand x hx).trans_lt (below x hx))
    rwa [operand x hx] at run

/-! ### STATUS and the length registers -/

/-- Bit 0 of STATUS is FAULT (10_state.md R37). -/
theorem statusWord_getLsbD_zero (s : State) : s.statusWord.getLsbD 0 = s.fault := by
  obtain ⟨-, -, bits, -⟩ := registerWindowReads s
  exact (bits 0).trans (by simp)

/-- The first two reads of a read-out give the host the length, or nothing in the fault state (R275, R276). -/
theorem State.readLength_eq (running : s.resetPin = false) (r : Reg) :
    ∃ t, t.accept [] = s.accept [] ∧
      s.readLength r = if s.fault then none else some ((t.readReg r).toNat, t) := by
  obtain ⟨t, served, same⟩ := (Session.read running .status).append (.read running r)
  refine ⟨t, same, ?_⟩
  rw [State.readReg_eq_of_accept same]
  rw [State.readLength, show [readEvent .status, readEvent r] = [readEvent .status] ++ [readEvent r] from rfl, served]
  change (if s.statusWord.getLsbD 0 then _ else _) = _
  rw [statusWord_getLsbD_zero]

/-! ### The table the host persists -/

theorem mem_persistedTable {counts : List Word} {c : Nat × Nat} :
    c ∈ persistedTable counts ↔ ∃ w, counts[c.1]? = some w ∧ w ≠ 0 ∧ c.2 = w.toNat := by
  rw [persistedTable, List.mem_filterMap]
  constructor
  · rintro ⟨⟨w, k⟩, listed, entry⟩
    split at entry
    · cases entry
    · rename_i nonzero
      obtain rfl := Option.some.inj entry
      exact ⟨w, List.mem_zipIdx_iff_getElem?.1 listed, nonzero, rfl⟩
  · rintro ⟨w, listed, nonzero, value⟩
    exact ⟨(w, c.1), List.mem_zipIdx_iff_getElem?.2 listed, (if_neg nonzero).trans (by rw [← value])⟩

theorem persistedTable_wf (counts : List Word) : Memory.wf 0 (persistedTable counts) := by
  constructor
  · rw [persistedTable, List.pairwise_filterMap]
    refine List.pairwise_iff_getElem.2 fun j k hj hk hjk c hc d hd => ?_
    simp only [List.getElem_zipIdx, Nat.zero_add, Option.ite_none_left_eq_some, Option.some.injEq] at hc hd
    obtain ⟨-, rfl⟩ := hc
    obtain ⟨-, rfl⟩ := hd
    exact hjk
  · intro c hc
    obtain ⟨w, -, nonzero, value⟩ := mem_persistedTable.1 hc
    rw [value]
    simpa [BitVec.toNat_eq] using nonzero

/-- The counts of all Symbols, read out, are persisted as the frequency table (R275). -/
theorem State.Inv.persistedTable_eq (h : s.Inv) :
    persistedTable ((List.range s.params.nsym).map fun x => zext32 (s.count x)) = s.freq := by
  refine Memory.ext_of_read 0 _ _ (persistedTable_wf _) h.freq_wf fun x => ?_
  have value : (zext32 (s.count x)).toNat = s.count x := zext32_toNat (h.lt_of_lt_cntW (h.count_lt x))
  by_cases absent : s.count x = 0
  · refine (Memory.read_of_not_mem 0 _ x fun c hc same => ?_).trans absent.symm
    obtain ⟨w, listed, nonzero, -⟩ := mem_persistedTable.1 hc
    obtain ⟨_, rfl⟩ := List.getElem?_eq_some_iff.1 listed
    rw [List.getElem_map, List.getElem_range, same, absent] at nonzero
    exact nonzero rfl
  · refine Memory.read_of_mem 0 _ (persistedTable_wf _) (x, s.count x) (mem_persistedTable.2 ⟨_, ?_, ?_, value.symm⟩)
    · simp [h.lt_nsym_of_count_ne_zero absent]
    · intro zero
      rw [zero] at value
      exact absent value.symm

/-! ### The two operations of the host -/

/-- No event of the compress sequence drives the reset input (R275). -/
theorem resetPin_not_mem_compressEvents (b : Bool) : .resetPin b ∉ compressEvents tokens := by
  simp [compressEvents, countEvents, encodeEvents, cmdEvent]

/-- A compress operation gives the host nothing where its events up to PACK raised a fault, and else the table and the
blob of the block (R275). -/
theorem State.hostCompress_cases (legal : s.params.Legal) (running : s.resetPin = false)
    (below : ∀ x ∈ tokens, x.toNat < s.params.nsym) :
    ∃ ws c, s.serve (compressEvents tokens) = some (ws, c) ∧
      ((c.fault = true ∧ s.hostCompress tokens = none) ∨
        (Compressed tokens c ∧ c.params = s.params ∧
          ∃ u, s.hostCompress tokens = some (c.freq, c.blob, u) ∧ u.fault = false)) := by
  obtain ⟨ws, c, compress⟩ := s.exists_serve (compressEvents tokens)
  refine ⟨ws, c, compress, ?_⟩
  have pin : c.resetPin = false := (State.serve_resetPin compress resetPin_not_mem_compressEvents).trans running
  obtain ⟨d, same, length⟩ := State.readLength_eq pin .blobLen
  cases fault : c.fault with
  | true => exact .inl ⟨rfl, by simp [State.hostCompress, compress, length, fault]⟩
  | false =>
    obtain ⟨compressed, params, -⟩ := (Session.of_serve compress).compressed legal running below fault
    have ready : Ready d := Ready.congr ⟨compressed.inv, fault, pin⟩ same.symm
    obtain ⟨e, readBlob, readyE, paramsE, blockE⟩ := ready.readBlob
    obtain ⟨f, readTable, readyF, -, -⟩ := readyE.readTable
    have paramsE : e.params = s.params := paramsE.trans ((State.params_eq_of_accept same).trans params)
    have blob : d.blob = c.blob := congrArg Block.blob (State.toBlock_eq_of_accept same)
    have freqE : e.freq = d.freq := by rw [blockE]
    have freq : d.freq = c.freq := congrArg Block.freq (State.toBlock_eq_of_accept same)
    have table := readyE.inv.persistedTable_eq
    obtain ⟨-, -, -, blobLen, -⟩ := lengthRegistersReadTheFields d ready.inv
    change (d.readReg .blobLen).toNat = d.blobLen at blobLen
    refine .inr ⟨compressed, params, f, ?_, readyF.noFault⟩
    rw [paramsE] at readTable table
    simp [State.hostCompress, compress, length, fault, blobLen, readBlob, readTable, table, freqE, freq,
      blob, Function.comp_def]

/-- What a compress operation gives the host, the pairs in any order, a decompress operation on a block with the same
parameters and any history turns back into the tokens (R276, 49_properties.md R217). -/
theorem Compressed.hostDecompress (h : Compressed tokens t) (params : s.params = t.params)
    (running : s.resetPin = false) {pairs : Memory Nat} (perm : pairs.Perm t.freq) :
    ∃ v, s.hostDecompress pairs t.blob = some (tokens.map (fun x => x.toNat), v) ∧ v.fault = false := by
  obtain ⟨v, ⟨x, decompress, same⟩, ready, symbols, -⟩ := h.decompress params running perm
  have readyX := ready.congr same.symm
  obtain ⟨y, same', length⟩ := State.readLength_eq readyX.running .symLen
  have readyY := readyX.congr same'.symm
  have symbols : y.symBuf = tokens.map fun y => y.toNat :=
    (congrArg Block.symBuf (State.toBlock_eq_of_accept (same'.trans same))).trans symbols
  obtain ⟨-, -, -, -, symLen⟩ := lengthRegistersReadTheFields y readyY.inv
  change (y.readReg .symLen).toNat = y.symLen at symLen
  obtain ⟨z, readSymbols, readyZ, -, -⟩ := readyY.readSymbols
  refine ⟨z, ?_, readyZ.noFault⟩
  have values (a : Operand) : (zext32 a.toNat).toNat = a.toNat := zext32_toNat (a.isLt.trans (by decide))
  rw [symbols] at readSymbols
  simp [State.hostDecompress, decompress, length, readyX.noFault, symLen, readSymbols, values]

/-! ### Char mode -/

/-- A text with a code point of NSYM or above is refused (R101). -/
theorem charSymbols_eq_none {p : Params} {text : List CodePoint} (above : ∃ c ∈ text, p.nsym ≤ c.val) :
    charSymbols p text = none := by
  induction text with
  | nil => simp at above
  | cons c text ih =>
    rw [charSymbols]
    split
    · rename_i below
      have later : ∃ d ∈ text, p.nsym ≤ d.val := by
        obtain ⟨d, hd, above⟩ := above
        obtain rfl | hd := List.mem_cons.1 hd
        · omega
        · exact ⟨d, hd, above⟩
      rw [ih later]
      rfl
    · rfl

/-- Any other text is presented as one Symbol per code point, its value (R101); a code point fits the operand field. -/
theorem exists_charSymbols {p : Params} {text : List CodePoint} (below : ∀ c ∈ text, c.val < p.nsym) :
    ∃ tokens, charSymbols p text = some tokens ∧ tokens.map (fun x => x.toNat) = text.map fun c => c.val := by
  induction text with
  | nil => exact ⟨[], rfl, rfl⟩
  | cons c text ih =>
    obtain ⟨tokens, presented, values⟩ := ih fun d hd => below d (List.mem_cons_of_mem c hd)
    refine ⟨BitVec.ofNat 24 c.val :: tokens, ?_, ?_⟩
    · rw [charSymbols, if_pos (below c (by simp)), presented]
      rfl
    · have value : (BitVec.ofNat 24 c.val).toNat = c.val := Nat.mod_eq_of_lt (c.isLt.trans (by decide))
      rw [List.map_cons, List.map_cons, value, values]

/-- The Symbols of a presented text are below NSYM and give the text back (R101). -/
theorem charSymbols_spec {p : Params} {text : List CodePoint} {tokens : List Operand}
    (presented : charSymbols p text = some tokens) :
    (∀ x ∈ tokens, x.toNat < p.nsym) ∧ symbolsText (tokens.map fun x => x.toNat) = some text := by
  have below : ∀ c ∈ text, c.val < p.nsym := fun c hc => by
    by_contra above
    rw [charSymbols_eq_none ⟨c, hc, Nat.not_lt.1 above⟩] at presented
    cases presented
  obtain ⟨tokens', presented', values⟩ := exists_charSymbols below
  obtain rfl := Option.some.inj (presented'.symm.trans presented)
  refine ⟨fun x hx => ?_, symbolsText_eq_some.2 values⟩
  obtain ⟨c, hc, value⟩ := List.mem_map.1 (values ▸ List.mem_map_of_mem (f := fun x : Operand => x.toNat) hx)
  exact value ▸ below c hc

/-- Settles O58: a presented text compresses as its Symbols do, and they come back from the decompress operation. -/
theorem charModeRoundTrip : Obligations.CharModeRoundTrip := by
  intro s text legal running
  refine ⟨fun above => ?_, fun below => ?_, fun table blob u done r pairs params running' perm => ?_⟩
  · have refused := charSymbols_eq_none above
    exact ⟨refused, by simp [State.hostCompressText, refused]⟩
  · obtain ⟨tokens, presented, values⟩ := exists_charSymbols below
    exact ⟨tokens, presented, values, by simp [State.hostCompressText, presented], (charSymbols_spec presented).2⟩
  · obtain ⟨tokens, presented, done⟩ := Option.bind_eq_some_iff.1 done
    obtain ⟨below, back⟩ := charSymbols_spec presented
    obtain ⟨ws, c, -, ⟨-, nothing⟩ | ⟨compressed, params', u', given, -⟩⟩ := s.hostCompress_cases legal running below
    · simp [nothing] at done
    · rw [given] at done
      obtain ⟨rfl, rfl, -⟩ : c.freq = table ∧ c.blob = blob ∧ u' = u := by simpa using done
      obtain ⟨v, decompressed, noFault⟩ := compressed.hostDecompress (params.trans params'.symm) running' perm
      exact ⟨v, by simp [State.hostDecompressText, decompressed, back], noFault⟩

end Sys2Proof.Machine
end

section
/-! The merging loop node by node: which nodes are in the collection at each turn, and what each Internal node takes
from it (41_tree_builder.md R120 to R122). -/

namespace Sys2Proof.Machine

variable {arena leaves new : List Node} {q q₁ q₂ : List Key} {i j k : Nat} {l r : Key} {x y : Node}

/-! ### Keys and the collection -/

/-- `k` is the key of a node of the arena (R121). -/
def Key.isOf (k : Key) (arena : List Node) : Prop := ∃ n, arena[k.index]? = some n ∧ n.weight = k.weight

theorem Key.isOf.append {k : Key} (h : k.isOf arena) (new : List Node) : k.isOf (arena ++ new) := by
  obtain ⟨n, here, weight⟩ := h
  exact ⟨n, getElem?_append_of_some here new, weight⟩

/-- The nodes of an older arena keep their keys. -/
theorem Key.isOf_append_iff {k : Key} (old : k.index < arena.length) : k.isOf (arena ++ new) ↔ k.isOf arena := by
  rw [Key.isOf, Key.isOf, List.getElem?_append_left old]

/-- A node has one key. -/
theorem Key.isOf.eq {k k' : Key} (h : k.isOf arena) (h' : k'.isOf arena) (same : k.index = k'.index) : k = k' := by
  obtain ⟨n, here, weight⟩ := h
  obtain ⟨n', here', weight'⟩ := h'
  obtain rfl : n = n' := Option.some.inj (here.symm.trans (same ▸ here'))
  cases k
  cases k'
  exact (Key.mk.injEq ..).mpr ⟨weight.symm.trans weight', same⟩

/-- The seeded collection holds the key of every node (R120). -/
theorem mem_arenaKeys {k : Key} : k ∈ arenaKeys arena ↔ k.isOf arena := by
  simp only [arenaKeys, List.mem_map, List.mem_zipIdx_iff_getElem?, Prod.exists]
  constructor
  · rintro ⟨n, i, here, rfl⟩
    exact ⟨n, here, rfl⟩
  · rintro ⟨n, here, weight⟩
    exact ⟨n, k.index, here, by rw [weight]⟩

theorem arenaKeys_nodup (arena : List Node) : (arenaKeys arena).Nodup := by
  refine List.Nodup.of_map Key.index ?_
  rw [arenaKeys, List.map_map]
  exact List.nodup_zipIdx_map_snd arena

/-- The weights of the keys are those of the nodes. -/
theorem arenaKeys_map_weight (arena : List Node) : (arenaKeys arena).map Key.weight = arena.map Node.weight := by
  rw [arenaKeys, List.map_map]
  conv_rhs => rw [← List.zipIdx_map_fst 0 arena, List.map_map]
  rfl

/-- Nodes made later do not change what was in the collection before. -/
theorem inCollection_append_iff (old : i ≤ arena.length) :
    inCollection (arena ++ new) i k ↔ inCollection arena i k := by
  refine and_congr_right fun _ => forall_congr' fun j => forall_congr' fun n => ?_
  refine imp_congr_right fun before => ?_
  rw [List.getElem?_append_left (before.trans_le old)]

/-- What is in the collection after node `i` is made: node `i`, and what was in before, but not the children of `i`
(R120). -/
theorem inCollection_succ_iff {n : Node} (here : arena[i]? = some n)
    (fresh : ∀ j m, j < i → arena[j]? = some m → ¬ m.hasChild i) :
    inCollection arena (i + 1) k ↔ (k = i ∨ inCollection arena i k) ∧ ¬ n.hasChild k := by
  constructor
  · rintro ⟨below, free⟩
    refine ⟨?_, free i n (Nat.lt_succ_self i) here⟩
    obtain before | rfl := Nat.lt_succ_iff_lt_or_eq.1 below
    · exact .inr ⟨before, fun j m hj => free j m (hj.trans (Nat.lt_succ_self i))⟩
    · exact .inl rfl
  · rintro ⟨free, notChild⟩
    have old : k < i + 1 ∧ ∀ j m, j < i → arena[j]? = some m → ¬ m.hasChild k := by
      obtain rfl | ⟨below, free⟩ := free
      · exact ⟨Nat.lt_succ_self k, fresh⟩
      · exact ⟨below.trans (Nat.lt_succ_self i), free⟩
    refine ⟨old.1, fun j m hj hm => ?_⟩
    obtain before | rfl := Nat.lt_succ_iff_lt_or_eq.1 hj
    · exact old.2 j m before hm
    · exact Option.some.inj (here.symm.trans hm) ▸ notChild

theorem comesBefore_append (h : comesBefore arena j k) (new : List Node) : comesBefore (arena ++ new) j k := by
  obtain ⟨x, y, hx, hy, order⟩ := h
  exact ⟨x, y, getElem?_append_of_some hx new, getElem?_append_of_some hy new, order⟩

/-- The order of the nodes is that of their keys (R121). -/
theorem comesBefore_of_before (hl : l.isOf arena) (hr : r.isOf arena) (order : l.before r = true) :
    comesBefore arena l.index r.index := by
  obtain ⟨x, hx, weightX⟩ := hl
  obtain ⟨y, hy, weightY⟩ := hr
  rw [Key.before_iff, ← weightX, ← weightY] at order
  exact ⟨x, y, hx, hy, order⟩

/-! ### One Internal node -/

/-- Node `i` is Internal: its children `l` and `r`, the nodes `x` and `y`, come first and second in the collection, and
it has their summed weight (R120, R122). -/
structure MergedAt (arena : List Node) (i l r : Nat) (x y : Node) : Prop where
  node : arena[i]? = some (.internal (x.weight + y.weight) l r)
  left : arena[l]? = some x
  right : arena[r]? = some y
  ne : l ≠ r
  leftFree : inCollection arena i l
  rightFree : inCollection arena i r
  first : ∀ k, inCollection arena i k → k ≠ l → comesBefore arena l k
  second : ∀ k, inCollection arena i k → k ≠ l → k ≠ r → comesBefore arena r k

namespace MergedAt

variable {a b : Nat}

theorem append (h : MergedAt arena i a b x y) (new : List Node) : MergedAt (arena ++ new) i a b x y := by
  have old : i ≤ arena.length := (List.getElem?_eq_some_iff.1 h.node).1.le
  constructor
  · exact getElem?_append_of_some h.node new
  · exact getElem?_append_of_some h.left new
  · exact getElem?_append_of_some h.right new
  · exact h.ne
  · exact (inCollection_append_iff old).2 h.leftFree
  · exact (inCollection_append_iff old).2 h.rightFree
  · exact fun k free other => comesBefore_append (h.first k ((inCollection_append_iff old).1 free) other) new
  · exact fun k free notL notR => comesBefore_append (h.second k ((inCollection_append_iff old).1 free) notL notR) new

/-- The children of a merged node were in the collection when it was made. -/
theorem inCollection_of_hasChild {n : Node} (h : MergedAt arena i a b x y) (here : arena[i]? = some n)
    (child : n.hasChild k) : inCollection arena i k := by
  obtain rfl := Option.some.inj (h.node.symm.trans here)
  obtain rfl | rfl := child
  · exact h.leftFree
  · exact h.rightFree

end MergedAt

/-! ### The whole loop -/

/-- What every turn of the merging loop keeps: `leaves` are the first nodes, every later node is a merge of the two
least, the collection `q` holds the key of each node that is no child, once, and their weights are those of the Leaves
in sum. -/
structure Merging (leaves : List Node) (q : List Key) (arena : List Node) : Prop where
  childless : ∀ n ∈ leaves, ∀ k, ¬ n.hasChild k
  seeded : leaves <+: arena
  merged : ∀ i, leaves.length ≤ i → i < arena.length → ∃ a b x y, MergedAt arena i a b x y
  keys : ∀ k, k ∈ q ↔ inCollection arena arena.length k.index ∧ k.isOf arena
  distinct : q.Nodup
  size : arena.length + q.length = 2 * leaves.length
  weight : (q.map Key.weight).sum = (leaves.map Node.weight).sum

/-- The collection of the seeded Leaves (R120). -/
theorem Merging.start (childless : ∀ n ∈ leaves, ∀ k, ¬ n.hasChild k) :
    Merging leaves (arenaKeys leaves) leaves where
  childless := childless
  seeded := List.prefix_rfl
  merged _ above below := absurd above (Nat.not_le.2 below)
  keys k := by
    refine mem_arenaKeys.trans (and_iff_right_of_imp ?_).symm
    rintro ⟨n, here, -⟩
    exact ⟨(List.getElem?_eq_some_iff.1 here).1, fun j m _ hm => childless m (List.mem_of_getElem? hm) _⟩
  distinct := arenaKeys_nodup leaves
  size := by simp [arenaKeys, Nat.two_mul]
  weight := by rw [arenaKeys_map_weight]

namespace Merging

/-- A node that has children is a merge: its children were in the collection when it was made. -/
theorem inCollection_of_hasChild {n : Node} (h : Merging leaves q arena) (here : arena[i]? = some n)
    (child : n.hasChild k) : inCollection arena i k := by
  by_cases old : i < leaves.length
  · rw [List.prefix_iff_getElem?.1 h.seeded i old] at here
    obtain rfl := Option.some.inj here
    exact absurd child (h.childless _ (List.getElem_mem old) k)
  · obtain ⟨a, b, x, y, merged⟩ := h.merged i (Nat.not_lt.1 old) (List.getElem?_eq_some_iff.1 here).1
    exact merged.inCollection_of_hasChild here child

/-- No node is made before its children (10_state.md R42). -/
theorem lt_of_hasChild {n : Node} (h : Merging leaves q arena) (here : arena[i]? = some n) (child : n.hasChild k) :
    k < i := (h.inCollection_of_hasChild here child).1

/-- A node in the collection has its key there. -/
theorem exists_key (h : Merging leaves q arena) (free : inCollection arena arena.length k) :
    ∃ key ∈ q, key.index = k := by
  exact ⟨{ weight := (arena[k]'free.1).weight, index := k },
    (h.keys _).2 ⟨free, _, List.getElem?_eq_getElem free.1, rfl⟩, rfl⟩

/-- The node made of the two keys that ExtractMin takes is a merge (R121, R122). -/
theorem mergedAt_last (h : Merging leaves q arena) (hl : extractMin q = some (l, q₁))
    (hr : extractMin q₁ = some (r, q₂)) :
    ∃ x y, MergedAt (arena ++ [.internal (l.weight + r.weight) l.index r.index]) arena.length
      l.index r.index x y := by
  obtain ⟨memL, rfl, -, leastL⟩ := extractMin_spec hl
  obtain ⟨memR, -, -, leastR⟩ := extractMin_spec hr
  obtain ⟨neKey, memR⟩ := h.distinct.mem_erase_iff.1 memR
  obtain ⟨freeL, ofL⟩ := (h.keys l).1 memL
  obtain ⟨freeR, ofR⟩ := (h.keys r).1 memR
  have old (k : Nat) : inCollection (arena ++ [.internal (l.weight + r.weight) l.index r.index]) arena.length k ↔
      inCollection arena arena.length k := inCollection_append_iff (Nat.le_refl _)
  obtain ⟨x, hx, weightX⟩ := id ofL
  obtain ⟨y, hy, weightY⟩ := id ofR
  refine ⟨x, y, ?_, ?_, ?_, ?_, ?_, ?_, ?_, ?_⟩
  · rw [weightX, weightY, List.getElem?_concat_length]
  · exact getElem?_append_of_some hx _
  · exact getElem?_append_of_some hy _
  · exact fun same => neKey (ofR.eq ofL same.symm)
  · exact (old _).2 freeL
  · exact (old _).2 freeR
  · intro k free other
    obtain ⟨key, mem, rfl⟩ := h.exists_key ((old k).1 free)
    obtain rfl | order := leastL key mem
    · exact absurd rfl other
    · exact comesBefore_append (comesBefore_of_before ofL ((h.keys key).1 mem).2 order) _
  · intro k free notL notR
    obtain ⟨key, mem, rfl⟩ := h.exists_key ((old k).1 free)
    have left : key ∈ q.erase l := h.distinct.mem_erase_iff.2 ⟨fun same => notL (congrArg Key.index same), mem⟩
    obtain rfl | order := leastR key left
    · exact absurd rfl notR
    · exact comesBefore_append (comesBefore_of_before ofR ((h.keys key).1 mem).2 order) _

/-- What ExtractMin leaves of the collection: the keys of the other nodes. -/
theorem mem_erase_erase_iff (h : Merging leaves q arena) (hl : l ∈ q) (hr : r ∈ q) {k : Key} :
    k ∈ (q.erase l).erase r ↔ k ∈ q ∧ k.index ≠ l.index ∧ k.index ≠ r.index := by
  have eq_iff {m : Key} (hm : m ∈ q) (hk : k ∈ q) : k = m ↔ k.index = m.index :=
    ⟨congrArg Key.index, ((h.keys k).1 hk).2.eq ((h.keys m).1 hm).2⟩
  rw [(h.distinct.erase l).mem_erase_iff, h.distinct.mem_erase_iff]
  constructor
  · rintro ⟨neR, neL, hk⟩
    exact ⟨hk, (eq_iff hl hk).not.1 neL, (eq_iff hr hk).not.1 neR⟩
  · rintro ⟨hk, neL, neR⟩
    exact ⟨(eq_iff hr hk).not.2 neR, (eq_iff hl hk).not.2 neL, hk⟩

/-- After a merge of `l` and `r` the collection holds the other nodes and the new one (R120). -/
theorem inCollection_merge_iff (h : Merging leaves q arena) (hl : l.index < arena.length)
    (hr : r.index < arena.length) :
    inCollection (arena ++ [.internal (l.weight + r.weight) l.index r.index]) (arena.length + 1) k ↔
      k = arena.length ∨ (inCollection arena arena.length k ∧ k ≠ l.index ∧ k ≠ r.index) := by
  have fresh (j : Nat) (m : Node) (below : j < arena.length)
      (hm : (arena ++ [.internal (l.weight + r.weight) l.index r.index])[j]? = some m) :
      ¬ m.hasChild arena.length := by
    rw [List.getElem?_append_left below] at hm
    exact fun child => Nat.lt_asymm below (h.lt_of_hasChild hm child)
  rw [inCollection_succ_iff List.getElem?_concat_length fresh, inCollection_append_iff (Nat.le_refl _), Node.hasChild,
    not_or]
  constructor
  · rintro ⟨rfl | free, others⟩
    · exact .inl rfl
    · exact .inr ⟨free, others⟩
  · rintro (rfl | ⟨free, others⟩)
    · exact ⟨.inl rfl, hl.ne', hr.ne'⟩
    · exact ⟨.inr free, others⟩

/-- One turn of the loop (R120). -/
theorem merge (h : Merging leaves q arena) (hl : extractMin q = some (l, q₁)) (hr : extractMin q₁ = some (r, q₂)) :
    Merging leaves (q₂ ++ [{ weight := l.weight + r.weight, index := arena.length }])
      (arena ++ [.internal (l.weight + r.weight) l.index r.index]) := by
  obtain ⟨x, y, last⟩ := h.mergedAt_last hl hr
  obtain ⟨memL, rfl, lengthL, -⟩ := extractMin_spec hl
  obtain ⟨memR, rfl, lengthR, -⟩ := extractMin_spec hr
  have isNew : Key.isOf { weight := l.weight + r.weight, index := arena.length }
      (arena ++ [.internal (l.weight + r.weight) l.index r.index]) := ⟨_, List.getElem?_concat_length, rfl⟩
  refine ⟨h.childless, h.seeded.trans (List.prefix_append _ _), ?_, ?_, ?_, ?_, ?_⟩
  · intro i above below
    rw [List.length_append, List.length_singleton, Nat.lt_succ_iff_lt_or_eq] at below
    obtain old | rfl := below
    · obtain ⟨a, b, x, y, merged⟩ := h.merged i above old
      exact ⟨a, b, x, y, merged.append _⟩
    · exact ⟨_, _, x, y, last⟩
  · intro k
    rw [List.mem_append, h.mem_erase_erase_iff memL (List.mem_of_mem_erase memR), List.mem_singleton,
      List.length_append, List.length_singleton, h.inCollection_merge_iff last.leftFree.1 last.rightFree.1]
    constructor
    · rintro (⟨mem, others⟩ | rfl)
      · obtain ⟨free, isOf⟩ := (h.keys k).1 mem
        exact ⟨.inr ⟨free, others⟩, isOf.append _⟩
      · exact ⟨.inl rfl, isNew⟩
    · rintro ⟨index | ⟨free, others⟩, isOf⟩
      · exact .inr (isOf.eq isNew index)
      · exact .inl ⟨(h.keys k).2 ⟨free, (Key.isOf_append_iff free.1).1 isOf⟩, others⟩
  · rw [← List.concat_eq_append]
    refine ((h.distinct.erase l).erase r).concat fun mem => ?_
    exact Nat.lt_irrefl _ ((h.keys _).1 (List.mem_of_mem_erase (List.mem_of_mem_erase mem))).1.1
  · simp only [List.length_append, List.length_singleton]
    have := h.size
    omega
  · rw [← h.weight, ((List.perm_cons_erase memL).trans ((List.perm_cons_erase memR).cons l) |>.map Key.weight).sum_eq]
    simp
    omega

end Merging

end Sys2Proof.Machine
end

section
/-! What the merging loop leaves: the built arena is the strict binary tree of 41_tree_builder.md R127, with its root
at the end. -/

namespace Sys2Proof.Machine

variable {arena leaves : List Node} {q : List Key} {i j k : Nat}

/-! ### The end of the loop -/

namespace Merging

/-- The last node is no child of any (R120). -/
theorem inCollection_last (h : Merging leaves q arena) (nonempty : arena ≠ []) :
    inCollection arena arena.length (arena.length - 1) := by
  have positive := List.length_pos_iff.2 nonempty
  refine ⟨by omega, fun j m below hm child => ?_⟩
  have := h.lt_of_hasChild hm child
  omega

/-- When the loop ends, the one key in the collection is that of the last node (R120). -/
theorem exists_root (h : Merging leaves q arena) (short : q.length ≤ 1) (nonempty : arena ≠ []) :
    ∃ root, q = [root] ∧ root.index = arena.length - 1 := by
  obtain ⟨root, mem, index⟩ := h.exists_key (h.inCollection_last nonempty)
  obtain ⟨key, rfl⟩ := List.length_eq_one_iff.1 (Nat.le_antisymm short (List.length_pos_of_mem mem))
  obtain rfl := List.mem_singleton.1 mem
  exact ⟨root, rfl, index⟩

theorem length_eq (h : Merging leaves q arena) (short : q.length ≤ 1) : arena.length = 2 * leaves.length - 1 := by
  have size := h.size
  by_cases empty : arena = []
  · obtain rfl := List.prefix_nil.1 (empty ▸ h.seeded)
    exact List.length_eq_zero_iff.2 empty
  · obtain ⟨root, rfl, -⟩ := h.exists_root short empty
    rw [List.length_singleton] at size
    omega

/-- Every node but the last has a parent (R127). -/
theorem exists_parent (h : Merging leaves q arena) (short : q.length ≤ 1) (inner : k + 1 < arena.length) :
    ∃ (i : Nat) (n : Node), arena[i]? = some n ∧ n.hasChild k := by
  by_contra orphan
  have free : inCollection arena arena.length k := ⟨by omega, fun j n _ hn child => orphan ⟨j, n, hn, child⟩⟩
  obtain ⟨key, mem, rfl⟩ := h.exists_key free
  obtain ⟨root, rfl, index⟩ := h.exists_root short (List.length_pos_iff.1 (by omega))
  obtain rfl := List.mem_singleton.1 mem
  omega

/-- No node has two parents: a merge takes its children out of the collection (R120, R127). -/
theorem parent_unique (h : Merging leaves q arena) {n m : Node} (hn : arena[i]? = some n) (hm : arena[j]? = some m)
    (childN : n.hasChild k) (childM : m.hasChild k) : j = i := by
  obtain ⟨-, freeI⟩ := h.inCollection_of_hasChild hn childN
  obtain ⟨-, freeJ⟩ := h.inCollection_of_hasChild hm childM
  obtain before | same | after := Nat.lt_trichotomy j i
  · exact absurd childM (freeI j m before hm)
  · exact same
  · exact absurd childN (freeJ i n after hn)

/-- The first nodes are the Leaves (R120). -/
theorem getElem?_of_lt (h : Merging leaves q arena) (hj : j < leaves.length) : arena[j]? = some leaves[j] :=
  List.prefix_iff_getElem?.1 h.seeded j hj

/-- The root weighs what the Leaves weigh (R127). -/
theorem exists_root_weight (h : Merging leaves q arena) (short : q.length ≤ 1) (nonempty : arena ≠ []) :
    ∃ n, arena[arena.length - 1]? = some n ∧ n.weight = (leaves.map Node.weight).sum := by
  have weight := h.weight
  obtain ⟨root, rfl, index⟩ := h.exists_root short nonempty
  obtain ⟨n, here, key⟩ := ((h.keys root).1 (List.mem_singleton_self root)).2
  exact ⟨n, index ▸ here, by simpa [key] using weight⟩

end Merging

/-! ### The seeded Leaves and the built arena -/

/-- One Leaf for each Symbol with a non-zero count, by ascending Symbol, each with its count (R120). -/
theorem seedLeaves_eq (p : Params) (freq : Memory Nat) :
    seedLeaves p freq =
      ((List.range p.nsym).filter fun sym => Memory.read 0 freq sym != 0).map fun sym =>
        .leaf sym (Memory.read 0 freq sym) := by
  rw [← List.filterMap_eq_map, ← List.filterMap_eq_filter, List.filterMap_filterMap, seedLeaves]
  congr 1
  funext sym
  by_cases h : Memory.read 0 freq sym = 0 <;> simp [h, Option.guard]

theorem mem_seedLeaves {p : Params} {freq : Memory Nat} {n : Node} :
    n ∈ seedLeaves p freq ↔
      ∃ sym, (sym < p.nsym ∧ Memory.read 0 freq sym ≠ 0) ∧ .leaf sym (Memory.read 0 freq sym) = n := by
  simp [seedLeaves_eq]

/-- The Leaves stand in the order of their Symbols (R120). -/
theorem seedLeaves_pairwise (p : Params) (freq : Memory Nat) :
    (seedLeaves p freq).Pairwise fun m n => ∀ x ∈ m.symbol?, ∀ y ∈ n.symbol?, x < y := by
  rw [seedLeaves_eq, List.pairwise_map]
  refine (List.pairwise_lt_range.filter _).imp fun below x hx y hy => ?_
  rwa [← Option.mem_some.1 hx, ← Option.mem_some.1 hy]

/-- A Leaf has no child. -/
theorem not_hasChild_of_mem_seedLeaves {p : Params} {freq : Memory Nat} {n : Node} (h : n ∈ seedLeaves p freq)
    (k : Nat) : ¬ n.hasChild k := by
  obtain ⟨sym, -, rfl⟩ := mem_seedLeaves.1 h
  exact id

/-- The Leaves depend on the Symbol width and the counts alone (R126). -/
theorem seedLeaves_congr {p₁ p₂ : Params} {freq₁ freq₂ : Memory Nat} (width : p₁.symW = p₂.symW)
    (counts : ∀ x, x < p₁.nsym → Memory.read 0 freq₁ x = Memory.read 0 freq₂ x) :
    seedLeaves p₁ freq₁ = seedLeaves p₂ freq₂ := by
  have nsym : p₁.nsym = p₂.nsym := congrArg (2 ^ ·) width
  rw [seedLeaves, seedLeaves, ← nsym]
  refine List.filterMap_congr fun x hx => ?_
  rw [counts x (List.mem_range.1 hx)]

/-- TREE_BUILD runs the merging loop to its end (R120). -/
theorem exists_merging_buildArena (p : Params) (freq : Memory Nat) :
    ∃ q, q.length ≤ 1 ∧ Merging (seedLeaves p freq) q (buildArena p freq) :=
  mergeNodes_induction (Merging (seedLeaves p freq)) (fun _ _ _ _ _ _ h hl hr => h.merge hl hr) _ _ _
    (.start fun _ hn => not_hasChild_of_mem_seedLeaves hn) (by simp [arenaKeys])

/-- The Symbols with a count are the listed ones, when every listed Symbol is below NSYM (10_state.md R22). -/
theorem filter_count_ne_zero_eq {freq : Memory Nat} (hm : Memory.wf 0 freq) {n : Nat} (below : ∀ c ∈ freq, c.1 < n) :
    ((List.range n).filter fun sym => Memory.read 0 freq sym != 0) = freq.map Prod.fst := by
  refine (List.pairwise_lt_range.filter _).eq_of_mem_iff (List.pairwise_map.2 hm.1) fun sym => ?_
  rw [List.mem_filter, List.mem_range, bne_iff_ne, List.mem_map]
  constructor
  · exact fun ⟨_, counted⟩ => ⟨_, Memory.mem_of_read 0 freq sym counted, rfl⟩
  · rintro ⟨c, hc, rfl⟩
    exact ⟨below c hc, Memory.read_of_mem 0 freq hm c hc ▸ hm.2 c hc⟩

/-- The Leaves weigh what the table sums up to (10_state.md R23). -/
theorem seedLeaves_weight {p : Params} {freq : Memory Nat} (hm : Memory.wf 0 freq)
    (below : ∀ c ∈ freq, c.1 < p.nsym) :
    ((seedLeaves p freq).map Node.weight).sum = countSum freq := by
  rw [seedLeaves_eq, filter_count_ne_zero_eq hm below, List.map_map, List.map_map, countSum]
  exact congrArg List.sum (List.map_congr_left fun c hc => Memory.read_of_mem 0 freq hm c hc)

/-! ### Depth -/

theorem CodeTree.symbols_length_pos (t : CodeTree) : 0 < t.symbols.length := by
  induction t with
  | leaf => exact Nat.one_pos
  | node l r left =>
    rw [symbols, List.length_append]
    omega

/-- A path in a tree is shorter than the tree has Leaves (10_state.md R42). -/
theorem TreeAt.length_lt_of_follow {t : CodeTree} (h : TreeAt arena i t) {path : Bits}
    (leads : follow arena i path = some j) : path.length < t.symbols.length := by
  induction h generalizing path with
  | leaf here =>
    cases path with
    | nil => exact Nat.one_pos
    | cons b path => simp [follow, here] at leads
  | @node i l r tl tr here _ _ left right =>
    have := tl.symbols_length_pos
    have := tr.symbols_length_pos
    rw [CodeTree.symbols, List.length_append]
    cases path with
    | nil => rw [List.length_nil]; omega
    | cons b path =>
      simp only [follow, here] at leads
      rw [List.length_cons]
      cases b with
      | false => have := left leads; omega
      | true => have := right leads; omega

/-- No path from the root of the built arena has as many steps as it has Leaves (10_state.md R42). -/
theorem length_le_of_follow_buildArena {p : Params} {freq : Memory Nat} {path : Bits}
    (leads : follow (buildArena p freq) ((buildArena p freq).length - 1) path = some j) :
    path.length ≤ (seedLeaves p freq).length - 1 := by
  by_cases empty : buildArena p freq = []
  · cases path with
    | nil => exact Nat.zero_le _
    | cons b path => simp [follow, empty] at leads
  · obtain ⟨t, root, -, symbols⟩ := exists_tree_of_buildArena p freq empty
    have shorter := root.length_lt_of_follow leads
    have leaves : t.symbols.length ≤ (seedLeaves p freq).length := by
      rw [symbols.length_eq, buildArena, (mergeNodes_leaves ..).1]
      exact List.length_filterMap_le _ _
    omega

end Sys2Proof.Machine
end

section
/-! TREE_BUILD and NODE_RD (41_tree_builder.md R120 to R127), and the tables of one Symbol and of none through
CODE_GEN, ENC_SYM and DECODE. -/

namespace Sys2Proof.Machine

variable {s t : State}

/-! ### The built arena of a state -/

/-- The state after TREE_BUILD (R120). -/
def State.withTree (s : State) : State :=
  { s with
    node := buildArena s.params s.freq
    nLeaf := (seedLeaves s.params s.freq).length
    treeValid := true
    codeValid := false
    code := [] }

theorem eq_withTree_of_exec (noFault : s.fault = false) (run : exec .treeBuild s = .next t) : t = s.withTree :=
  Host.Outcome.next.inj (run.symm.trans (exec_treeBuild noFault))

/-- Settles O18: the operand is checked by the decoder, and the arena begins with the seeded Leaves. -/
theorem treeBuildSeedsTheLeaves : Obligations.TreeBuildSeedsTheLeaves := by
  intro s
  refine ⟨fun inFault => exec_of_fault inFault nofun, fun a noFault nonzero => ?_, fun noFault => ?_⟩
  · refine cmdWrite_of_illegalWord noFault ((illegalWord_iff_of_none ?_).2 ?_)
    · rw [opField_commandWord]
      decide
    · rwa [operandField_commandWord]
  · obtain ⟨q, short, merging⟩ := exists_merging_buildArena s.params s.freq
    have seeds := seedLeaves_eq s.params s.freq
    refine ⟨_, exec_treeBuild noFault, ?_, ?_, merging.length_eq short, rfl⟩
    · exact (List.prefix_iff_eq_take.1 merging.seeded).symm.trans seeds
    · exact (congrArg List.length seeds).trans (List.length_map _)

/-- Settles O19: every node past the Leaves is a merge. -/
theorem treeBuildMergesTheTwoLeast : Obligations.TreeBuildMergesTheTwoLeast := by
  intro s t i noFault run above below
  obtain rfl := eq_withTree_of_exec noFault run
  obtain ⟨q, -, merging⟩ := exists_merging_buildArena s.params s.freq
  obtain ⟨l, r, x, y, merged⟩ := merging.merged i above below
  exact ⟨l, r, x, y, merged.node, merged.left, merged.right, merged.ne, merged.leftFree, merged.rightFree,
    merged.first, merged.second⟩

/-- Settles O32: the arena of a valid tree is the built one, at the end of the merging loop. -/
theorem validTreeIsAStrictBinaryTree : Obligations.ValidTreeIsAStrictBinaryTree := by
  intro s h _ built
  obtain ⟨node, nLeaf⟩ := h.tree_valid built
  obtain ⟨q, short, merging⟩ := exists_merging_buildArena s.params s.freq
  rw [← node] at merging
  have seeds := seedLeaves_length_le s.params s.freq
  have length := merging.length_eq short
  rw [← nLeaf] at length seeds
  refine ⟨length, Nat.sub_le_sub_right seeds 1, fun j hj => ?_, fun j k x y v w hjk hk hx hy => ?_,
    fun i above below => ?_, fun k inner => ?_, fun leaf => ?_, fun path j leads => ?_⟩
  · rw [nLeaf] at hj
    obtain ⟨sym, ⟨below, counted⟩, leaf⟩ := mem_seedLeaves.1 (List.getElem_mem hj)
    exact ⟨sym, (merging.getElem?_of_lt hj).trans (congrArg some leaf.symm), Nat.one_le_iff_ne_zero.2 counted, below⟩
  · rw [nLeaf] at hk
    have rising := List.pairwise_iff_getElem.1 (seedLeaves_pairwise s.params s.freq) j k (hjk.trans hk) hk hjk
    rw [merging.getElem?_of_lt (hjk.trans hk), Option.some_inj] at hx
    rw [merging.getElem?_of_lt hk, Option.some_inj] at hy
    rw [hx, hy] at rising
    exact rising x rfl y rfl
  · obtain ⟨l, r, x, y, merged⟩ := merging.merged i (nLeaf ▸ above) below
    exact ⟨l, r, x, y, merged.node, merged.ne, merged.leftFree.1, merged.rightFree.1, merged.left, merged.right⟩
  · obtain ⟨i, n, here, child⟩ := merging.exists_parent short inner
    exact ⟨i, n, here, child, fun j m hm childM => merging.parent_unique here hm child childM⟩
  · have nonempty : s.node ≠ [] := List.length_pos_iff.1 (by omega)
    obtain ⟨n, here, weight⟩ := merging.exists_root_weight short nonempty
    refine ⟨n, here, ?_⟩
    rw [weight, h.tokCnt_sum, seedLeaves_weight h.freq_wf fun c hc => (h.freq_range c hc).1]
  · rw [State.nNodes, node] at leads
    exact nLeaf ▸ length_le_of_follow_buildArena leads

/-- Settles O33: the same Leaves are merged to the same arena. -/
theorem treeIsAFunctionOfTheTable : Obligations.TreeIsAFunctionOfTheTable := by
  intro s₁ s₂ t₁ t₂ width counts noFault₁ noFault₂ run₁ run₂
  obtain rfl := eq_withTree_of_exec noFault₁ run₁
  obtain rfl := eq_withTree_of_exec noFault₂ run₂
  have seeds := seedLeaves_congr width counts
  simp only [State.withTree, buildArena, seeds, and_self]

/-! ### NODE_RD -/

/-- NODE_RD of a node of the tree (R125). -/
theorem exec_nodeRd {a : Operand} {n : Node} (noFault : s.fault = false) (built : s.treeValid = true)
    (listed : s.node[a.toNat]? = some n) :
    exec (.nodeRd a) s =
      .next (s.setRes (loWord n.weight) (hiWord s.params n.weight) (nodeRes2 n) (nodeRes3 n)) := by
  refine command_of_ok noFault ?_
  rw [built, listed]
  rfl

/-- Settles O20: the two checks in their order, then the read of either kind of node. -/
theorem nodeRdReadsANode : Obligations.NodeRdReadsANode := by
  intro s a
  refine ⟨fun inFault => exec_of_fault inFault nofun, fun noFault unbuilt => ?_, fun noFault built beyond => ?_,
    fun noFault built below => ?_⟩
  · refine raises_of_error (k := .sequenceError) rfl noFault ?_
    rw [unbuilt]
    rfl
  · refine raises_of_error (k := .illegalCommand) rfl noFault ?_
    rw [built, List.getElem?_eq_none beyond]
    rfl
  · have listed := List.getElem?_eq_getElem below
    refine ⟨_, _, exec_nodeRd noFault built listed, listed, loWord_getLsbD _, hiWord_getLsbD _ _,
      fun sym w leaf => ?_, fun w l r internal => ?_, rfl⟩
    · rw [leaf]
      exact ⟨rfl, rfl⟩
    · rw [internal]
      exact ⟨rfl, rfl⟩

/-! ### The tables of one Symbol and of none -/

/-- With at most one Leaf nothing is merged (R123, R124). -/
theorem buildArena_eq_seedLeaves {p : Params} {freq : Memory Nat} (few : (seedLeaves p freq).length ≤ 1) :
    buildArena p freq = seedLeaves p freq := by
  obtain ⟨q, short, merging⟩ := exists_merging_buildArena p freq
  have length := merging.length_eq short
  exact (merging.seeded.eq_of_length (by omega)).symm

/-- One Symbol, one Leaf (R123). -/
theorem buildArena_of_one {p : Params} {freq : Memory Nat} {sym : Nat} (below : sym < p.nsym)
    (counted : Memory.read 0 freq sym ≠ 0) (others : ∀ u, u < p.nsym → u ≠ sym → Memory.read 0 freq u = 0) :
    seedLeaves p freq = [.leaf sym (Memory.read 0 freq sym)] ∧
      buildArena p freq = [.leaf sym (Memory.read 0 freq sym)] := by
  have sole : ((List.range p.nsym).filter fun x => Memory.read 0 freq x != 0) = [sym] := by
    refine (List.pairwise_lt_range.filter _).eq_of_mem_iff (List.pairwise_singleton _ _) fun x => ?_
    rw [List.mem_filter, List.mem_range, bne_iff_ne, List.mem_singleton]
    constructor
    · rintro ⟨hx, nonzero⟩
      by_contra other
      exact nonzero (others x hx other)
    · rintro rfl
      exact ⟨below, counted⟩
  have seeds : seedLeaves p freq = [.leaf sym (Memory.read 0 freq sym)] := by
    rw [seedLeaves_eq, sole]
    rfl
  exact ⟨seeds, (buildArena_eq_seedLeaves (by rw [seeds, List.length_singleton])).trans seeds⟩

/-- No Symbol, no node (R124). -/
theorem buildArena_of_none {p : Params} {freq : Memory Nat} (uncounted : ∀ u, u < p.nsym → Memory.read 0 freq u = 0) :
    seedLeaves p freq = [] ∧ buildArena p freq = [] := by
  have seeds : seedLeaves p freq = [] := List.eq_nil_iff_forall_not_mem.2 fun n hn => by
    obtain ⟨sym, ⟨below, counted⟩, -⟩ := mem_seedLeaves.1 hn
    exact counted (uncounted sym below)
  exact ⟨seeds, (buildArena_eq_seedLeaves (by simp [seeds])).trans seeds⟩

/-- The state after CODE_GEN with a tree (42_code_table.md R140). -/
def State.withCodes (s : State) : State := { s with code := codeTable s.node, codeValid := true }

theorem exec_codeGen (noFault : s.fault = false) (built : s.treeValid = true) :
    exec .codeGen s = .next s.withCodes :=
  command_of_ok noFault (check_eq_ok.2 ⟨congrArg not built, rfl⟩)

/-- ENC_SYM of a Symbol with no code (43_bitstream_codec.md R160). -/
theorem raises_encSym_of_codeOf_eq_nil {a : Operand} (noFault : s.fault = false) (below : a.toNat < s.params.nsym)
    (valid : s.codeValid = true) (uncoded : s.codeOf a.toNat = []) : raises (.encSym a) s 1 := by
  refine raises_of_error (k := .unknownSymbol) rfl noFault ?_
  rw [checkSym_of_lt below, valid, uncoded]
  rfl

/-- DECODE of bits with no tree to decode them (43_bitstream_codec.md R164). -/
theorem raises_decode_of_node_eq_nil (noFault : s.fault = false) (built : s.treeValid = true) (noNode : s.node = [])
    (someBits : s.bits ≠ []) : raises .decode s 3 := by
  refine raises_of_error (k := .malformedFrequencyTable) rfl noFault ?_
  have stops : (s.nNodes == 0 && s.bitLen != 0) = true := by simp [State.nNodes, State.bitLen, noNode, someBits]
  rw [built, stops]
  rfl

/-- Settles O34: the three commands run on an arena of one Leaf. -/
theorem oneSymbolTable : Obligations.OneSymbolTable := by
  intro s sym noFault below counted others
  obtain ⟨seeds, arena⟩ := buildArena_of_one below counted others
  have code : s.withTree.withCodes.code = Memory.write [] [] sym [false] := congrArg codeTable arena
  have nonempty : buildArena s.params s.freq ≠ [] := arena ▸ List.cons_ne_nil _ _
  refine ⟨s.withTree, s.withTree.withCodes, _, exec_treeBuild noFault, exec_codeGen noFault rfl,
    exec_decode noFault rfl fun empty => absurd empty nonempty, congrArg List.length seeds, arena, ?_,
    fun u other => ?_, ?_⟩
  · rw [State.codeOf, code]
    exact Memory.read_write_self_of_ne _ _ _ _ (List.cons_ne_nil _ _)
  · rw [State.codeOf, code]
    exact Memory.read_write_of_ne _ _ _ _ _ other
  · change decodeBits (buildArena s.params s.freq) s.bits = _
    rw [arena]
    exact List.map_const' ..

/-- Settles O35: the three commands run on an arena of no node. -/
theorem emptyTable : Obligations.EmptyTable := by
  intro s noFault uncounted
  obtain ⟨seeds, arena⟩ := buildArena_of_none uncounted
  have node : s.withTree.withCodes.node = [] := arena
  have uncoded (u : Nat) : s.withTree.withCodes.codeOf u = [] :=
    congrArg (fun nodes => Memory.read [] (codeTable nodes) u) arena
  refine ⟨s.withTree, s.withTree.withCodes, exec_treeBuild noFault, exec_codeGen noFault rfl,
    congrArg List.length seeds, congrArg List.length arena, rfl, rfl, uncoded, fun a below => ?_, fun empty => ?_,
    fun nonempty => ?_⟩
  · exact raises_encSym_of_codeOf_eq_nil noFault below rfl (uncoded a.toNat)
  · rw [exec_decode (s := s.withTree.withCodes) noFault rfl fun _ => empty, node]
    rfl
  · exact raises_decode_of_node_eq_nil noFault rfl node nonempty

end Sys2Proof.Machine
end

section
/-! CODE_GEN and CODE_RD (42_code_table.md R140 to R143): the checks that stop them, what they do once their checks pass,
and the code table as the paths of the tree. -/

namespace Sys2Proof.Machine

variable {s : State}

/-! ### CODE_GEN -/

/-- Settles O21: the operand is checked by the decoder, then the one check of the command. -/
theorem codeGenWritesTheCodeTable : Obligations.CodeGenWritesTheCodeTable := by
  intro s
  refine ⟨fun inFault => exec_of_fault inFault nofun, fun a noFault nonzero => ?_, fun noFault unbuilt => ?_,
    fun noFault built => ⟨_, exec_codeGen noFault built, rfl⟩⟩
  · refine cmdWrite_of_illegalWord noFault ((illegalWord_iff_of_none ?_).2 ?_)
    · rw [opField_commandWord]
      decide
    · rwa [operandField_commandWord]
  · refine raises_of_error (k := .sequenceError) rfl noFault ?_
    rw [unbuilt]
    rfl

/-! ### CODE_RD -/

/-- CODE_RD of a Symbol below NSYM with a word index in ARG that a code can have (R143). -/
theorem exec_codeRd {a : Operand} (noFault : s.fault = false) (below : a.toNat < s.params.nsym)
    (valid : s.codeValid = true) (inCode : s.arg.toNat < s.params.codeWords) :
    exec (.codeRd a) s =
      .next (s.setRes (zext32 (s.codeOf a.toNat).length) (bitsWord (s.codeOf a.toNat) s.arg.toNat) 0 0) := by
  refine command_of_ok noFault ?_
  rw [checkSym_of_lt below, valid, decide_eq_false (Nat.not_le.2 inCode)]
  rfl

/-- Settles O22: the three checks in their order, then the read of one word of the code. -/
theorem codeRdReadsACodeWord : Obligations.CodeRdReadsACodeWord := by
  intro s a
  refine ⟨fun inFault => exec_of_fault inFault nofun, fun noFault above => ?_, fun noFault below invalid => ?_,
    fun noFault below valid beyond => ?_, fun noFault below valid inCode => ?_⟩
  · exact raises_of_error rfl noFault (checkSym_of_ge above _)
  · refine raises_of_error (k := .sequenceError) rfl noFault ?_
    rw [checkSym_of_lt below, invalid]
    rfl
  · refine raises_of_error (k := .illegalCommand) rfl noFault ?_
    have stops : s.params.codeWords ≤ s.arg.toNat := beyond
    rw [checkSym_of_lt below, valid, decide_eq_true stops]
    rfl
  · exact ⟨_, exec_codeRd noFault below valid inCode, rfl, bitsWord_getLsbD _ _, rfl⟩

/-! ### The codes and the paths of the tree -/

/-- A path from the root of a subtree to a Leaf is, after the path to the subtree, the code of the Leaf (R141). -/
theorem TreeAt.mem_codes_of_follow {arena : List Node} {i : Nat} {t : CodeTree} (h : TreeAt arena i t)
    (path : Bits) {steps : Bits} {j sym w : Nat} (leads : follow arena i steps = some j)
    (landed : arena[j]? = some (.leaf sym w)) : (sym, path ++ steps) ∈ t.codes path := by
  induction h generalizing path steps with
  | leaf here =>
    cases steps with
    | nil =>
      obtain rfl := Option.some.inj leads
      obtain ⟨rfl, -⟩ := Node.leaf.inj (Option.some.inj (here.symm.trans landed))
      simp [CodeTree.codes]
    | cons b steps => simp [follow, here] at leads
  | node here _ _ left right =>
    cases steps with
    | nil =>
      obtain rfl := Option.some.inj leads
      cases here.symm.trans landed
    | cons b steps =>
      simp only [follow, here] at leads
      rw [List.append_cons, CodeTree.codes, List.mem_append]
      cases b with
      | false => exact .inl (left _ leads)
      | true => exact .inr (right _ leads)

/-- The codes of a tree are exactly its paths from the root to the Leaves (R141). -/
theorem TreeAt.mem_codes_nil_iff {arena : List Node} {i : Nat} {t : CodeTree} (h : TreeAt arena i t) {sym : Nat}
    {b : Bits} :
    (sym, b) ∈ t.codes [] ↔ ∃ j w, follow arena i b = some j ∧ arena[j]? = some (.leaf sym w) := by
  constructor
  · intro coded
    obtain ⟨steps, j, w, rfl, leads, landed⟩ := h.follow_of_mem_codes coded
    exact ⟨j, w, leads, landed⟩
  · rintro ⟨j, w, leads, landed⟩
    exact h.mem_codes_of_follow [] leads landed

/-- What a table with the codes `cs` written gives for a Symbol is its code among `cs`, or nothing. -/
theorem read_writeCodes_nil_eq_iff {cs : Memory Bits} (distinct : (cs.map Prod.fst).Nodup)
    (nonempty : ∀ c ∈ cs, c.2 ≠ []) {sym : Nat} {b : Bits} :
    Memory.read [] (writeCodes [] cs) sym = b ∧ b ≠ [] ↔ (sym, b) ∈ cs := by
  constructor
  · rintro ⟨rfl, coded⟩
    obtain ⟨listed, mem⟩ := read_writeCodes_nil distinct nonempty sym
    exact mem (listed.1 coded)
  · exact fun mem => ⟨read_writeCodes_of_mem distinct mem (nonempty _ mem), nonempty _ mem⟩

/-- With two Leaves or more, the code table of the built arena holds exactly its paths from the root to the Leaves
(R141). -/
theorem read_codeTable_buildArena_eq_iff {p : Params} {freq : Memory Nat} (two : 2 ≤ (seedLeaves p freq).length)
    {sym : Nat} {b : Bits} :
    Memory.read [] (codeTable (buildArena p freq)) sym = b ∧ b ≠ [] ↔
      ∃ j w, follow (buildArena p freq) ((buildArena p freq).length - 1) b = some j ∧
        (buildArena p freq)[j]? = some (.leaf sym w) := by
  obtain ⟨q, -, merging⟩ := exists_merging_buildArena p freq
  have length : 2 ≤ (buildArena p freq).length := two.trans merging.seeded.length_le
  obtain ⟨t, root, size, symbols⟩ := exists_tree_of_buildArena p freq (List.length_pos_iff.1 (by omega))
  have distinct : (t.rootCodes.map Prod.fst).Nodup := by
    rw [t.rootCodes_map_fst, symbols.nodup_iff]
    exact arenaSymbols_buildArena_nodup p freq
  rw [root.codeTable_eq size,
    read_writeCodes_nil_eq_iff distinct fun c => CodeTree.snd_ne_nil_of_mem_rootCodes]
  cases t with
  | leaf =>
    rw [CodeTree.size] at size
    omega
  | node l r => exact root.mem_codes_nil_iff

/-- Settles O36: a valid code table is that of the built arena. -/
theorem codesAreLeafPaths : Obligations.CodesAreLeafPaths := by
  intro s h _ valid two sym b
  obtain ⟨built, table⟩ := h.code_valid valid
  obtain ⟨node, nLeaf⟩ := h.tree_valid built
  rw [State.codeOf, table, State.nNodes, node]
  exact read_codeTable_buildArena_eq_iff (nLeaf ▸ two)

end Sys2Proof.Machine
end

section
/-! The bitstream codec (43_bitstream_codec.md R160 to R166): the checks that stop ENC_SYM, DECODE, BITS_RD and SYM_RD,
what they do once their checks pass, and the bitstring as the codes of the Symbols that DECODE emits. -/

namespace Sys2Proof.Machine

variable {s : State}

/-! ### What DECODE emits -/

/-- Some beginning of the bits is a path from node `i` to a Leaf (R161). -/
def PassesLeaf (arena : List Node) (i : Nat) (bits : Bits) : Prop :=
  ∃ steps rest j sym w, bits = steps ++ rest ∧ follow arena i steps = some j ∧ arena[j]? = some (.leaf sym w)

/-- All the bits are a path from node `i` to an Internal node (R163). -/
def EndsInside (arena : List Node) (i : Nat) (bits : Bits) : Prop :=
  ∃ j, follow arena i bits = some j ∧ isInternalAt arena j

/-- Bits read from the root of a subtree pass a Leaf, or they end on an Internal node (R161, R163). -/
theorem TreeAt.passesLeaf_or_endsInside {arena : List Node} {i : Nat} {t : CodeTree} (h : TreeAt arena i t)
    (bits : Bits) : PassesLeaf arena i bits ∨ EndsInside arena i bits := by
  induction h generalizing bits with
  | leaf here => exact .inl ⟨[], bits, _, _, _, rfl, rfl, here⟩
  | @node i l r _ _ here _ _ left right =>
    cases bits with
    | nil => exact .inr ⟨i, rfl, _, l, r, here⟩
    | cons b bits =>
      have step (path : Bits) : follow arena i (b :: path) = follow arena (if b then r else l) path := by
        simp [follow, here]
      have child : PassesLeaf arena (if b then r else l) bits ∨ EndsInside arena (if b then r else l) bits := by
        cases b with
        | false => exact left bits
        | true => exact right bits
      obtain ⟨steps, rest, j, sym, w, rfl, leads, landed⟩ | ⟨j, leads, inner⟩ := child
      · exact .inl ⟨b :: steps, rest, j, sym, w, rfl, (step steps).trans leads, landed⟩
      · exact .inr ⟨j, (step bits).trans leads, inner⟩

/-- Where the table gives every Leaf its path from the root, and no path is empty, the bits walked are the codes of the
Symbols emitted and a tail that ends on an Internal node (R161, R163). -/
theorem TreeAt.exists_tail_of_walkBits {arena : List Node} {root : Nat} {t : CodeTree} (h : TreeAt arena root t)
    {table : Memory Bits}
    (coded : ∀ steps j sym w, follow arena root steps = some j → arena[j]? = some (.leaf sym w) →
      Memory.read [] table sym = steps ∧ steps ≠ []) (bits : Bits) :
    ∃ tail, bits = codesOf table (walkBits arena root root bits) ++ tail ∧ EndsInside arena root tail := by
  induction length : bits.length using Nat.strong_induction_on generalizing bits with
  | _ n ih =>
    obtain ⟨steps, rest, j, sym, w, rfl, leads, landed⟩ | ⟨j, leads, inner⟩ := h.passesLeaf_or_endsInside bits
    · obtain ⟨code, nonempty⟩ := coded steps j sym w leads landed
      obtain ⟨b, path, rfl⟩ := List.exists_cons_of_ne_nil nonempty
      obtain ⟨tail, split, inside⟩ := ih rest.length (by simp [← length]) rest rfl
      refine ⟨tail, ?_, inside⟩
      rw [walkBits_leaf_path arena root root j sym w b path rest leads landed, codesOf, List.map_cons,
        List.flatten_cons, code, List.append_assoc]
      exact congrArg (b :: path ++ ·) split
    · refine ⟨bits, ?_, j, leads, inner⟩
      rw [walkBits_internal_path arena root root j bits leads inner]
      rfl

/-- With two Leaves or more, the bits decoded are the codes of the Symbols emitted and a tail that ends on an Internal
node (R161, R163). -/
theorem exists_tail_of_decodeBits_buildArena {p : Params} {freq : Memory Nat} (two : 2 ≤ (seedLeaves p freq).length)
    (bits : Bits) :
    ∃ tail, bits = codesOf (codeTable (buildArena p freq)) (decodeBits (buildArena p freq) bits) ++ tail ∧
      EndsInside (buildArena p freq) ((buildArena p freq).length - 1) tail := by
  have coded : ∀ steps j sym w, follow (buildArena p freq) ((buildArena p freq).length - 1) steps = some j →
      (buildArena p freq)[j]? = some (.leaf sym w) →
      Memory.read [] (codeTable (buildArena p freq)) sym = steps ∧ steps ≠ [] :=
    fun steps j sym w leads landed => (read_codeTable_buildArena_eq_iff two).2 ⟨j, w, leads, landed⟩
  have nonempty : buildArena p freq ≠ [] := by
    obtain ⟨q, -, merging⟩ := exists_merging_buildArena p freq
    exact List.length_pos_iff.1 (Nat.zero_lt_two.trans_le (two.trans merging.seeded.length_le))
  obtain ⟨t, root, -⟩ := exists_tree_of_buildArena p freq nonempty
  have walk : decodeBits (buildArena p freq) bits =
      walkBits (buildArena p freq) ((buildArena p freq).length - 1) ((buildArena p freq).length - 1) bits := by
    rw [decodeBits, List.getLast?_eq_getElem?]
    cases root with
    | leaf here => exact absurd rfl (coded [] _ _ _ rfl here).2
    | node here => rw [here]
  rw [walk]
  exact root.exists_tail_of_walkBits coded bits

/-- Settles O25: the tree of a valid state is the built one, and only Symbols with a count are emitted. -/
theorem decodeEmitsTheLeavesReached : Obligations.DecodeEmitsTheLeavesReached := by
  intro s h noFault built two
  obtain ⟨node, nLeaf⟩ := h.tree_valid built
  obtain ⟨tail, split, j, leads, inner⟩ := exists_tail_of_decodeBits_buildArena (nLeaf ▸ two) s.bits
  rw [← node] at split leads inner
  have decodable : s.node = [] → s.bits = [] := by
    intro empty
    obtain ⟨w, l, r, here⟩ := inner
    simp [empty] at here
  refine ⟨_, tail, j, exec_decode noFault built decodable, split, fun x emitted => ?_, leads, inner, rfl⟩
  have leaf := mem_arenaSymbols_of_mem_decodeBits emitted
  rw [node] at leaf ⊢
  exact ((codeTable_buildArena_spec s.params s.freq).1 x).2 (mem_arenaSymbols_buildArena.1 leaf)

/-! ### The commands and their checks -/

/-- The word of a command of class `none` with an operand raises IllegalCommand (30_encoding.md R82, R84). -/
theorem cmdWrite_of_none_operand {op : BitVec 8} {a : Operand} (noFault : s.fault = false)
    (row : op.toNat ∈ noneOpcodes) (nonzero : a ≠ 0) :
    cmdWrite (commandWord op a) s = .next (s.takeFault .illegalCommand (commandWord op a)) := by
  refine cmdWrite_of_illegalWord noFault ((illegalWord_iff_of_none ?_).2 ?_)
  · rwa [opField_commandWord]
  · rwa [operandField_commandWord]

/-- ENC_SYM of a Symbol that has a code, where the code fits (R160). -/
theorem exec_encSym {a : Operand} (noFault : s.fault = false) (below : a.toNat < s.params.nsym)
    (valid : s.codeValid = true) (coded : s.codeOf a.toNat ≠ [])
    (fits : s.bitLen + (s.codeOf a.toNat).length ≤ s.params.bitCap) :
    exec (.encSym a) s = .next { s with bits := s.bits ++ s.codeOf a.toNat } := by
  refine command_of_ok noFault ?_
  rw [checkSym_of_lt below, valid, beq_eq_false_iff_ne.2 (mt List.length_eq_zero_iff.1 coded),
    decide_eq_false (Nat.not_lt.2 fits)]
  rfl

/-- Settles O23: the four checks in their order, then the append. -/
theorem encSymAppendsTheCode : Obligations.EncSymAppendsTheCode := by
  intro s a
  refine ⟨fun inFault => exec_of_fault inFault nofun, fun noFault above => ?_, fun noFault below invalid => ?_,
    fun noFault below valid uncoded => raises_encSym_of_codeOf_eq_nil noFault below valid uncoded,
    fun noFault below valid coded full => ?_, fun noFault below valid coded fits => ?_⟩
  · exact raises_of_error rfl noFault (checkSym_of_ge above _)
  · refine raises_of_error (k := .sequenceError) rfl noFault ?_
    rw [checkSym_of_lt below, invalid]
    rfl
  · refine raises_of_error (k := .capacityExceeded) rfl noFault ?_
    have stops : s.params.bitCap < s.bitLen + (s.codeOf a.toNat).length := full
    rw [checkSym_of_lt below, valid, beq_eq_false_iff_ne.2 (mt List.length_eq_zero_iff.1 coded), decide_eq_true stops]
    rfl
  · exact ⟨_, exec_encSym noFault below valid coded fits, List.length_append, rfl⟩

/-- Settles O24: the operand is checked by the decoder, then the two checks of the command. -/
theorem decodeReplacesTheSymbolBuffer : Obligations.DecodeReplacesTheSymbolBuffer := by
  intro s
  refine ⟨fun inFault => exec_of_fault inFault nofun,
    fun a noFault nonzero => cmdWrite_of_none_operand noFault (by decide) nonzero, fun noFault unbuilt => ?_,
    fun noFault built noNode someBits => ?_, fun noFault built decodable => ?_⟩
  · refine raises_of_error (k := .sequenceError) rfl noFault ?_
    rw [unbuilt]
    rfl
  · exact raises_decode_of_node_eq_nil noFault built (List.length_eq_zero_iff.1 noNode)
      (mt List.length_eq_zero_iff.2 someBits)
  · refine ⟨_, exec_decode noFault built fun noNode => ?_, decodeBits_length_le .., rfl⟩
    exact List.length_eq_zero_iff.1 (decodable.resolve_left (not_not_intro (congrArg List.length noNode)))

/-- BITS_RD of a word with a bit of the bitstring in it (R165). -/
theorem exec_bitsRd {a : Operand} (noFault : s.fault = false) (inside : 32 * a.toNat < s.bitLen) :
    exec (.bitsRd a) s = .next (s.setRes (bitsWord s.bits a.toNat) 0 0 0) := by
  refine command_of_ok noFault ?_
  rw [decide_eq_false (by omega)]
  rfl

/-- Settles O26: the index check, then the read of one word of the bitstring. -/
theorem bitsRdReadsABitWord : Obligations.BitsRdReadsABitWord := by
  intro s a
  refine ⟨fun inFault => exec_of_fault inFault nofun, fun noFault beyond => ?_, fun noFault inside => ?_⟩
  · refine raises_of_error (k := .illegalCommand) rfl noFault ?_
    rw [decide_eq_true (by omega)]
    rfl
  · exact ⟨_, exec_bitsRd noFault inside, bitsWord_getLsbD _ _, rfl⟩

/-- Settles O27: the index check, then the read of one Symbol. -/
theorem symRdReadsASymbol : Obligations.SymRdReadsASymbol := by
  intro s a
  refine ⟨fun inFault => exec_of_fault inFault nofun, fun noFault beyond => ?_, fun noFault below => ?_⟩
  · refine raises_of_error (k := .illegalCommand) rfl noFault ?_
    rw [List.getElem?_eq_none beyond]
  · have listed := List.getElem?_eq_getElem below
    exact ⟨_, listed, exec_symRd noFault listed⟩

end Sys2Proof.Machine
end

section
/-! The byte packer (44_byte_packer.md R180 to R185): the bytes of a packed bitstring, the checks that stop UNPACK,
BLOB_PUSH and BLOB_RD, and what the four commands do once their checks pass. -/

namespace Sys2Proof.Machine

variable {s : State}

/-! ### PACK -/

/-- A bitstring of a whole number of bytes needs no padding (R185). -/
theorem padding_eq_zero {n : Nat} (aligned : n % 8 = 0) : padding n = 0 := by
  rw [padding, aligned]

/-- After the padding count come the bytes of the bitstring (R180). -/
theorem packBits_getElem? {b : Bits} {i : Nat} (inside : i < (b.length + padding b.length) / 8) :
    (packBits b)[1 + i]? = some (bitsByte b i) := by
  rw [packBits, Nat.add_comm 1, List.getElem?_cons_succ, List.getElem?_map, List.getElem?_range inside, Option.map_some]

/-- A buffer of one byte or more has room for a packed bitstring of at most BIT_CAP bits (R180). -/
theorem packBits_length_le_of_pos {p : Params} (positive : 1 ≤ p.blobCap) {bits : Bits}
    (fits : bits.length ≤ p.bitCap) : (packBits bits).length ≤ p.blobCap := by
  have := padding_le bits.length
  rw [Params.bitCap] at fits
  rw [packBits_length]
  omega

theorem exec_pack (noFault : s.fault = false) : exec .pack s = .next { s with blob := packBits s.bits } :=
  command_of_ok (i := .pack) noFault rfl

/-- Settles O28: the operand is checked by the decoder, and the blob is the packed bitstring. -/
theorem packWritesTheBlob : Obligations.PackWritesTheBlob := by
  intro s
  refine ⟨fun inFault => exec_of_fault inFault nofun,
    fun a noFault nonzero => cmdWrite_of_none_operand noFault (by decide) nonzero, fun noFault =>
    ⟨_, padding s.bitLen, exec_pack noFault, padding_le _, add_padding_mod _, padding_eq_zero, rfl, packBits_length _,
      fun i j inside bit => ⟨_, packBits_getElem? inside, bitsByte_getLsbD _ _ _ bit⟩,
      fun fits positive => packBits_length_le_of_pos positive fits, rfl⟩⟩

/-! ### UNPACK -/

variable {count : Byte} {data : List Byte}

/-- A blob with a first byte is that byte, its padding count, and the data bytes. -/
theorem exists_data_of_blob_getElem?_zero (first : s.blob[0]? = some count) :
    ∃ data, s.blob = count :: data ∧ s.blobLen - 1 = data.length := by
  rw [← List.head?_eq_getElem?] at first
  obtain ⟨data, blob⟩ := List.head?_eq_some_iff.1 first
  exact ⟨data, blob, by rw [State.blobLen, blob, List.length_cons, Nat.add_sub_cancel]⟩

/-- UNPACK of an empty blob (R182). -/
theorem raises_unpack_of_blob_eq_nil (noFault : s.fault = false) (empty : s.blob = []) : raises .unpack s 2 := by
  refine raises_of_error (k := .invalidPadding) rfl noFault ?_
  rw [empty]

/-- UNPACK where the count is above 7 or above the number of data bits (R182). -/
theorem raises_unpack_of_count (noFault : s.fault = false) (blob : s.blob = count :: data)
    (bad : 7 < count.toNat ∨ 8 * data.length < count.toNat) : raises .unpack s 2 := by
  refine raises_of_error (k := .invalidPadding) rfl noFault ?_
  simp only [blob, check_eq_error, decide_eq_true_eq, decide_eq_false_iff_not, and_true]
  omega

/-- UNPACK where the count is legal and its padding is present (R182). -/
theorem exec_unpack (noFault : s.fault = false) (blob : s.blob = count :: data) (legal : count.toNat ≤ 7)
    (present : count.toNat ≤ 8 * data.length) :
    exec .unpack s = .next { s with bits := dataBits data (8 * data.length - count.toNat) } := by
  refine command_of_ok noFault ?_
  rw [blob]
  exact check_eq_ok.2 ⟨decide_eq_false (Nat.not_lt.2 legal),
    check_eq_ok.2 ⟨decide_eq_false (Nat.not_lt.2 present), rfl⟩⟩

/-- Bit `x` of the unpacked bitstring lies in data byte `x div 8` of the blob, which is there (R182). -/
theorem exists_byte_of_dataBits {n x : Nat} (present : n ≤ 8 * data.length) (inside : x < n) :
    ∃ v : Byte, (count :: data)[1 + x / 8]? = some v ∧ (dataBits data n)[x]? = some (v.getLsbD (7 - x % 8)) := by
  have listed : x / 8 < data.length := by omega
  refine ⟨data[x / 8], ?_, ?_⟩
  · rw [Nat.add_comm 1, List.getElem?_cons_succ, List.getElem?_eq_getElem listed]
  · rw [dataBits_getElem? _ _ _ inside, List.getD_eq_getElem _ _ listed]

/-- Settles O29: the operand is checked by the decoder, then the three checks of the command. -/
theorem unpackWritesTheBitstring : Obligations.UnpackWritesTheBitstring := by
  intro s
  refine ⟨fun inFault => exec_of_fault inFault nofun,
    fun a noFault nonzero => cmdWrite_of_none_operand noFault (by decide) nonzero,
    fun noFault empty => raises_unpack_of_blob_eq_nil noFault (List.length_eq_zero_iff.1 empty),
    fun p noFault first above => ?_, fun p noFault first above => ?_, fun p noFault first legal present => ?_⟩
  all_goals obtain ⟨data, blob, length⟩ := exists_data_of_blob_getElem?_zero first
  · exact raises_unpack_of_count noFault blob (.inl above)
  · exact raises_unpack_of_count noFault blob (.inr (length ▸ above))
  · rw [length] at present ⊢
    refine ⟨_, exec_unpack noFault blob legal present, dataBits_length _ _, fun x inside => ?_, rfl⟩
    rw [blob]
    exact exists_byte_of_dataBits (Nat.sub_le _ _) (inside.trans_eq (dataBits_length _ _))

/-! ### BLOB_PUSH and BLOB_RD -/

/-- The word of BLOB_PUSH with an operand of 256 or more raises IllegalCommand (30_encoding.md R82, R84). -/
theorem cmdWrite_blobPush_of_ge {a : Operand} (noFault : s.fault = false) (above : 256 ≤ a.toNat) :
    cmdWrite (commandWord 0x52 a) s = .next (s.takeFault .illegalCommand (commandWord 0x52 a)) := by
  refine cmdWrite_of_illegalWord noFault ((illegalWord_iff_of_byte ?_).2 ?_)
  · rw [opField_commandWord]
    rfl
  · rwa [operandField_commandWord, Nat.not_lt]

/-- Settles O30: the operand is checked by the decoder, then the capacity check and the append. -/
theorem blobPushAppendsAByte : Obligations.BlobPushAppendsAByte := by
  intro s b
  refine ⟨fun inFault => exec_of_fault inFault nofun, fun a => cmdWrite_blobPush_of_ge, fun noFault full => ?_,
    fun noFault notFull =>
      ⟨_, exec_blobPush noFault notFull, List.length_append, List.getElem?_concat_length, rfl⟩⟩
  exact raises_of_error (k := .capacityExceeded) rfl noFault (check_eq_error.2 (.inl ⟨beq_iff_eq.2 full, rfl⟩))

/-- Settles O31: the index check, then the read of one byte. -/
theorem blobRdReadsAByte : Obligations.BlobRdReadsAByte := by
  intro s a
  refine ⟨fun inFault => exec_of_fault inFault nofun, fun noFault beyond => ?_, fun noFault below => ?_⟩
  · refine raises_of_error (k := .illegalCommand) rfl noFault ?_
    rw [List.getElem?_eq_none beyond]
  · have listed := List.getElem?_eq_getElem below
    exact ⟨_, listed, exec_blobRd noFault listed⟩

end Sys2Proof.Machine
end

section
/-! Control and the port (45_control.md R200 to R203): what each port operation does, and the commands NOP and
CLR_ALL. -/

namespace Sys2Proof.Machine

variable {s : State} {w v : Word} {k : Nat} {rest : List HostEvent}

/-! ### The register map -/

/-- The word indices 0 to 15 and the registers stand one to one (10_state.md R36). -/
theorem Reg.ofIndex?_eq_some_iff {r : Reg} : Reg.ofIndex? k = some r ↔ r.index = k := by
  constructor
  · intro mapped
    unfold Reg.ofIndex? at mapped
    split at mapped <;> cases mapped <;> rfl
  · rintro rfl
    cases r <;> rfl

/-- No register stands at a word index of 16 or more (20_memory.md R63). -/
theorem Reg.ofIndex?_eq_none_of_ge (beyond : 16 ≤ k) : Reg.ofIndex? k = none := by
  rw [Option.eq_none_iff_forall_ne_some]
  intro r mapped
  have below : r.index < 16 := by cases r <;> decide
  have same := Reg.ofIndex?_eq_some_iff.1 mapped
  omega

theorem State.portRead_index (s : State) (r : Reg) : s.portRead r.index = s.readReg r := by
  rw [State.portRead, Reg.ofIndex?_eq_some_iff.2 rfl]

theorem State.portRead_of_ge (beyond : 16 ≤ k) : s.portRead k = 0 := by
  rw [State.portRead, Reg.ofIndex?_eq_none_of_ge beyond]
  rfl

/-- Every write but one to CMD or ARG is ignored (20_memory.md R63). -/
theorem portWrite_of_ne (notCmd : k ≠ 0) (notArg : k ≠ 1) : portWrite k v s = .next s := by
  unfold portWrite
  split
  case h_1 cmd => exact absurd (Reg.ofIndex?_eq_some_iff.1 cmd).symm notCmd
  case h_2 arg => exact absurd (Reg.ofIndex?_eq_some_iff.1 arg).symm notArg
  case h_3 => rfl

/-! ### A step on a port operation -/

/-- Every step of every state has a next state (R203). -/
theorem step_next (s : State) : ∃ t, step s = .next t := by
  rw [step, nextEvent]
  split
  · exact ⟨_, rfl⟩
  · exact hostEvent_next _ _

/-- While reset is not asserted, a step that finds a write performs it on the state past it (20_memory.md R70). -/
theorem step_regWrite (next : s.pending = .regWrite k v :: rest) (running : s.resetPin = false) :
    step s = portWrite k v (s.accept rest) := by
  rw [step, nextEvent, next]
  exact if_neg (Bool.eq_false_iff.1 running)

/-- While reset is not asserted, a step that finds a read returns the word there and changes nothing else
(20_memory.md R65). -/
theorem step_regRead (next : s.pending = .regRead k :: rest) (running : s.resetPin = false) :
    step s = .next { s with pending := rest, readData := some (s.portRead k) } := by
  rw [step, nextEvent, next]
  exact if_neg (Bool.eq_false_iff.1 running)

/-- Settles O6: by the step on each port operation and the register map. -/
theorem portOperationsAreTotal : Obligations.PortOperationsAreTotal := by
  refine ⟨step_next, fun s v rest next running => step_regWrite next running,
    fun s k v rest next running notCmd notArg => ?_, fun s k rest next running => ?_⟩
  · rw [step_regWrite next running]
    exact portWrite_of_ne notCmd notArg
  · refine ⟨s.portRead k, step_regRead next running, ?_, ?_⟩
    · rintro (rfl | beyond)
      · rfl
      · exact State.portRead_of_ge beyond
    · rintro r rfl
      exact s.portRead_index r

/-! ### Running the written command -/

/-- Writing a word that decodes to `i` runs `i` while FAULT = 0 (R202 step (4)). -/
theorem cmdWrite_of_decode {i : Instr} (noFault : s.fault = false) (answer : decode s.params w = .ok i) :
    cmdWrite w s = exec i s := by
  simp [cmdWrite, noFault, answer]

/-- In the fault state every word but that of CLR_ALL is ignored (R202 step (1)). -/
theorem cmdWrite_of_fault (inFault : s.fault = true) (other : w ≠ clrAllWord) : cmdWrite w s = .next s := by
  simp [cmdWrite, inFault, other]

/-- Settles O5: the step performs the write to CMD, which runs the decoded command. -/
theorem stepRunsTheWrittenCommand : Obligations.StepRunsTheWrittenCommand := by
  refine ⟨fun s w rest i next running noFault answer => ?_, fun s nbits w i running noFault answer => ?_⟩
  · rw [step_cmdWrite next running]
    exact cmdWrite_of_decode (s := s.accept rest) noFault answer
  · rw [step_cmdWrite (s := s.withFetchWord nbits w) rfl running]
    exact cmdWrite_of_decode (s := s.accept s.pending) noFault answer

/-! ### CLR_ALL -/

/-- The word of CLR_ALL acts in every state, the fault state included (R201). -/
theorem cmdWrite_clrAllWord (s : State) : cmdWrite clrAllWord s = .next s.clear := by
  have word : clrAllWord = Instr.clrAll.encode := by decide
  rw [word]
  exact cmdWrite_encode rfl

/-- A word with an operand is not that of CLR_ALL, whose operand field is 0 (30_encoding.md R82). -/
theorem commandWord_ne_clrAllWord {op : BitVec 8} {a : Operand} (nonzero : a ≠ 0) :
    commandWord op a ≠ clrAllWord := by
  intro same
  have operand := congrArg operandField same
  rw [operandField_commandWord] at operand
  exact nonzero (operand.trans (by decide))

/-- Settles O10: the word of CLR_ALL clears the block, with an operand it is an illegal word, and ResetState is
read off. -/
theorem clearAllGivesResetState : Obligations.ClearAllGivesResetState := by
  refine ⟨fun s => rfl, fun s rest next running => ?_, fun s a rest next running nonzero => ?_, fun s reset => ?_⟩
  · rw [step_cmdWrite next running]
    exact cmdWrite_clrAllWord _
  · rw [step_cmdWrite next running]
    exact ⟨fun noFault => cmdWrite_of_none_operand (s := s.accept rest) noFault (by decide) nonzero,
      fun inFault => cmdWrite_of_fault (s := s.accept rest) inFault (commandWord_ne_clrAllWord nonzero)⟩
  · have same : s = s.clear := by rw [State.clear, ← reset]
    rw [same]
    exact ⟨fun _ => rfl, rfl, rfl, rfl, rfl, rfl, rfl, rfl, rfl, rfl, rfl, rfl, rfl, rfl, rfl, rfl, rfl⟩

/-! ### NOP -/

/-- NOP changes nothing, whether ignored in the fault state or performed (R200). -/
theorem exec_nop (s : State) : exec .nop s = .next s := by
  cases fault : s.fault with
  | true => exact exec_of_fault fault nofun
  | false => exact command_of_ok (i := .nop) fault rfl

/-- Settles O14: the all-zero word is that of NOP, and an operand makes it an illegal word. -/
theorem nopChangesNothing : Obligations.NopChangesNothing := by
  refine ⟨exec_nop, fun s => ?_, fun s a noFault nonzero => cmdWrite_of_none_operand noFault (by decide) nonzero⟩
  have word : 0#32 = Instr.nop.encode := by decide
  rw [word, cmdWrite_encode rfl, exec_nop]

end Sys2Proof.Machine
end

section
/-! The order of the merging loop and the depth of a node: a node that comes before another is no nearer to the root,
so that a larger count never has a longer code (49_properties.md R220). -/

namespace Sys2Proof.Machine

variable {arena leaves : List Node} {q : List Key} {i j k : Nat}

/-! ### Weights along the loop -/

/-- No two nodes come before each other (R121). -/
theorem comesBefore_asymm (h : comesBefore arena j k) : ¬ comesBefore arena k j := by
  obtain ⟨x, y, hx, hy, order⟩ := h
  rintro ⟨y', x', hy', hx', order'⟩
  obtain rfl := Option.some.inj (hx.symm.trans hx')
  obtain rfl := Option.some.inj (hy.symm.trans hy')
  omega

theorem comesBefore.weight_le {x y : Node} (h : comesBefore arena j k) (hx : arena[j]? = some x)
    (hy : arena[k]? = some y) : x.weight ≤ y.weight := by
  obtain ⟨x', y', hx', hy', order⟩ := h
  obtain rfl := Option.some.inj (hx.symm.trans hx')
  obtain rfl := Option.some.inj (hy.symm.trans hy')
  omega

/-- What is in the collection when node `i + 1` is made is node `i`, or was there when node `i` was made and was not
taken for it (41_tree_builder.md R120). -/
theorem inCollection_succ_cases {n : Node} (free : inCollection arena (i + 1) k) (here : arena[i]? = some n) :
    k = i ∨ (inCollection arena i k ∧ ¬ n.hasChild k) := by
  obtain ⟨below, notChild⟩ := free
  obtain older | rfl := Nat.lt_succ_iff_lt_or_eq.1 below
  · exact .inr ⟨⟨older, fun j m hj => notChild j m (hj.trans (Nat.lt_succ_self i))⟩,
      notChild i n (Nat.lt_succ_self i) here⟩
  · exact .inl rfl

namespace MergedAt

variable {a b : Nat} {x y : Node}

/-- A node in the collection after node `i` is made weighs no less than either child of `i`: it is node `i` itself or
came after both (R121, R122). -/
theorem weight_le_of_succ (h : MergedAt arena i a b x y) {n : Node} (hk : arena[k]? = some n)
    (free : inCollection arena (i + 1) k) : x.weight ≤ n.weight ∧ y.weight ≤ n.weight := by
  obtain rfl | ⟨free, notChild⟩ := inCollection_succ_cases free h.node
  · obtain rfl := Option.some.inj (h.node.symm.trans hk)
    exact ⟨Nat.le_add_right _ _, Nat.le_add_left _ _⟩
  · obtain ⟨notL, notR⟩ := not_or.1 notChild
    exact ⟨(h.first k free notL).weight_le h.left hk, (h.second k free notL notR).weight_le h.right hk⟩

end MergedAt

namespace Merging

/-- Internal nodes are made in the order of their weights (R120, R121). -/
theorem weight_le_of_le (h : Merging leaves q arena) {m n : Node} (internal : leaves.length ≤ i) (order : i ≤ j)
    (hi : arena[i]? = some m) (hj : arena[j]? = some n) : m.weight ≤ n.weight := by
  induction j, order using Nat.le_induction generalizing n with
  | base =>
    obtain rfl := Option.some.inj (hi.symm.trans hj)
    exact Nat.le_refl _
  | succ j order ih =>
    have below := (List.getElem?_eq_some_iff.1 hj).1
    obtain ⟨a, b, x, y, merged⟩ := h.merged j (internal.trans order) (Nat.lt_of_succ_lt below)
    obtain ⟨a', b', x', y', next⟩ := h.merged (j + 1) (internal.trans (order.trans (Nat.le_succ j))) below
    have left := (merged.weight_le_of_succ next.left next.leftFree).1
    have right := (merged.weight_le_of_succ next.right next.rightFree).2
    obtain rfl := Option.some.inj (next.node.symm.trans hj)
    exact (ih merged.node).trans (Nat.add_le_add left right)

/-- A node that has a child is a merge. -/
theorem exists_mergedAt_of_hasChild (h : Merging leaves q arena) {n : Node} (here : arena[i]? = some n)
    (child : n.hasChild k) : leaves.length ≤ i ∧ ∃ a b x y, MergedAt arena i a b x y ∧ (k = a ∨ k = b) := by
  have internal : leaves.length ≤ i := by
    by_contra old
    rw [List.prefix_iff_getElem?.1 h.seeded i (Nat.not_le.1 old)] at here
    obtain rfl := Option.some.inj here
    exact h.childless _ (List.getElem_mem _) k child
  obtain ⟨a, b, x, y, merged⟩ := h.merged i internal (List.getElem?_eq_some_iff.1 here).1
  obtain rfl := Option.some.inj (merged.node.symm.trans here)
  exact ⟨internal, a, b, x, y, merged, child⟩

/-- A node that comes before a child of node `i` was there when `i` was made (R121). -/
theorem lt_of_comesBefore_child (h : Merging leaves q arena) {n : Node} (here : arena[i]? = some n)
    (child : n.hasChild j) (before : comesBefore arena k j) : k < i := by
  obtain ⟨internal, a, b, x, y, merged, isChild⟩ := h.exists_mergedAt_of_hasChild here child
  by_contra later
  obtain ⟨z, v, hz, hv, order⟩ := before
  have parent := h.weight_le_of_le internal (Nat.not_lt.1 later) merged.node hz
  have older := h.lt_of_hasChild here child
  have lighter : v.weight ≤ x.weight + y.weight := by
    obtain rfl | rfl := isChild
    · obtain rfl := Option.some.inj (merged.left.symm.trans hv)
      exact Nat.le_add_right _ _
    · obtain rfl := Option.some.inj (merged.right.symm.trans hv)
      exact Nat.le_add_left _ _
  rw [Node.weight] at parent
  omega

/-- What is in the collection when node `i` is made, and is not taken for it, does not come before a child of `i`
(R121). -/
theorem hasChild_of_comesBefore (h : Merging leaves q arena) {n : Node} (here : arena[i]? = some n)
    (child : n.hasChild j) (before : comesBefore arena k j) (free : inCollection arena i k) : n.hasChild k := by
  obtain ⟨-, a, b, x, y, merged, isChild⟩ := h.exists_mergedAt_of_hasChild here child
  obtain rfl := Option.some.inj (merged.node.symm.trans here)
  by_contra notChild
  obtain ⟨notL, notR⟩ := not_or.1 notChild
  obtain rfl | rfl := isChild
  · exact comesBefore_asymm before (merged.first k free notL)
  · exact comesBefore_asymm before (merged.second k free notL notR)

/-- A node that comes before a child of node `i` has a parent, which is node `i` or comes before it: nodes leave the
collection in their order (R121). -/
theorem exists_parent_of_comesBefore (h : Merging leaves q arena) {n : Node} (here : arena[i]? = some n)
    (child : n.hasChild j) (before : comesBefore arena k j) :
    ∃ i' m, arena[i']? = some m ∧ m.hasChild k ∧ (i' = i ∨ comesBefore arena i' i) := by
  by_cases free : inCollection arena i k
  · exact ⟨i, n, here, h.hasChild_of_comesBefore here child before free, .inl rfl⟩
  · have taken : ∃ i' m, i' < i ∧ arena[i']? = some m ∧ m.hasChild k := by
      by_contra untaken
      exact free ⟨h.lt_of_comesBefore_child here child before, fun i' m hi hm hc => untaken ⟨i', m, hi, hm, hc⟩⟩
    obtain ⟨i', m, earlier, there, childM⟩ := taken
    obtain ⟨internal, -⟩ := h.exists_mergedAt_of_hasChild there childM
    have lighter := h.weight_le_of_le internal earlier.le there here
    exact ⟨i', m, there, childM, .inr ⟨m, n, there, here, by omega⟩⟩

end Merging

/-! ### Depth -/

/-- The last step of a path is one from a node to its child. -/
theorem exists_parent_of_follow_concat {path : Bits} {b : Bool} (leads : follow arena k (path ++ [b]) = some j) :
    ∃ (i : Nat) (n : Node), follow arena k path = some i ∧ arena[i]? = some n ∧ n.hasChild j := by
  rw [follow_append, Option.bind_eq_some_iff] at leads
  obtain ⟨i, leadsI, step⟩ := leads
  simp only [follow] at step
  split at step
  · rename_i w l r here
    refine ⟨i, _, leadsI, here, ?_⟩
    obtain rfl := Option.some.inj step
    cases b
    · exact .inl rfl
    · exact .inr rfl
  · cases step

/-- A node that comes before another is no nearer to the root. -/
theorem Merging.length_le_of_comesBefore (h : Merging leaves q arena) {path path' : Bits}
    (leads : follow arena (arena.length - 1) path = some j) (leads' : follow arena (arena.length - 1) path' = some k)
    (order : k = j ∨ comesBefore arena k j) : path.length ≤ path'.length := by
  induction path using List.reverseRecOn generalizing path' j k with
  | nil => exact Nat.zero_le _
  | append_singleton path b ih =>
    obtain ⟨i, n, leadsI, here, child⟩ := exists_parent_of_follow_concat leads
    have parent : ∃ i' m, arena[i']? = some m ∧ m.hasChild k ∧ (i' = i ∨ comesBefore arena i' i) := by
      obtain rfl | before := order
      · exact ⟨i, n, here, child, .inl rfl⟩
      · exact h.exists_parent_of_comesBefore here child before
    obtain ⟨i', m, there, childM, orderParents⟩ := parent
    obtain rfl | ⟨path', b', rfl⟩ := List.eq_nil_or_concat' path'
    · obtain rfl := Option.some.inj leads'
      have := h.lt_of_hasChild there childM
      have := (List.getElem?_eq_some_iff.1 there).1
      omega
    · obtain ⟨i'', m', leadsI', there', childM'⟩ := exists_parent_of_follow_concat leads'
      obtain rfl := h.parent_unique there there' childM childM'
      have := ih leadsI leadsI' orderParents
      simp only [List.length_append, List.length_singleton]
      omega

/-! ### Counts and codes -/

/-- A Leaf of the built arena has its Symbol's count (41_tree_builder.md R120). -/
theorem weight_eq_of_leaf_buildArena {p : Params} {freq : Memory Nat} {sym w : Nat}
    (here : (buildArena p freq)[j]? = some (.leaf sym w)) : w = Memory.read 0 freq sym := by
  obtain ⟨q, -, merging⟩ := exists_merging_buildArena p freq
  by_cases seeded : j < (seedLeaves p freq).length
  · have leaf := Option.some.inj ((merging.getElem?_of_lt seeded).symm.trans here)
    obtain ⟨sym', -, same⟩ := mem_seedLeaves.1 (leaf ▸ List.getElem_mem seeded)
    obtain ⟨rfl, rfl⟩ := Node.leaf.inj same
    rfl
  · obtain ⟨a, b, x, y, merged⟩ := merging.merged j (Nat.not_lt.1 seeded) (List.getElem?_eq_some_iff.1 here).1
    cases merged.node.symm.trans here

/-- Two Symbols with a count are two Leaves. -/
theorem two_le_seedLeaves_length {p : Params} {freq : Memory Nat} {x y : Nat} (ne : x ≠ y)
    (countedX : x < p.nsym ∧ Memory.read 0 freq x ≠ 0) (countedY : y < p.nsym ∧ Memory.read 0 freq y ≠ 0) :
    2 ≤ (seedLeaves p freq).length := by
  have leafX := mem_seedLeaves.2 ⟨x, countedX, rfl⟩
  have leafY := mem_seedLeaves.2 ⟨y, countedY, rfl⟩
  by_contra few
  obtain ⟨n, one⟩ := List.length_eq_one_iff.1
    (Nat.le_antisymm (Nat.le_of_lt_succ (Nat.not_le.1 few)) (List.length_pos_of_mem leafX))
  rw [one, List.mem_singleton] at leafX leafY
  exact ne (Node.leaf.inj (leafX.trans leafY.symm)).1

/-- Settles O38: the Leaf of the smaller count comes before the other one, so it is no nearer to the root. -/
theorem moreFrequentIsNotLonger : Obligations.MoreFrequentIsNotLonger := by
  intro s h noFault valid x y less counted
  have built := (h.code_valid valid).1
  obtain ⟨node, nLeaf⟩ := h.tree_valid built
  have countedX : s.count x ≠ 0 := by omega
  have countedY : s.count y ≠ 0 := by omega
  have ne : x ≠ y := by
    rintro rfl
    exact Nat.lt_irrefl _ less
  have two : 2 ≤ s.nLeaf := nLeaf ▸ two_le_seedLeaves_length ne ⟨h.lt_nsym_of_count_ne_zero countedX, countedX⟩
    ⟨h.lt_nsym_of_count_ne_zero countedY, countedY⟩
  have path (z : Nat) (countedZ : s.count z ≠ 0) : ∃ j, follow s.node (s.nNodes - 1) (s.codeOf z) = some j ∧
      s.node[j]? = some (.leaf z (s.count z)) := by
    have coded : s.codeOf z ≠ [] := List.length_pos_iff.1
      (((codesArePrefixFree s h noFault valid).1 z).2 (Nat.one_le_iff_ne_zero.2 countedZ))
    obtain ⟨j, w, leads, leaf⟩ := (codesAreLeafPaths s h noFault valid two z _).1 ⟨rfl, coded⟩
    obtain rfl : w = s.count z := weight_eq_of_leaf_buildArena (node ▸ leaf)
    exact ⟨j, leads, leaf⟩
  obtain ⟨j, leadsX, leafX⟩ := path x countedX
  obtain ⟨k, leadsY, leafY⟩ := path y countedY
  obtain ⟨q, -, merging⟩ := exists_merging_buildArena s.params s.freq
  rw [← node] at merging
  exact merging.length_le_of_comesBefore leadsX leadsY (.inr ⟨_, _, leafY, leafX, .inl less⟩)

end Sys2Proof.Machine
end

section
/-! PACK and UNPACK undo each other (44_byte_packer.md R186, 49_properties.md R219). -/

namespace Sys2Proof.Machine

/-- Two bytes are the same when they have the same bits, first bit first (20_memory.md R66). -/
theorem byte_ext {v w : Byte} (bits : ∀ j, j < 8 → v.getLsbD (7 - j) = w.getLsbD (7 - j)) : v = w := by
  refine BitVec.eq_of_getLsbD_eq fun n inside => ?_
  have same := bits (7 - n) (by omega)
  rwa [show 7 - (7 - n) = n by omega] at same

/-- Byte `i` of the data bits of a blob, less a padding of zero bits, is its data byte `i` (R186). -/
theorem bitsByte_dataBits {data : List Byte} {n i : Nat} (listed : i < data.length)
    (zero : ∀ x, n ≤ x → x < 8 * data.length → (data.getD (x / 8) 0).getLsbD (7 - x % 8) = false) :
    bitsByte (dataBits data n) i = data[i] := by
  refine byte_ext fun j hj => ?_
  have byte : (8 * i + j) / 8 = i := by omega
  have bit : (8 * i + j) % 8 = j := by omega
  rw [bitsByte_getLsbD _ _ _ hj, ← List.getD_eq_getElem data 0 listed]
  by_cases inside : 8 * i + j < n
  · rw [dataBits_getElem? _ _ _ inside, byte, bit, Option.getD_some]
  · have padded := zero (8 * i + j) (Nat.not_lt.1 inside) (by omega)
    rw [byte, bit] at padded
    rw [List.getElem?_eq_none (by rw [dataBits_length]; omega), padded, Option.getD_none]

/-- Packing the data bits of a blob, less a legal padding of zero bits, gives the blob back (R186). -/
theorem packBits_dataBits {count : Byte} {data : List Byte} (legal : count.toNat ≤ 7)
    (present : count.toNat ≤ 8 * data.length)
    (zero : ∀ x, 8 * data.length - count.toNat ≤ x → x < 8 * data.length →
      (data.getD (x / 8) 0).getLsbD (7 - x % 8) = false) :
    packBits (dataBits data (8 * data.length - count.toNat)) = count :: data := by
  have pad : padding (8 * data.length - count.toNat) = count.toNat := by
    rw [padding]
    omega
  rw [packBits, dataBits_length, pad, Nat.sub_add_cancel present, Nat.mul_div_cancel_left _ (by decide),
    BitVec.ofNat_toNat, BitVec.setWidth_eq]
  refine congrArg (count :: ·) (List.ext_getElem (by simp) fun i inside listed => ?_)
  rw [List.getElem_map, List.getElem_range]
  exact bitsByte_dataBits listed zero

/-- Settles O39: a packed bitstring unpacks to itself, and the data bits of a well-formed blob pack to the blob. -/
theorem packAndUnpackAreInverse : Obligations.PackAndUnpackAreInverse := by
  refine ⟨fun s noFault => ?_, fun s count data noFault blob legal present zero => ?_⟩
  · exact ⟨_, _, exec_pack noFault, exec_unpack_of_packBits (b := s.bits) noFault rfl, rfl, rfl, noFault⟩
  · exact ⟨_, _, exec_unpack noFault blob legal present, exec_pack noFault,
      (packBits_dataBits legal present zero).trans blob.symm⟩

end Sys2Proof.Machine
end

section
/-! The fault state gives no output: every length is 0 there, and only CLR_ALL and reset leave it (49_properties.md
R226). -/

namespace Sys2Proof.Machine

variable {s t : State} {e : HostEvent} {es : List HostEvent} {ws : List Word}

/-- A host event that neither writes the word of CLR_ALL to CMD nor drives the reset input. -/
def HostEvent.keepsFault (e : HostEvent) : Prop := e ≠ .regWrite 0 clrAllWord ∧ ∀ b, e ≠ .resetPin b

/-- In the fault state a RegWrite of another word changes at most ARG (60_exceptions.md R247). -/
theorem portWrite_of_fault {k : Nat} {v : Word} (inFault : s.fault = true)
    (other : HostEvent.regWrite k v ≠ .regWrite 0 clrAllWord) : ∃ a, portWrite k v s = .next { s with arg := a } := by
  by_cases cmd : k = 0
  · subst cmd
    exact ⟨s.arg, cmdWrite_of_fault inFault fun same => other (congrArg (HostEvent.regWrite 0) same)⟩
  · by_cases arg : k = 1
    · subst arg
      exact ⟨v, rfl⟩
    · exact ⟨s.arg, portWrite_of_ne cmd arg⟩

/-- In the fault state such an event changes at most ARG and the word returned to the host (60_exceptions.md R247). -/
theorem hostEvent_of_fault (inFault : s.fault = true) (keeps : e.keepsFault) :
    ∃ v reply, hostEvent e s = .next { s with arg := v, readData := reply } := by
  cases e with
  | resetPin b => exact absurd rfl (keeps.2 b)
  | regRead k =>
    by_cases pin : s.resetPin = true
    · exact ⟨s.arg, s.readData, if_pos pin⟩
    · exact ⟨s.arg, some (s.portRead k), if_neg pin⟩
  | regWrite k v =>
    by_cases pin : s.resetPin = true
    · exact ⟨s.arg, s.readData, if_pos pin⟩
    · obtain ⟨a, write⟩ := portWrite_of_fault inFault keeps.1
      exact ⟨a, s.readData, (if_neg pin).trans write⟩

/-- However many such events follow, the block keeps all but ARG (60_exceptions.md R247). -/
theorem State.serve_of_fault (inFault : s.fault = true) (keep : ∀ e ∈ es, e.keepsFault)
    (served : s.serve es = some (ws, t)) : ∃ v, t.toBlock = { s.toBlock with arg := v } := by
  induction es generalizing s ws with
  | nil =>
    obtain ⟨-, rfl⟩ := Prod.ext_iff.1 (Option.some.inj served)
    exact ⟨s.arg, rfl⟩
  | cons e es ih =>
    obtain ⟨v, reply, run⟩ := hostEvent_of_fault (s := s.accept []) inFault (keep e (by simp))
    rw [State.serve_cons es run, Option.map_eq_some_iff] at served
    obtain ⟨⟨ws', t'⟩, rest, result⟩ := served
    obtain ⟨-, rfl⟩ := Prod.ext_iff.1 result
    exact ih (s := { s.accept [] with arg := v, readData := reply }) inFault
      (fun e' listed => keep e' (List.mem_cons_of_mem e listed)) rest

/-- Settles O46: fault entry empties the three buffers, and no later event fills them. -/
theorem noPartialOutputAfterAFault : Obligations.NoPartialOutputAfterAFault := by
  refine ⟨fun i s t noFault run raised => ?_, fun s t events h inFault keep run => ?_⟩
  · obtain ⟨k, rfl⟩ := (exec_ends run).eq_takeFault noFault raised
    exact ⟨rfl, rfl, rfl⟩
  · obtain ⟨words, served⟩ := (State.runs_eq_next_iff s t events).1 run
    obtain ⟨v, block⟩ := State.serve_of_fault inFault keep served
    rw [(h.in_fault inFault).2] at block
    exact ⟨congrArg Block.fault block, congrArg (fun b : Block => b.bits.length) block,
      congrArg (fun b : Block => b.blob.length) block, congrArg (fun b : Block => b.symBuf.length) block⟩

end Sys2Proof.Machine
end

section
/-! What a compress sequence without a fault leaves decompresses to its tokens (49_properties.md R217, R225), and how many
bits it has (R224). -/

namespace Sys2Proof.Machine

variable {s t u : State} {es : List HostEvent} {tokens : List Operand}

/-! ### The round trip -/

/-- A run is a session (20_memory.md R60, R70). -/
theorem Session.of_runs (run : s.runs es = .next t) : ∃ ws, Session s es ws t := by
  obtain ⟨ws, served⟩ := (State.runs_eq_next_iff s t es).1 run
  exact ⟨ws, .of_serve served⟩

/-- The decompress sequence over what a compress sequence left, the pairs in any order, as a run (R276). -/
theorem Compressed.exists_decompress_run (h : Compressed tokens t) (params : s.params = t.params)
    (running : s.resetPin = false) {pairs : Memory Nat} (perm : pairs.Perm t.freq) :
    ∃ u, s.runs (decompressEvents pairs t.blob) = .next u ∧ u.fault = false ∧
      u.symBuf = tokens.map (fun x => x.toNat) ∧ u.node = t.node := by
  obtain ⟨v, served, ready, symbols, node⟩ := h.decompress params running perm
  obtain ⟨u, run, same⟩ := served.runs
  have block := State.toBlock_eq_of_accept same
  exact ⟨u, run, (congrArg Block.fault block).trans ready.noFault, (congrArg Block.symBuf block).trans symbols,
    (congrArg Block.node block).trans node⟩

/-- Settles O40: a run without a fault has compressed its tokens, and what it left decompresses to them. -/
theorem compressThenDecompressIsIdentity : Obligations.CompressThenDecompressIsIdentity := by
  intro s t tokens legal running below run noFault r table params running' perm
  obtain ⟨ws, served⟩ := Session.of_runs run
  obtain ⟨compressed, params', -⟩ := served.compressed legal running below noFault
  obtain ⟨u, run', noFault', symbols, node⟩ :=
    compressed.exists_decompress_run (params.trans params'.symm) running' perm
  refine ⟨u, run', noFault', symbols, ?_, node⟩
  rw [State.symLen, symbols, List.length_map]

/-! ### The size of the bitstring -/

/-- The codes of a sequence are as long as each is, in sum. -/
theorem codesOf_length (table : Memory Bits) (syms : List Nat) :
    (codesOf table syms).length = (syms.map fun x => (Memory.read [] table x).length).sum := by
  rw [codesOf, List.length_flatten, List.map_map]
  rfl

/-- A sum over a list of numbers below `n`, gathered by the number of times each occurs. -/
theorem sum_map_eq_sum_count_mul (f : Nat → Nat) {syms : List Nat} {n : Nat} (below : ∀ x ∈ syms, x < n) :
    (syms.map f).sum = ((List.range n).map fun x => syms.count x * f x).sum := by
  rw [Finset.sum_list_map_count]
  change _ = ∑ x ∈ Finset.range n, syms.count x * f x
  refine Finset.sum_subset (fun x hx => Finset.mem_range.2 (below x (List.mem_toFinset.1 hx))) fun x _ absent => ?_
  rw [List.count_eq_zero_of_not_mem fun listed => absent (List.mem_toFinset.2 listed), zero_smul]

/-- BITLEN is the sum of count times code length (R224). -/
theorem Compressed.bitLen_eq (h : Compressed tokens t) :
    t.bitLen = ((List.range t.params.nsym).map fun x => t.count x * (t.codeOf x).length).sum := by
  rw [State.bitLen, h.bits, codesOf_length, sum_map_eq_sum_count_mul _ fun x hx => (h.counted x hx).1]
  simp only [h.counts]
  rfl

/-- Every token has a code of one bit or more (R224). -/
theorem Compressed.length_le_bitLen (h : Compressed tokens t) (noFault : t.fault = false) :
    tokens.length ≤ t.bitLen := by
  have coded := (codesArePrefixFree t h.inv noFault h.codeValid).1
  have positive : ∀ n ∈ (tokens.map fun y => y.toNat).map fun x => (t.codeOf x).length, 1 ≤ n := by
    intro n hn
    obtain ⟨x, hx, rfl⟩ := List.mem_map.1 hn
    exact (coded x).2 (Nat.one_le_iff_ne_zero.2 (h.counted x hx).2)
  have bound := List.length_le_sum_of_one_le _ positive
  rw [List.length_map, List.length_map] at bound
  rw [State.bitLen, h.bits, codesOf_length]
  exact bound

/-- Settles O42: the bits are the codes of the tokens. -/
theorem compressedSize : Obligations.CompressedSize := by
  intro s t tokens legal running below run noFault
  obtain ⟨ws, served⟩ := Session.of_runs run
  obtain ⟨compressed, -, -⟩ := served.compressed legal running below noFault
  exact ⟨compressed.bitLen_eq, compressed.length_le_bitLen noFault⟩

end Sys2Proof.Machine
end

section
/-! How a compress sequence ends: it completes unless a count or the bitstring outgrows its width (49_properties.md
R215). -/

namespace Sys2Proof.Machine

variable {s t : State} {is : List Instr} {tokens : List Operand}

/-! ### The passes as commands -/

theorem countEvents_eq (tokens : List Operand) : countEvents tokens = (tokens.map .histSym).map cmdEvent := by
  rw [countEvents, List.map_map]
  rfl

theorem encodeEvents_eq (tokens : List Operand) : encodeEvents tokens = (tokens.map .encSym).map cmdEvent := by
  rw [encodeEvents, List.map_map]
  rfl

/-- In the fault state commands other than CLR_ALL are ignored, one after the other (60_exceptions.md R247). -/
theorem Session.of_fault (inFault : s.fault = true) (running : s.resetPin = false)
    (legal : ∀ i ∈ is, i.wellFormed s.params = true ∧ i ≠ .clrAll) : Session s (is.map cmdEvent) [] s := by
  induction is with
  | nil => exact .nil s
  | cons i is ih =>
    obtain ⟨wellFormed, notClear⟩ := legal i (by simp)
    exact (Session.cmd running wellFormed (exec_of_fault inFault notClear)).append
      (ih fun j hj => legal j (List.mem_cons_of_mem i hj))

/-! ### The counting pass -/

/-- Counting one token and then the others adds what counting all of them adds. -/
theorem State.writeFreq_count_add (s : State) (a x : Nat) (syms : List Nat) :
    (s.writeFreq a (s.count a + 1) 1).count x + syms.count x = s.count x + (a :: syms).count x := by
  by_cases hx : x = a
  · subst hx
    rw [State.writeFreq_count_self 1 (Nat.succ_ne_zero _), List.count_cons_self]
    omega
  · rw [State.writeFreq_count_of_ne _ 1 hx, List.count_cons_of_ne (Ne.symm hx)]

/-- A counting pass in which a count reaches 2^CNT_W raises CountOverflow (40_frequency_histogram.md R104). -/
theorem Ready.exists_overflow (h : Ready s) (below : ∀ x ∈ tokens, x.toNat < s.params.nsym) {x : Nat}
    (wide : 2 ^ s.params.cntW ≤ s.count x + (tokens.map fun y => y.toNat).count x) :
    ∃ w, Session s (countEvents tokens) [] (s.faulted 7 w) := by
  induction tokens generalizing s with
  | nil => exact absurd wide (Nat.not_le.2 (h.inv.count_lt x))
  | cons a tokens ih =>
    have belowA := below a (by simp)
    have legalA : (Instr.histSym a).wellFormed s.params = true := decide_eq_true belowA
    have belowRest : ∀ x ∈ tokens, x.toNat < s.params.nsym := fun x hx => below x (List.mem_cons_of_mem a hx)
    by_cases full : s.count a.toNat = s.params.cntMax
    · obtain ⟨-, -, overflows, -⟩ := histSymCountsOneToken s a
      have raised : raises (.histSym a) s 7 := overflows h.noFault belowA full
      have ignored : Session (s.faulted 7 (Instr.histSym a).encode) (countEvents tokens) []
          (s.faulted 7 (Instr.histSym a).encode) := by
        rw [countEvents_eq]
        exact .of_fault rfl h.running (List.forall_mem_map.2 fun x hx => ⟨decide_eq_true (belowRest x hx), nofun⟩)
      exact ⟨_, (Session.cmd h.running legalA raised).append ignored⟩
    · obtain ⟨first, ready⟩ := h.cmd legalA (exec_histSym h.noFault belowA full) h.noFault
      rw [List.map_cons, ← State.writeFreq_count_add] at wide
      obtain ⟨w, rest⟩ := ih ready belowRest wide
      exact ⟨w, first.append rest⟩

/-! ### The encoding pass -/

theorem codesOf_cons (table : Memory Bits) (x : Nat) (syms : List Nat) :
    codesOf table (x :: syms) = Memory.read [] table x ++ codesOf table syms := rfl

/-- An encoding pass over Symbols that have codes appends the codes where they fit, and else raises CapacityExceeded
(43_bitstream_codec.md R160). -/
theorem Ready.encoding_cases (h : Ready s) (valid : s.codeValid = true)
    (coded : ∀ x ∈ tokens, x.toNat < s.params.nsym ∧ s.codeOf x.toNat ≠ []) :
    (Session s (encodeEvents tokens) [] { s with bits := s.bits ++ codesOf s.code (tokens.map fun y => y.toNat) }) ∨
      (s.params.bitCap < s.bitLen + (codesOf s.code (tokens.map fun y => y.toNat)).length ∧
        ∃ w, Session s (encodeEvents tokens) [] (s.faulted 6 w)) := by
  induction tokens generalizing s with
  | nil =>
    refine .inl ?_
    rw [List.map_nil, codesOf, List.map_nil, List.flatten_nil, List.append_nil]
    exact .nil s
  | cons a tokens ih =>
    obtain ⟨belowA, codedA⟩ := coded a (by simp)
    have legalA : (Instr.encSym a).wellFormed s.params = true := decide_eq_true belowA
    have codedRest : ∀ x ∈ tokens, x.toNat < s.params.nsym ∧ s.codeOf x.toNat ≠ [] :=
      fun x hx => coded x (List.mem_cons_of_mem a hx)
    rw [List.map_cons, codesOf_cons, List.length_append]
    by_cases fits : s.bitLen + (s.codeOf a.toNat).length ≤ s.params.bitCap
    · obtain ⟨first, ready⟩ := h.cmd legalA (exec_encSym h.noFault belowA valid codedA fits) h.noFault
      obtain rest | ⟨exceeds, w, rest⟩ := ih ready valid codedRest
      · refine .inl ?_
        rw [List.append_assoc] at rest
        exact first.append rest
      · refine .inr ⟨?_, w, first.append rest⟩
        simp only [State.bitLen, List.length_append, State.codeOf] at exceeds ⊢
        omega
    · obtain ⟨-, -, -, -, exceeds, -⟩ := encSymAppendsTheCode s a
      have raised : raises (.encSym a) s 6 := exceeds h.noFault belowA valid codedA (Nat.not_le.1 fits)
      have ignored : Session (s.faulted 6 (Instr.encSym a).encode) (encodeEvents tokens) []
          (s.faulted 6 (Instr.encSym a).encode) := by
        rw [encodeEvents_eq]
        exact .of_fault rfl h.running (List.forall_mem_map.2 fun x hx => ⟨decide_eq_true (codedRest x hx).1, nofun⟩)
      refine .inr ⟨?_, _, (Session.cmd h.running legalA raised).append ignored⟩
      simp only [State.codeOf] at fits
      omega

/-! ### The sequence -/

/-- CLR_ALL, a counting pass in which no count reaches 2^CNT_W, TREE_BUILD and CODE_GEN: the codes of the counts of the
tokens are ready and no bit is there yet (R275). -/
theorem exists_session_codes (legal : s.params.Legal) (running : s.resetPin = false)
    (below : ∀ x ∈ tokens, x.toNat < s.params.nsym)
    (fits : ∀ x, (tokens.map fun y => y.toNat).count x < 2 ^ s.params.cntW) :
    ∃ c, Session s ([cmdEvent .clrAll] ++ countEvents tokens ++ [cmdEvent .treeBuild, cmdEvent .codeGen]) [] c ∧
      Ready c ∧ c.params = s.params ∧ c.codeValid = true ∧ c.bits = [] ∧
      (∀ x, c.count x = (tokens.map fun y => y.toNat).count x) ∧
      c.code = codeTable (buildArena c.params c.freq) := by
  obtain ⟨c, run, served, noFault⟩ := exists_counting (s := s.clear) running rfl below fun x =>
    (Nat.zero_add _).trans_lt (fits x)
  obtain ⟨inv, -⟩ := run.keeps_inv (.clear legal) rfl
  obtain ⟨params, pin⟩ := run.host_eq
  obtain ⟨bits, -, -, counts⟩ := run.counting
  have ready : Ready c := ⟨inv, noFault, pin.trans running⟩
  obtain ⟨build, ready⟩ := ready.cmd rfl (exec_treeBuild noFault) noFault
  obtain ⟨generate, ready⟩ := ready.cmd rfl (exec_codeGen noFault rfl) noFault
  have clear : Session s [cmdEvent .clrAll] [] s.clear := .cmd running rfl rfl
  exact ⟨_, (clear.append served).append (build.append generate), ready, params, rfl, bits,
    fun x => (counts x).trans (Nat.zero_add _), rfl⟩

/-- How the compress sequence over Symbols below NSYM ends (49_properties.md R215): without a fault, or with CountOverflow
where a count reaches 2^CNT_W, or with CapacityExceeded where the codes of the tokens are more than BIT_CAP bits. -/
theorem compress_cases (legal : s.params.Legal) (running : s.resetPin = false)
    (below : ∀ x ∈ tokens, x.toNat < s.params.nsym) :
    ∃ t, Session s (compressEvents tokens) [] t ∧
      (t.fault = false ∨
        (t.err = 7 ∧ ∃ x, 2 ^ s.params.cntW ≤ (tokens.map fun y => y.toNat).count x) ∨
        (t.err = 6 ∧ ∃ freq, (∀ x, Memory.read 0 freq x = (tokens.map fun y => y.toNat).count x) ∧
          s.params.bitCap < (codesOf (codeTable (buildArena s.params freq)) (tokens.map fun y => y.toNat)).length)) := by
  have commands := compressCommands_legal below
  by_cases fits : ∀ x, (tokens.map fun y => y.toNat).count x < 2 ^ s.params.cntW
  · obtain ⟨c, served, ready, params, valid, noBits, counts, code⟩ := exists_session_codes legal running below fits
    have coded : ∀ x ∈ tokens, x.toNat < c.params.nsym ∧ c.codeOf x.toNat ≠ [] := fun x hx => by
      have counted : c.count x.toNat ≠ 0 := by
        rw [counts]
        exact (List.count_pos_iff.2 (List.mem_map_of_mem hx)).ne'
      rw [State.codeOf, code]
      exact ⟨params ▸ below x hx,
        ((codeTable_buildArena_spec _ _).1 _).2 ⟨ready.inv.lt_nsym_of_count_ne_zero counted, counted⟩⟩
    obtain encoded | ⟨exceeds, w, encoded⟩ := ready.encoding_cases valid coded
    · have packed := (served.append encoded).append (.cmd (i := .pack) ready.running rfl (exec_pack ready.noFault))
      exact ⟨_, packed, .inl ready.noFault⟩
    · have ignored : Session (c.faulted 6 w) [cmdEvent .pack] [] (c.faulted 6 w) :=
        .cmd ready.running rfl (exec_of_fault rfl nofun)
      refine ⟨_, (served.append encoded).append ignored, .inr (.inr ⟨rfl, c.freq, counts, ?_⟩)⟩
      rw [State.bitLen, noBits, code, params] at exceeds
      exact exceeds.trans_eq (Nat.zero_add _)
  · obtain ⟨x, wide⟩ := not_forall.1 fits
    have cleared : Ready s.clear := ⟨.clear legal, rfl, running⟩
    obtain ⟨w, overflow⟩ := cleared.exists_overflow below ((Nat.not_lt.1 wide).trans_eq (Nat.zero_add _).symm)
    have ignored := Session.of_fault (s := s.clear.faulted 7 w)
      (is := [.treeBuild, .codeGen] ++ (tokens.map .encSym ++ [.pack])) rfl running
      fun i hi => commands i (List.mem_append_right _ hi)
    have clear : Session s [cmdEvent .clrAll] [] s.clear := .cmd running rfl rfl
    refine ⟨s.clear.faulted 7 w, ?_, .inr (.inl ⟨rfl, x, Nat.not_lt.1 wide⟩)⟩
    have whole := (clear.append overflow).append ignored
    simpa [compressEvents, encodeEvents_eq] using whole

/-- Settles O41: a fault on the way is a count or the bitstring past its width. -/
theorem compressFaultsOnlyOnSize : Obligations.CompressFaultsOnlyOnSize := by
  intro s tokens legal running below
  obtain ⟨t, served, ends⟩ := compress_cases legal running below
  obtain ⟨u, run, same⟩ := served.runs
  have block := State.toBlock_eq_of_accept same
  have err : u.err = t.err := congrArg Block.err block
  refine ⟨u, run, fun inFault => ?_⟩
  rw [show u.fault = t.fault from congrArg Block.fault block] at inFault
  obtain noFault | ⟨overflow, -⟩ | ⟨exceeds, -⟩ := ends
  · simp [noFault] at inFault
  · exact .inr (err.trans overflow)
  · exact .inl (err.trans exceeds)

end Sys2Proof.Machine
end

section
/-! The compress and the decompress sequence over one Symbol and over none (49_properties.md R221, R223). -/

namespace Sys2Proof.Machine

variable {s t : State}

/-! ### One Symbol -/

/-- The code table of one Symbol (42_code_table.md R142). -/
theorem codeTable_of_one {p : Params} {freq : Memory Nat} {sym : Nat} (below : sym < p.nsym)
    (counted : Memory.read 0 freq sym ≠ 0) (others : ∀ u, u ≠ sym → Memory.read 0 freq u = 0) :
    Memory.read [] (codeTable (buildArena p freq)) sym = [false] := by
  obtain ⟨-, arena⟩ := buildArena_of_one below counted fun u _ => others u
  rw [arena]
  exact Memory.read_write_self_of_ne _ _ _ _ (List.cons_ne_nil _ _)

/-- Copies of a Symbol with the code "0" are as many zero bits (43_bitstream_codec.md R160). -/
theorem codesOf_replicate {table : Memory Bits} {sym : Nat} (code : Memory.read [] table sym = [false]) (n : Nat) :
    codesOf table (List.replicate n sym) = List.replicate n false := by
  rw [codesOf, List.map_replicate, code, List.flatten_replicate_singleton]

/-- Zero bits pack to zero bytes after the padding count (44_byte_packer.md R180). -/
theorem packBits_replicate_false (n : Nat) :
    packBits (List.replicate n false) =
      BitVec.ofNat 8 ((8 - n % 8) % 8) :: List.replicate ((n + 7) / 8) 0#8 := by
  have zero (i : Nat) : bitsByte (List.replicate n false) i = 0#8 := byte_ext fun j hj => by
    rw [bitsByte_getLsbD _ _ _ hj, List.getElem?_replicate, BitVec.getLsbD_zero]
    split <;> rfl
  have bytes : (n + padding n) / 8 = (n + 7) / 8 := by
    rw [padding]
    omega
  rw [packBits, List.length_replicate, bytes, List.map_congr_left fun i _ => zero i, List.map_const',
    List.length_range]
  rfl

/-- How often a Symbol occurs among copies of one. -/
theorem count_map_replicate (a : Operand) (n x : Nat) :
    ((List.replicate n a).map fun y => y.toNat).count x = if a.toNat = x then n else 0 := by
  rw [List.map_replicate, List.count_replicate]
  exact if_congr beq_iff_eq rfl rfl

/-- What a compress sequence over copies of one Symbol leaves (R221). -/
theorem Compressed.replicate {a : Operand} {n : Nat} (h : Compressed (List.replicate n a) t) (positive : 1 ≤ n) :
    t.count a.toNat = n ∧ (∀ x, x ≠ a.toNat → t.count x = 0) ∧ t.nLeaf = 1 ∧ t.nNodes = 1 ∧
      t.codeOf a.toNat = [false] ∧ t.bits = List.replicate n false ∧
      t.blob = BitVec.ofNat 8 ((8 - n % 8) % 8) :: List.replicate ((n + 7) / 8) 0#8 := by
  have count : t.count a.toNat = n := by rw [h.counts, count_map_replicate, if_pos rfl]
  have others (x : Nat) (other : x ≠ a.toNat) : t.count x = 0 := by
    rw [h.counts, count_map_replicate, if_neg (Ne.symm other)]
  have counted : t.count a.toNat ≠ 0 := by omega
  have below := h.inv.lt_nsym_of_count_ne_zero counted
  obtain ⟨seeds, arena⟩ := buildArena_of_one below counted fun u _ => others u
  obtain ⟨node, nLeaf⟩ := h.inv.tree_valid h.treeValid
  have code : t.codeOf a.toNat = [false] := by
    rw [State.codeOf, h.code_eq]
    exact codeTable_of_one below counted others
  have bits : t.bits = List.replicate n false := by
    rw [h.bits, List.map_replicate, codesOf_replicate code]
  refine ⟨count, others, ?_, ?_, code, bits, ?_⟩
  · rw [nLeaf, seeds, List.length_singleton]
  · rw [State.nNodes, node, arena, List.length_singleton]
  · rw [h.blob, bits, packBits_replicate_false]

/-- Settles O43: the counts and the bits fit, so the sequence completes. -/
theorem degenerateAlphabet : Obligations.DegenerateAlphabet := by
  intro s a n legal running belowA positive fitsCount fitsBits
  have below : ∀ x ∈ List.replicate n a, x.toNat < s.params.nsym := fun x hx => List.eq_of_mem_replicate hx ▸ belowA
  obtain ⟨t, served, ends⟩ := compress_cases legal running below
  have noFault : t.fault = false := by
    obtain noFault | ⟨-, x, wide⟩ | ⟨-, freq, counts, exceeds⟩ := ends
    · exact noFault
    · rw [count_map_replicate] at wide
      split at wide <;> omega
    · have code := codeTable_of_one (freq := freq) belowA
        (by rw [counts, count_map_replicate, if_pos rfl]; omega)
        fun u other => by rw [counts, count_map_replicate, if_neg (Ne.symm other)]
      rw [List.map_replicate, codesOf_replicate code, List.length_replicate] at exceeds
      omega
  obtain ⟨t', run, same⟩ := served.runs
  have noFault' : t'.fault = false := (congrArg Block.fault (State.toBlock_eq_of_accept same)).trans noFault
  obtain ⟨compressed, params, -⟩ := served.compressed legal running below noFault
  have compressed := compressed.congr same.symm
  have params : s.params = t'.params := params.symm.trans (State.params_eq_of_accept same).symm
  obtain ⟨u, run', noFault'', symbols, -⟩ := compressed.exists_decompress_run params running (.refl _)
  obtain ⟨count, others, nLeaf, nNodes, code, bits, blob⟩ := compressed.replicate positive
  exact ⟨t', u, run, noFault', count, others, nLeaf, nNodes, code, bits, blob, run', noFault'',
    symbols.trans List.map_replicate⟩

/-! ### No Symbol -/

/-- Settles O44: both sequences complete on a cleared block, the tree of no Symbol having no node. -/
theorem emptyInputBothWays : Obligations.EmptyInputBothWays := by
  intro s running positive
  have arena : buildArena s.params [] = [] := (buildArena_of_none fun _ _ => rfl).2
  have clear : Session s [cmdEvent .clrAll] [] s.clear := .cmd running rfl rfl
  have build : Session s.clear [cmdEvent .treeBuild] [] s.clear.withTree := .cmd running rfl (exec_treeBuild rfl)
  have generate : Session s.clear.withTree [cmdEvent .codeGen] [] s.clear.withTree.withCodes :=
    .cmd running rfl (exec_codeGen rfl rfl)
  have pack := Session.cmd (s := s.clear.withTree.withCodes) running rfl (exec_pack rfl)
  have push := Session.cmd (s := s.clear.withTree) (i := .blobPush 0) running rfl
    (exec_blobPush rfl (Nat.ne_of_lt positive))
  have unpack := Session.cmd (s := { s.clear.withTree with blob := [0#8] }) running rfl
    (exec_unpack_of_packBits (b := []) rfl rfl)
  have decode := Session.cmd (s := { s.clear.withTree with blob := [0#8] }) running rfl
    (exec_decode rfl rfl fun _ => rfl)
  obtain ⟨t, compress, sameT⟩ := (clear.append (build.append (generate.append pack))).runs
  obtain ⟨u, decompress, sameU⟩ := (clear.append (build.append (push.append (unpack.append decode)))).runs
  have blockT := State.toBlock_eq_of_accept sameT
  have blockU := State.toBlock_eq_of_accept sameU
  refine ⟨t, u, compress, congrArg Block.fault blockT, fun x => ?_, congrArg Block.tokCnt blockT, ?_, fun x => ?_, ?_,
    (congrArg Block.blob blockT).trans (show packBits [] = [0#8] from rfl), decompress, congrArg Block.fault blockU, ?_⟩
  · exact congrArg (fun b : Block => Memory.read 0 b.freq x) blockT
  · exact (congrArg (fun b : Block => b.node.length) blockT).trans (congrArg List.length arena)
  · exact (congrArg (fun b : Block => Memory.read [] b.code x) blockT).trans
      (congrArg (fun nodes => Memory.read [] (codeTable nodes) x) arena)
  · exact congrArg (fun b : Block => b.bits.length) blockT
  · exact (congrArg Block.symBuf blockU).trans (decodeBits_nil _)

end Sys2Proof.Machine
end

section
/-! The fault state (60_exceptions.md R245 to R248, R253): what entering it leaves of the block, what the host sees in
it, and how it is left. -/

namespace Sys2Proof.Machine

variable {s t : State} {e : HostEvent} {w : Word} {rest : List HostEvent}

/-! ### What the host sees in the fault state -/

/-- In the fault state of the invariant nothing but ERR, ERRINFO and ARG is left of the block (R245, R247). -/
theorem State.Inv.eq_faulted (h : s.Inv) (inFault : s.fault = true) :
    s = { s.faulted s.err s.errInfo with arg := s.arg } :=
  congrArg (fun block => { s with toBlock := block }) (h.in_fault inFault).2

@[simp] theorem hiWord_zero (p : Params) : hiWord p 0 = 0#32 := by
  simp [hiWord]

/-- In the fault state of the invariant STATUS shows FAULT alone (10_state.md R37). -/
theorem State.Inv.statusWord_of_fault (h : s.Inv) (inFault : s.fault = true) : s.statusWord = 1 := by
  rw [h.eq_faulted inFault]
  show flagBit true 0 ||| flagBit false 1 ||| flagBit false 2 = 1
  decide

/-- In the fault state of the invariant every register but ARG, STATUS, ERR and ERRINFO reads 0. -/
theorem State.Inv.readReg_of_fault (h : s.Inv) (inFault : s.fault = true) {r : Reg}
    (other : r ∉ [Reg.arg, .status, .err, .errInfo]) : s.readReg r = 0 := by
  rw [h.eq_faulted inFault]
  cases r with
  | arg | status | err | errInfo => exact absurd (by decide) other
  | tokCntHi => exact hiWord_zero s.params
  | _ => rfl

/-- In the fault state of the invariant every word index but those of these four registers reads 0. -/
theorem State.Inv.portRead_of_fault (h : s.Inv) (inFault : s.fault = true) {k : Nat} (notArg : k ≠ 1)
    (notStatus : k ≠ 2) (notErr : k ≠ 3) (notErrInfo : k ≠ 4) : s.portRead k = 0 := by
  cases mapped : Reg.ofIndex? k with
  | none => rw [State.portRead, mapped]; rfl
  | some r =>
    obtain rfl := Reg.ofIndex?_eq_some_iff.1 mapped
    rw [s.portRead_index]
    refine h.readReg_of_fault inFault fun listed => ?_
    simp only [List.mem_cons, List.not_mem_nil, or_false] at listed
    obtain rfl | rfl | rfl | rfl := listed
    · exact notArg rfl
    · exact notStatus rfl
    · exact notErr rfl
    · exact notErrInfo rfl

/-- Settles O9: the ignored words and commands and the accepted ARG write are those of the port; what a read returns is
read off the block the invariant admits. -/
theorem faultStateIgnoresCommands : Obligations.FaultStateIgnoresCommands := by
  refine ⟨fun s w rest next running inFault other => ?_, fun i s => exec_of_fault,
    fun s v rest next running _ => step_regWrite next running,
    fun s k rest next running _ => step_regRead next running, fun s h inFault => ?_⟩
  · rw [step_cmdWrite next running]
    exact cmdWrite_of_fault (s := s.accept rest) inFault other
  · exact ⟨h.statusWord_of_fault inFault, rfl, rfl, rfl, fun _ => h.portRead_of_fault inFault⟩

/-! ### Entering the fault state -/

/-- The codes of the seven faults (R240). -/
theorem FaultKind.code_range (k : FaultKind) : 1 ≤ k.code.toNat ∧ k.code.toNat ≤ 7 := by
  cases k <;> decide

/-- A CMD write that ends in the fault state is fault entry with ERRINFO the word written, whether the word is illegal or
its command raises (R245, R246). -/
theorem exists_eq_takeFault_of_cmdWrite (noFault : s.fault = false) (run : cmdWrite w s = .next t)
    (raised : t.fault = true) : ∃ k, t = s.takeFault k w := by
  by_cases illegal : illegalWord s.params w
  · rw [cmdWrite_of_illegalWord noFault illegal] at run
    exact ⟨.illegalCommand, (Host.Outcome.next.inj run).symm⟩
  · obtain ⟨i, answer⟩ := exists_decode_eq_ok illegal
    obtain ⟨rfl, -⟩ := encodeOfDecode _ _ _ answer
    rw [cmdWrite_of_decode noFault answer] at run
    exact (exec_ends run).eq_takeFault noFault raised

/-- Settles O12: the step is the CMD write, which ends in the fault state by fault entry only. -/
theorem faultEntryLeavesOnlyTheFault : Obligations.FaultEntryLeavesOnlyTheFault := by
  intro s t w rest next running noFault run raised
  rw [step_cmdWrite next running] at run
  obtain ⟨k, rfl⟩ := exists_eq_takeFault_of_cmdWrite (s := s.accept rest) noFault run raised
  exact ⟨k.code, k.code_range.1, k.code_range.2, rfl⟩

/-! ### Leaving the fault state -/

/-- `t` is still in the fault state of `s`, with the same ERR and ERRINFO (R247). -/
def State.KeepsFault (s t : State) : Prop := t.fault = true ∧ t.err = s.err ∧ t.errInfo = s.errInfo

/-- In the fault state the reset input keeps the fault at each level but the release, which clears the block
(70_reset_and_hazards.md R270). -/
theorem driveReset_of_fault (inFault : s.fault = true) (asserted : Bool) :
    s.KeepsFault (driveReset asserted s) ∨
      ((driveReset asserted s).toBlock = Block.reset ∧ s.resetPin = true ∧ asserted = false) := by
  cases asserted with
  | true => exact .inl ⟨inFault, rfl, rfl⟩
  | false =>
    cases pin : s.resetPin with
    | true => exact .inr ⟨by simp [driveReset, pin], rfl, rfl⟩
    | false => exact .inl (by simp [driveReset, pin, State.KeepsFault, inFault])

/-- Everything a host event can do in the fault state: keep the fault, or clear the block as the word of CLR_ALL or as
the release of reset (R248). -/
theorem hostEvent_fault_cases (inFault : s.fault = true) (run : hostEvent e s = .next t) :
    s.KeepsFault t ∨
      (t.toBlock = Block.reset ∧
        ((s.resetPin = false ∧ e = .regWrite 0 clrAllWord) ∨ (s.resetPin = true ∧ e = .resetPin false))) := by
  by_cases clears : e = .regWrite 0 clrAllWord
  · subst clears
    cases pin : s.resetPin with
    | true =>
      obtain rfl := Host.Outcome.next.inj ((if_pos pin).symm.trans run)
      exact .inl ⟨inFault, rfl, rfl⟩
    | false =>
      have cleared : hostEvent (.regWrite 0 clrAllWord) s = .next s.clear :=
        (if_neg (Bool.eq_false_iff.1 pin)).trans (cmdWrite_clrAllWord s)
      obtain rfl := Host.Outcome.next.inj (cleared.symm.trans run)
      exact .inr ⟨rfl, .inl ⟨rfl, rfl⟩⟩
  · by_cases drives : ∃ asserted, e = .resetPin asserted
    · obtain ⟨asserted, rfl⟩ := drives
      obtain rfl := Host.Outcome.next.inj run
      obtain keeps | ⟨cleared, pin, rfl⟩ := driveReset_of_fault inFault asserted
      · exact .inl keeps
      · exact .inr ⟨cleared, .inr ⟨pin, rfl⟩⟩
    · obtain ⟨v, reply, keeps⟩ := hostEvent_of_fault inFault ⟨clears, not_exists.1 drives⟩
      obtain rfl := Host.Outcome.next.inj (keeps.symm.trans run)
      exact .inl ⟨inFault, rfl, rfl⟩

/-- Settles O13: a step without an event keeps the fault, and a step with one does what the event can do. -/
theorem faultStateIsLeftOnlyByClearing : Obligations.FaultStateIsLeftOnlyByClearing := by
  intro s t inFault run
  rw [step, nextEvent] at run
  split at run
  case h_1 =>
    obtain rfl := Host.Outcome.next.inj run
    exact .inl ⟨inFault, rfl, rfl⟩
  case h_2 e rest next =>
    obtain keeps | ⟨cleared, ⟨pin, rfl⟩ | ⟨pin, rfl⟩⟩ := hostEvent_fault_cases (s := s.accept rest) inFault run
    · exact .inl keeps
    · exact .inr ⟨cleared, .inl ⟨pin, rest, next⟩⟩
    · exact .inr ⟨cleared, .inr ⟨pin, rest, next⟩⟩

end Sys2Proof.Machine
end

section
/-! The reset input (70_reset_and_hazards.md R270, R271), a write to FREQ after the tree is built (R284), and the
read-outs and operations of the host through the port (R275, R276). -/

namespace Sys2Proof.Machine

variable {s t : State} {i : Instr}

/-! ### The reset input -/

/-- Settles O11: the step on each level of the reset input, and on a port operation while it is asserted. -/
theorem resetInputGivesResetState : Obligations.ResetInputGivesResetState := by
  refine ⟨fun s rest next => ?_, fun s e rest next asserted port => ?_, fun s rest next asserted => ?_⟩ <;>
    rw [step, nextEvent, next]
  · exact ⟨_, rfl, rfl, rfl⟩
  · cases e with
    | resetPin b => exact absurd rfl (port b)
    | regRead k => exact if_pos asserted
    | regWrite k v => exact if_pos asserted
  · have released : driveReset false (s.accept rest) = { (s.accept rest).clear with resetPin := false } :=
      if_pos asserted
    exact ⟨_, s.clear, congrArg _ released, rfl, rfl, rfl, rfl, rfl⟩

/-! ### A write to FREQ -/

/-- A completed command that writes FREQ invalidates the tree and the codes and leaves BITS (40_frequency_histogram.md
R109). -/
theorem Completes.invalidates (effect : Completes s i t) (writes : (∃ a, i = .histSym a) ∨ ∃ a, i = .freqLd a) :
    t.treeValid = false ∧ t.codeValid = false ∧ t.nLeaf = 0 ∧ t.nNodes = 0 ∧ t.bits = s.bits := by
  obtain ⟨a, rfl⟩ | ⟨a, rfl⟩ := writes
  · cases effect with
    | histSym => exact ⟨rfl, rfl, rfl, rfl, rfl⟩
    | read _ reads => cases reads
  · cases effect with
    | freqLd => exact ⟨rfl, rfl, rfl, rfl, rfl⟩
    | read _ reads => cases reads

/-- With TREEVALID = 0 CODE_GEN, DECODE and NODE_RD raise SequenceError (41_tree_builder.md R125, 42_code_table.md R140,
43_bitstream_codec.md R161). -/
theorem raises_of_treeValid_eq_false (noFault : s.fault = false) (unbuilt : s.treeValid = false) :
    raises .codeGen s 5 ∧ raises .decode s 5 ∧ ∀ a, raises (.nodeRd a) s 5 := by
  have stops (r : Except FaultKind State) : check (!s.treeValid) .sequenceError r = .error .sequenceError := by
    rw [unbuilt]
    rfl
  exact ⟨raises_of_error (k := .sequenceError) rfl noFault (stops _),
    raises_of_error (k := .sequenceError) rfl noFault (stops _),
    fun a => raises_of_error (k := .sequenceError) rfl noFault (stops _)⟩

/-- With CODEVALID = 0 ENC_SYM and CODE_RD of a Symbol below NSYM raise SequenceError (42_code_table.md R143,
43_bitstream_codec.md R160). -/
theorem raises_of_codeValid_eq_false {a : Operand} (noFault : s.fault = false) (invalid : s.codeValid = false)
    (below : a.toNat < s.params.nsym) : raises (.encSym a) s 5 ∧ raises (.codeRd a) s 5 := by
  have stops (r : Except FaultKind State) :
      checkSym s a (check (!s.codeValid) .sequenceError r) = .error .sequenceError := by
    rw [checkSym_of_lt below, invalid]
    rfl
  exact ⟨raises_of_error (k := .sequenceError) rfl noFault (stops _),
    raises_of_error (k := .sequenceError) rfl noFault (stops _)⟩

/-- Settles O52: a write to FREQ that completes clears the two flags, and each command checks its flag. -/
theorem freqWriteInvalidatesTreeAndCode : Obligations.FreqWriteInvalidatesTreeAndCode := by
  intro s t i writes noFault run completed
  cases exec_ends run with
  | cleared clears => simp [clears] at writes
  | ignored inFault => simp [inFault] at noFault
  | faulted => cases completed
  | completed _ effect =>
    obtain ⟨tree, code, nLeaf, nNodes, bits⟩ := effect.invalidates writes
    obtain ⟨codeGen, decode, nodeRd⟩ := raises_of_treeValid_eq_false completed tree
    exact ⟨tree, code, nLeaf, nNodes, bits, codeGen, decode, nodeRd,
      fun a below => raises_of_codeValid_eq_false completed code below⟩

/-! ### The read-outs -/

/-- A read-out that begins with RD STATUS and RD of a length register, while FAULT = 0 (R275, R276): a STATUS with bit 0
clear, the register, then the words of the rest. -/
theorem Ready.serve_readStatus (h : Ready s) (r : Reg) {es : List HostEvent} {ws : List Word} {u : State}
    (rest : s.serve es = some (ws, u)) :
    ∃ status t, s.serve (readEvent .status :: readEvent r :: es) = some (status :: s.readReg r :: ws, t) ∧
      status.getLsbD 0 = false ∧ t.toBlock = u.toBlock := by
  obtain ⟨t, served, same⟩ :=
    (Session.read h.running .status).append ((Session.read h.running r).append (.of_serve rest))
  exact ⟨_, t, served, (statusWord_getLsbD_zero s).trans h.noFault, State.toBlock_eq_of_accept same⟩

/-- Settles O54: RD STATUS and RD of the length register, then the read-outs of the blob, the table and the Symbols. -/
theorem readOutsReturnTheMemories : Obligations.ReadOutsReturnTheMemories := by
  intro s inv noFault running
  have ready : Ready s := ⟨inv, noFault, running⟩
  obtain ⟨u, blob, -, -, blobFrame⟩ := ready.readBlob
  obtain ⟨t, table, -, -, tableFrame⟩ := ready.readTable
  obtain ⟨v, symbols, -, -, symbolFrame⟩ := ready.readSymbols
  obtain ⟨status, u', served, clear, same⟩ := ready.serve_readStatus .blobLen blob
  obtain ⟨status', v', served', clear', same'⟩ := ready.serve_readStatus .symLen symbols
  refine ⟨⟨status, u', served, clear, ?_⟩, ⟨t, table, tableFrame⟩, status', v', served', clear', ?_⟩
  · rw [same, blobFrame]
  · rw [same', symbolFrame]

/-! ### The two operations -/

/-- What a compress sequence leaves is no fault state, where TREEVALID is 0 (60_exceptions.md R245). -/
theorem Compressed.noFault {tokens : List Operand} (h : Compressed tokens t) : t.fault = false := by
  refine Bool.eq_false_iff.2 fun inFault => ?_
  have unbuilt : t.treeValid = false := congrArg Block.treeValid (h.inv.in_fault inFault).2
  simp [h.treeValid] at unbuilt

/-- Settles O55: a compress operation gives the host nothing or what the block holds, and what it gives decompresses to
the tokens. -/
theorem roundTripThroughThePort : Obligations.RoundTripThroughThePort := by
  intro s tokens legal running below
  obtain ⟨ws, c, served, outcome⟩ := s.hostCompress_cases legal running below
  have ends {t : State} (run : s.runs (compressEvents tokens) = .next t) : t = c := by
    obtain ⟨ws', served'⟩ := (State.runs_eq_next_iff s t _).1 run
    exact (congrArg Prod.snd (Option.some.inj (served.symm.trans served'))).symm
  obtain ⟨raised, nothing⟩ | ⟨compressed, params, u, given, noFault⟩ := outcome
  · refine ⟨fun t run noFault => ?_, fun t _ _ => nothing, fun table blob u done => ?_⟩
    · simp [ends run, raised] at noFault
    · simp [nothing] at done
  · refine ⟨fun t run _ => ends run ▸ ⟨u, given, noFault⟩, fun t run raised => ?_,
      fun table blob u' done r pairs params' running' perm => ?_⟩
    · simp [ends run, compressed.noFault] at raised
    · rw [given] at done
      obtain ⟨rfl, rfl, -⟩ : c.freq = table ∧ c.blob = blob ∧ u = u' := by simpa using done
      exact compressed.hostDecompress (params'.trans params.symm) running' perm

end Sys2Proof.Machine
end

section
/-! Sessions that raise no fault: how they split, what each of their commands did, and that they go the same way on a
state which differs in what their events neither read nor write. -/

namespace Sys2Proof.Machine

variable {s t u : State} {i j : Instr} {e : HostEvent} {es es' : List HostEvent} {ws : List Word}

/-! ### The words of the commands -/

/-- With the whole operand field as Symbols every command is well-formed. -/
theorem Instr.wellFormed_of_symW_eq {p : Params} (wide : p.symW = 24) (i : Instr) : i.wellFormed p = true := by
  have legal (a : Operand) : p.symLegal a = true := decide_eq_true (by rw [Params.nsym, wide]; exact a.isLt)
  cases i with
  | histSym a | freqLd a | freqRd a | codeRd a | encSym a => exact legal a
  | _ => rfl

/-- Different commands have different words (30_encoding.md R81, R83). -/
theorem Instr.encode_injective (same : i.encode = j.encode) : i = j := by
  have wide := Instr.wellFormed_of_symW_eq (p := { symW := 24, cntW := 1, blobCap := 1 }) rfl
  have decoded := decode_encode (wide i)
  rw [same, decode_encode (wide j)] at decoded
  exact (Except.ok.inj decoded).symm

theorem keepsFault_cmdEvent (notClear : i ≠ .clrAll) : (cmdEvent i).keepsFault := by
  refine ⟨fun same => notClear (Instr.encode_injective ?_), nofun⟩
  exact (HostEvent.regWrite.inj same).2.trans (by decide)

theorem keepsFault_argEvent (v : Word) : (argEvent v).keepsFault := ⟨nofun, nofun⟩

theorem keepsFault_readEvent (r : Reg) : (readEvent r).keepsFault := ⟨nofun, nofun⟩

/-- A read command and RD RES0 after it. -/
theorem keepsFault_readBacks {cmd : Operand → Instr} (notClear : ∀ a, cmd a ≠ .clrAll) (n : Nat) :
    ∀ e ∈ (readBacks cmd n).flatten, e.keepsFault := by
  simp only [readBacks, readBack, List.mem_flatten, List.mem_map]
  rintro e ⟨_, ⟨k, -, rfl⟩, he⟩
  obtain rfl | he := List.mem_cons.1 he
  · exact keepsFault_cmdEvent (notClear _)
  · obtain rfl := List.mem_singleton.1 he
    exact keepsFault_readEvent _

/-! ### Splitting a session -/

theorem State.fault_eq_of_accept (same : s.accept [] = t.accept []) : s.fault = t.fault :=
  congrArg Block.fault (State.toBlock_eq_of_accept same)

/-- The block performs the host's next event: FAULT = 0 and reset is released. -/
structure State.Live (s : State) : Prop where
  noFault : s.fault = false
  running : s.resetPin = false

theorem State.Live.clear (running : s.resetPin = false) : s.clear.Live := ⟨rfl, running⟩

theorem State.Live.congr (h : s.Live) (same : s.accept [] = t.accept []) : t.Live :=
  ⟨(State.fault_eq_of_accept same).symm.trans h.noFault,
    (State.resetPin_eq_of_accept same).symm.trans h.running⟩

theorem Session.exists_append (whole : Session s (es ++ es') ws u) :
    ∃ ws₁ ws₂ t, ws = ws₁ ++ ws₂ ∧ Session s es ws₁ t ∧ Session t es' ws₂ u := by
  obtain ⟨ws₁, t, first⟩ := s.exists_serve es
  obtain ⟨ws₂, u', second⟩ := t.exists_serve es'
  obtain ⟨rfl, same⟩ := whole.unique ((Session.of_serve first).append (.of_serve second))
  exact ⟨ws₁, ws₂, t, rfl, .of_serve first, (Session.congr_right same).2 (.of_serve second)⟩

/-- A fault would stay to the end (60_exceptions.md R247). -/
theorem Session.noFault (served : Session s es ws t) (keep : ∀ e ∈ es, e.keepsFault) (noFault : t.fault = false) :
    s.fault = false := by
  obtain ⟨t', run, same⟩ := served
  refine Bool.eq_false_iff.2 fun inFault => ?_
  obtain ⟨v, block⟩ := State.serve_of_fault inFault keep run
  have raised : t.fault = true :=
    (State.fault_eq_of_accept same).symm.trans ((congrArg Block.fault block).trans inFault)
  simp [noFault] at raised

theorem Session.resetPin_eq (served : Session s es ws t) (keep : ∀ e ∈ es, e.keepsFault) :
    t.resetPin = s.resetPin := by
  obtain ⟨t', run, same⟩ := served
  exact (State.resetPin_eq_of_accept same).symm.trans
    (State.serve_resetPin run fun b listed => (keep _ listed).2 b rfl)

/-- A session that ends without a fault has raised none at any point on the way. -/
theorem Session.exists_live_append (whole : Session s (es ++ es') ws u) (keep : ∀ e ∈ es ++ es', e.keepsFault)
    (live : s.Live) (noFault : u.fault = false) :
    ∃ ws₁ ws₂ t, ws = ws₁ ++ ws₂ ∧ Session s es ws₁ t ∧ t.Live ∧ Session t es' ws₂ u := by
  obtain ⟨ws₁, ws₂, t, words, first, second⟩ := whole.exists_append
  exact ⟨ws₁, ws₂, t, words, first,
    ⟨second.noFault (fun e he => keep e (List.mem_append_right _ he)) noFault,
      (first.resetPin_eq fun e he => keep e (List.mem_append_left _ he)).trans live.running⟩, second⟩

/-- The same for a session that returns no word. -/
theorem Session.exists_silent_append (whole : Session s (es ++ es') [] u) (keep : ∀ e ∈ es ++ es', e.keepsFault)
    (live : s.Live) (noFault : u.fault = false) : ∃ t, Session s es [] t ∧ t.Live ∧ Session t es' [] u := by
  obtain ⟨ws₁, ws₂, t, words, first, live', second⟩ := whole.exists_live_append keep live noFault
  obtain ⟨rfl, rfl⟩ := List.append_eq_nil_iff.1 words.symm
  exact ⟨t, first, live', second⟩

/-- No event touches the parameters (10_state.md R45). -/
theorem Session.params_eq (served : Session s es ws t) : t.params = s.params := by
  induction es generalizing s ws with
  | nil => exact (State.params_eq_of_accept (Session.nil_iff.1 served).2).symm
  | cons e es ih =>
    obtain ⟨ws₁, ws₂, u, -, first, rest⟩ := Session.exists_append (es := [e]) served
    obtain ⟨v, run⟩ := hostEvent_next e (s.accept [])
    have one := State.serve_cons [] run
    have params : v.params = s.params := (commandsLeaveTheHostAlone.2 { s with pending := [e] } v run).1
    obtain ⟨-, same⟩ := first.unique (.of_serve one)
    exact (ih rest).trans ((State.params_eq_of_accept same).trans params)

/-! ### One event -/

theorem Session.cmdWrite {w : Word} (running : s.resetPin = false) (run : cmdWrite w s = .next t) :
    Session s [.regWrite 0 w] [] t :=
  ⟨_, State.serve_cons [] (t := t.accept [])
    ((if_neg (by simp [running])).trans (cmdWrite_withHost [] none run)), rfl⟩

/-- A command that raised no fault was well-formed and ran (45_control.md R202). -/
theorem Session.exists_exec (served : Session s [cmdEvent i] ws t) (live : s.Live) (noFault : t.fault = false) :
    ws = [] ∧ i.wellFormed s.params = true ∧ ∃ t', exec i s = .next t' ∧ t'.accept [] = t.accept [] := by
  by_cases illegal : illegalWord s.params i.encode
  · obtain ⟨-, same⟩ := served.unique (.cmdWrite live.running (cmdWrite_of_illegalWord live.noFault illegal))
    have raised : t.fault = true := State.fault_eq_of_accept same
    simp [noFault] at raised
  · obtain ⟨j, answer⟩ := exists_decode_eq_ok illegal
    obtain ⟨word, legal⟩ := encodeOfDecode _ _ _ answer
    obtain rfl := Instr.encode_injective word
    obtain ⟨t', run⟩ := exec_next j s
    obtain ⟨words, same⟩ := served.unique (.cmd live.running legal run)
    exact ⟨words, legal, t', run, same.symm⟩

/-- A command other than CLR_ALL that raised no fault completed (45_control.md R202). -/
theorem Session.exists_completes (served : Session s [cmdEvent i] ws t) (live : s.Live) (noFault : t.fault = false)
    (notClear : i ≠ .clrAll) : ∃ t', Completes s i t' ∧ t'.accept [] = t.accept [] := by
  obtain ⟨-, -, t', run, same⟩ := served.exists_exec live noFault
  refine ⟨t', ?_, same⟩
  cases exec_ends run with
  | cleared clears => exact absurd clears notClear
  | ignored inFault => simp [live.noFault] at inFault
  | faulted => exact Bool.noConfusion ((State.fault_eq_of_accept same).trans noFault)
  | completed _ effect => exact effect

theorem Session.read_iff {r : Reg} (running : s.resetPin = false) :
    Session s [readEvent r] ws t ↔ ws = [s.readReg r] ∧ s.accept [] = t.accept [] := by
  constructor
  · intro served
    obtain ⟨words, same⟩ := served.unique (.read running r)
    exact ⟨words, same.symm⟩
  · rintro ⟨rfl, same⟩
    exact (Session.congr_right same).1 (.read running r)

theorem Session.arg_iff {v : Word} (running : s.resetPin = false) :
    Session s [argEvent v] ws t ↔ ws = [] ∧ State.accept { s with arg := v } [] = t.accept [] := by
  constructor
  · intro served
    obtain ⟨words, same⟩ := served.unique (.arg running v)
    exact ⟨words, same.symm⟩
  · rintro ⟨rfl, same⟩
    exact (Session.congr_right same).1 (.arg running v)

/-! ### How many words a session returns -/

/-- The number of words an event returns while reset is released: one for a RegRead (20_memory.md R60). -/
def HostEvent.words : HostEvent → Nat
  | .regRead _ => 1
  | .regWrite _ _ => 0
  | .resetPin _ => 0

theorem hostEvent_words (running : s.resetPin = false) (unread : s.readData = none) (run : hostEvent e s = .next t) :
    t.readData.toList.length = e.words := by
  cases e with
  | regRead k =>
    obtain rfl := Host.Outcome.next.inj ((if_neg (by simp [running])).symm.trans run)
    rfl
  | regWrite k v =>
    obtain rfl | rfl | run := portWrite_cases ((if_neg (by simp [running])).symm.trans run)
    · simp [unread, HostEvent.words]
    · simp [unread, HostEvent.words]
    · simp [cmdWrite_readData run, unread, HostEvent.words]
  | resetPin b =>
    obtain rfl := Host.Outcome.next.inj run
    have kept : (driveReset b s).readData = s.readData := by
      obtain ⟨pin, drive⟩ | drive := driveReset_cases b s
      · rw [drive]
      · rw [drive, State.clear_readData]
    simp [kept, unread, HostEvent.words]

theorem Session.length_eq (served : Session s es ws t) (running : s.resetPin = false)
    (keep : ∀ e ∈ es, e.keepsFault) : ws.length = (es.map HostEvent.words).sum := by
  induction es generalizing s ws with
  | nil => simp [(Session.nil_iff.1 served).1]
  | cons e es ih =>
    obtain ⟨ws₁, ws₂, u, rfl, first, rest⟩ := Session.exists_append (es := [e]) served
    obtain ⟨v, run⟩ := hostEvent_next e (s.accept [])
    obtain ⟨rfl, -⟩ := first.unique (.of_serve (State.serve_cons [] run))
    have pin : u.resetPin = false :=
      (first.resetPin_eq fun e' he => keep e' (by simp_all)).trans running
    rw [List.length_append, List.length_append, ih rest pin fun e' he => keep e' (List.mem_cons_of_mem e he),
      hostEvent_words (s := s.accept []) running rfl run]
    simp

/-- A session without a RegRead returns no word. -/
theorem Session.words_eq_nil (served : Session s es ws t) (running : s.resetPin = false)
    (keep : ∀ e ∈ es, e.keepsFault) (writes : ∀ e ∈ es, e.words = 0) : ws = [] := by
  refine List.eq_nil_of_length_eq_zero ((served.length_eq running keep).trans ?_)
  exact List.sum_eq_zero (List.forall_mem_map.2 writes)

/-! ### States that differ in what an event neither reads nor writes -/

/-- `f` changes the block alone, and not FAULT. -/
structure BlockMap (f : State → State) : Prop where
  fault : ∀ s, (f s).fault = s.fault
  params : ∀ s, (f s).params = s.params
  pin : ∀ s, (f s).resetPin = s.resetPin
  accept : ∀ s, (f s).accept [] = f (s.accept [])

/-- Where event `e` raises no fault it does the same to `f s` as to `s` and leaves `f`'s change in place. -/
def Follows (f : State → State) (e : HostEvent) : Prop :=
  ∀ s ws t, s.Live → Session s [e] ws t → t.fault = false → Session (f s) [e] ws (f t)

namespace BlockMap

variable {f : State → State}

theorem congr (h : BlockMap f) (same : s.accept [] = t.accept []) : (f s).accept [] = (f t).accept [] := by
  rw [h.accept, h.accept, same]

theorem live (h : BlockMap f) (live : s.Live) : (f s).Live :=
  ⟨(h.fault s).trans live.noFault, (h.pin s).trans live.running⟩

/-- A command follows `f` where its checks do not see `f`'s change and its effect leaves it. -/
theorem follows_cmd (h : BlockMap f) {body : State → Except FaultKind State}
    (frame : ∀ s, exec i s = command i s (body s)) (maps : ∀ s, body (f s) = (body s).map f) :
    Follows f (cmdEvent i) := by
  intro s ws t live served noFault
  obtain ⟨rfl, legal, t', run, same⟩ := served.exists_exec live noFault
  have noFault' : t'.fault = false := (State.fault_eq_of_accept same).trans noFault
  have follows : exec i (f s) = .next (f t') := by
    obtain ⟨inFault, -⟩ | ⟨-, done⟩ | ⟨-, k, -, rfl⟩ := command_cases ((frame s).symm.trans run)
    · simp [live.noFault] at inFault
    · exact (frame (f s)).trans (command_of_ok (h.live live).noFault (by rw [maps, done]; rfl))
    · cases noFault'
  exact (Session.congr_right (h.congr same)).1 (.cmd (h.live live).running (h.params s ▸ legal) follows)

/-- A read follows `f` where the register does not show `f`'s change. -/
theorem follows_read (h : BlockMap f) {r : Reg} (shows : ∀ s, (f s).readReg r = s.readReg r) :
    Follows f (readEvent r) := by
  intro s ws t live served _
  obtain ⟨rfl, same⟩ := (Session.read_iff live.running).1 served
  exact (Session.read_iff (h.live live).running).2 ⟨by rw [shows], h.congr same⟩

/-- Events that follow `f` do so one after the other. -/
theorem session (h : BlockMap f) (each : ∀ e ∈ es, Follows f e) (keep : ∀ e ∈ es, e.keepsFault) (live : s.Live)
    (served : Session s es ws t) (noFault : t.fault = false) : Session (f s) es ws (f t) := by
  induction es generalizing s ws with
  | nil =>
    obtain ⟨rfl, same⟩ := Session.nil_iff.1 served
    exact Session.nil_iff.2 ⟨rfl, h.congr same⟩
  | cons e es ih =>
    obtain ⟨ws₁, ws₂, u, rfl, first, live', rest⟩ := Session.exists_live_append (es := [e]) served keep live noFault
    exact (each e (by simp) s ws₁ u live first live'.noFault).append
      (ih (fun e' he => each e' (List.mem_cons_of_mem e he)) (fun e' he => keep e' (List.mem_cons_of_mem e he)) live'
        rest)

end BlockMap

/-! ### The two ways to begin a sequence -/

/-- CLR_ALL and reset both begin with ResetState (70_reset_and_hazards.md R271). -/
theorem session_startEvents (running : s.resetPin = false) {start : List HostEvent} (begins : start ∈ startEvents) :
    Session s start [] s.clear := by
  simp only [startEvents, List.mem_cons, List.not_mem_nil, or_false] at begins
  obtain rfl | rfl := begins
  · exact .cmd running rfl rfl
  · exact ⟨{ s.clear.accept [] with resetPin := false }, rfl, by rw [← running]; rfl⟩

end Sys2Proof.Machine
end

section
/-! The orders of the compress sequence (70_reset_and_hazards.md R275): a unit of the table read-out changes RES0 alone,
and the other units do not see RES0, so each order ends as the listed one but for RES0. -/

namespace Sys2Proof.Machine

variable {s t : State} {i : Instr} {m : List HostEvent} {ws : List Word} {r w : Word} {p : Params}

/-! ### States that differ in RES0 -/

/-- The state with `r` in RES0 and 0 in the other result registers, as a read command of one word leaves it. -/
def State.withRes0 (s : State) (r : Word) : State := s.setRes r 0 0 0

theorem blockMap_withRes0 (r : Word) : BlockMap (·.withRes0 r) :=
  ⟨fun _ => rfl, fun _ => rfl, fun _ => rfl, fun _ => rfl⟩

theorem State.Live.withRes0 (h : s.Live) (r : Word) : (s.withRes0 r).Live := (blockMap_withRes0 r).live h

theorem follows_withRes0_histSym (a : Operand) : Follows (·.withRes0 r) (cmdEvent (.histSym a)) := by
  refine (blockMap_withRes0 r).follows_cmd (fun _ => rfl) fun s => ?_
  simp only [checkSym, ← check_map]
  rfl

theorem follows_withRes0_treeBuild : Follows (·.withRes0 r) (cmdEvent .treeBuild) :=
  (blockMap_withRes0 r).follows_cmd (body := fun s => .ok s.withTree) (fun _ => rfl) fun _ => rfl

theorem follows_withRes0_codeGen : Follows (·.withRes0 r) (cmdEvent .codeGen) := by
  refine (blockMap_withRes0 r).follows_cmd (fun _ => rfl) fun s => ?_
  rw [← check_map]
  rfl

theorem follows_withRes0_encSym (a : Operand) : Follows (·.withRes0 r) (cmdEvent (.encSym a)) := by
  refine (blockMap_withRes0 r).follows_cmd (fun _ => rfl) fun s => ?_
  simp only [checkSym, ← check_map]
  rfl

theorem follows_withRes0_pack : Follows (·.withRes0 r) (cmdEvent .pack) :=
  (blockMap_withRes0 r).follows_cmd (body := fun s => .ok { s with blob := packBits s.bits }) (fun _ => rfl)
    fun _ => rfl

/-! ### The units of the sequence -/

/-- A read command of one word and RD RES0 after it. -/
theorem session_readBack (h : s.Live) (legal : i.wellFormed s.params = true) (run : exec i s = .next (s.withRes0 w)) :
    Session s (readBack i) [w] (s.withRes0 w) :=
  (Session.cmd h.running legal run).append (.read (h.withRes0 w).running .res0)

/-- Where the unit `m` raises no fault it leaves the counts, and it does and returns the same whatever RES0 held. -/
def Passes (m : List HostEvent) : Prop :=
  ∀ s ws t, s.Live → Session s m ws t → t.fault = false →
    t.freq = s.freq ∧ ∀ r, ∃ r', Session (s.withRes0 r) m ws (t.withRes0 r')

/-- Only HIST_SYM and FREQ_LD write a count (10_state.md R22). -/
theorem Completes.freq_eq (effect : Completes s i t) (notHist : ∀ a, i ≠ .histSym a) (notLoad : ∀ a, i ≠ .freqLd a) :
    t.freq = s.freq := by
  cases effect with
  | histSym a => exact absurd rfl (notHist a)
  | freqLd a => exact absurd rfl (notLoad a)
  | _ => rfl

theorem passes_cmd (follows : ∀ r, Follows (·.withRes0 r) (cmdEvent i)) (notClear : i ≠ .clrAll)
    (notHist : ∀ a, i ≠ .histSym a) (notLoad : ∀ a, i ≠ .freqLd a) : Passes [cmdEvent i] := by
  intro s ws t live served noFault
  refine ⟨?_, fun r => ⟨r, follows r s ws t live served noFault⟩⟩
  obtain ⟨t', effect, same⟩ := served.exists_completes live noFault notClear
  have block := State.toBlock_eq_of_accept same
  exact (congrArg Block.freq block).symm.trans (effect.freq_eq notHist notLoad)

theorem passes_read {reg : Reg} (shows : ∀ (s : State) r, (s.withRes0 r).readReg reg = s.readReg reg) :
    Passes [readEvent reg] := by
  intro s ws t live served noFault
  refine ⟨?_, fun r => ⟨r, (blockMap_withRes0 r).follows_read (shows · r) s ws t live served noFault⟩⟩
  exact (congrArg Block.freq (State.toBlock_eq_of_accept ((Session.read_iff live.running).1 served).2)).symm

theorem passes_blobRd (a : Operand) : Passes (readBack (.blobRd a)) := by
  intro s ws t live served noFault
  have keep : ∀ e ∈ readBack (.blobRd a), e.keepsFault := by
    simp [readBack, keepsFault_cmdEvent, keepsFault_readEvent]
  obtain ⟨ws₁, ws₂, t₁, -, first, live', -⟩ := Session.exists_live_append (es := [_]) served keep live noFault
  obtain ⟨-, -, t', run, same⟩ := first.exists_exec live live'.noFault
  cases listed : s.blob[a.toNat]? with
  | none =>
    obtain ⟨-, beyond, -⟩ := blobRdReadsAByte s a
    have raised := beyond live.noFault (List.getElem?_eq_none_iff.1 listed)
    obtain rfl := Host.Outcome.next.inj (raised.symm.trans run)
    exact Bool.noConfusion ((State.fault_eq_of_accept same).trans live'.noFault)
  | some b =>
    obtain ⟨rfl, same'⟩ := served.unique (session_readBack live rfl (exec_blobRd live.noFault listed))
    have block := State.toBlock_eq_of_accept same'
    refine ⟨(congrArg Block.freq block :), fun r => ⟨b.setWidth 32, ?_⟩⟩
    refine (Session.congr_right ((blockMap_withRes0 (b.setWidth 32)).congr same')).2 ?_
    exact session_readBack (live.withRes0 r) rfl (exec_blobRd live.noFault listed)

/-- A unit of the table read-out, anywhere after the counting pass (40_frequency_histogram.md R106). -/
theorem State.Live.readCount (h : s.Live) {a : Operand} (below : a.toNat < s.params.nsym) (r : Word) :
    Session (s.withRes0 r) (readBack (.freqRd a)) [zext32 (s.count a.toNat)]
      (s.withRes0 (zext32 (s.count a.toNat))) :=
  session_readBack (h.withRes0 r) (decide_eq_true below) (exec_freqRd (s := s.withRes0 r) h.noFault below)

/-! ### Interleaving -/

theorem Interleaves.append_left {α : Type} {xs ys zs : List α} (pre : List α) (h : Interleaves xs ys zs) :
    Interleaves (pre ++ xs) ys (pre ++ zs) := by
  induction pre with
  | nil => exact h
  | cons x pre ih => exact .inl ⟨_, rfl, ih⟩

theorem Interleaves.eq_of_nil_left {α : Type} {ys zs : List α} (h : Interleaves [] ys zs) : zs = ys := by
  induction zs generalizing ys with
  | nil => exact h.2.symm
  | cons z zs ih =>
    obtain ⟨_, ⟨⟩, -⟩ | ⟨ys', rfl, h⟩ := h
    rw [ih h]

/-- Units that pass, in a session without a fault, with units of the table read-out anywhere among them: the end differs
in RES0 alone, and the words are those of the session and the counts, each in its order. -/
theorem Interleaves.exists_session {ms units : List (List HostEvent)} {as : List Operand}
    (h : Interleaves ms (as.map fun a => readBack (.freqRd a)) units)
    (passes : ∀ m ∈ ms, Passes m) (keep : ∀ m ∈ ms, ∀ e ∈ m, e.keepsFault) (live : s.Live)
    (below : ∀ a ∈ as, a.toNat < s.params.nsym) (main : Session s ms.flatten ws t) (noFault : t.fault = false)
    (r : Word) :
    ∃ read r', Session (s.withRes0 r) units.flatten read (t.withRes0 r') ∧
      Interleaves ws (as.map fun a => zext32 (s.count a.toNat)) read ∧ t.freq = s.freq := by
  induction units generalizing s ms as ws r with
  | nil =>
    obtain ⟨rfl, noRead⟩ := h
    obtain rfl := List.map_eq_nil_iff.1 noRead
    obtain ⟨rfl, same⟩ := Session.nil_iff.1 main
    exact ⟨[], r, Session.nil_iff.2 ⟨rfl, (blockMap_withRes0 r).congr same⟩, ⟨rfl, rfl⟩,
      (congrArg Block.freq (State.toBlock_eq_of_accept same)).symm⟩
  | cons unit units ih =>
    obtain ⟨ms, rfl, h⟩ | ⟨rest, units_eq, h⟩ := h
    · have keepAll : ∀ e ∈ unit ++ ms.flatten, e.keepsFault := fun e he => by
        obtain ⟨m, hm, he⟩ := List.mem_flatten.1 (List.flatten_cons ▸ he : e ∈ (unit :: ms).flatten)
        exact keep m hm e he
      obtain ⟨ws₁, ws₂, u, rfl, first, live', second⟩ := main.exists_live_append keepAll live noFault
      obtain ⟨freq, any⟩ := passes unit (by simp) s ws₁ u live first live'.noFault
      obtain ⟨r₁, first'⟩ := any r
      obtain ⟨read, r', served, order, freq'⟩ := ih h (fun m hm => passes m (List.mem_cons_of_mem unit hm))
        (fun m hm => keep m (List.mem_cons_of_mem unit hm)) live' (first.params_eq ▸ below) second r₁
      refine ⟨ws₁ ++ read, r', first'.append served, ?_, freq'.trans freq⟩
      simp only [State.count, freq] at order
      exact order.append_left ws₁
    · obtain ⟨a, as, rfl, rfl, rfl⟩ := List.map_eq_cons_iff.1 units_eq
      obtain ⟨read, r', served, order, freq⟩ := ih h passes keep live (fun b hb => below b (List.mem_cons_of_mem a hb))
        main (zext32 (s.count a.toNat))
      exact ⟨_ :: read, r', (live.readCount (below a (by simp)) r).append served, .inr ⟨_, rfl, order⟩, freq⟩

/-! ### The listed order -/

/-- The units of R275 after the counting pass, but for those of the table read-out. -/
def mainUnits (tokens : List Operand) (n : Nat) : List (List HostEvent) :=
  ([cmdEvent .treeBuild, cmdEvent .codeGen] ++ encodeEvents tokens ++ [cmdEvent .pack]).map (fun e => [e]) ++
    blobReadUnits n

theorem mem_mainUnits {tokens : List Operand} {n : Nat} (h : m ∈ mainUnits tokens n) :
    m = [cmdEvent .treeBuild] ∨ m = [cmdEvent .codeGen] ∨ (∃ a, m = [cmdEvent (.encSym a)]) ∨ m = [cmdEvent .pack] ∨
      m = [readEvent .status] ∨ m = [readEvent .blobLen] ∨ ∃ a, m = readBack (.blobRd a) := by
  simp only [mainUnits, encodeEvents, blobReadUnits, readBacks, List.mem_append, List.mem_map, List.mem_cons,
    List.not_mem_nil, or_false] at h
  grind

theorem passes_of_mem_mainUnits {tokens : List Operand} {n : Nat} (h : m ∈ mainUnits tokens n) : Passes m := by
  obtain rfl | rfl | ⟨a, rfl⟩ | rfl | rfl | rfl | ⟨a, rfl⟩ := mem_mainUnits h
  · exact passes_cmd (fun _ => follows_withRes0_treeBuild) nofun nofun nofun
  · exact passes_cmd (fun _ => follows_withRes0_codeGen) nofun nofun nofun
  · exact passes_cmd (fun _ => follows_withRes0_encSym a) nofun nofun nofun
  · exact passes_cmd (fun _ => follows_withRes0_pack) nofun nofun nofun
  · exact passes_read fun _ _ => rfl
  · exact passes_read fun _ _ => rfl
  · exact passes_blobRd a

theorem keepsFault_of_mem_mainUnits {tokens : List Operand} {n : Nat} (h : m ∈ mainUnits tokens n) :
    ∀ e ∈ m, e.keepsFault := by
  obtain rfl | rfl | ⟨a, rfl⟩ | rfl | rfl | rfl | ⟨a, rfl⟩ := mem_mainUnits h <;>
    simp [readBack, keepsFault_cmdEvent, keepsFault_readEvent]

/-- The words of a read-out of `n` elements. -/
theorem readBacks_words (cmd : Operand → Instr) (n : Nat) :
    ((readBacks cmd n).flatten.map HostEvent.words).sum = n := by
  have unit :
      ((fun es : List HostEvent => es.map HostEvent.words) ∘ fun x : Nat => readBack (cmd (BitVec.ofNat 24 x))) =
        fun _ => [0, 1] := rfl
  rw [readBacks, List.map_flatten, List.map_map, unit, List.map_const', List.length_range, List.sum_flatten,
    List.map_replicate, List.sum_replicate]
  simp

theorem mainUnits_flatten (tokens : List Operand) (n : Nat) :
    (mainUnits tokens n).flatten =
      [cmdEvent .treeBuild, cmdEvent .codeGen] ++ encodeEvents tokens ++ [cmdEvent .pack] ++
        (blobReadUnits n).flatten := by
  rw [mainUnits, List.flatten_append, ← List.flatMap_def, List.flatMap_singleton']

theorem mainUnits_words (tokens : List Operand) (n : Nat) :
    ((mainUnits tokens n).flatten.map HostEvent.words).sum = 2 + n := by
  have encode : ((encodeEvents tokens).map HostEvent.words).sum = 0 :=
    List.sum_eq_zero (by simp [encodeEvents, cmdEvent, HostEvent.words])
  rw [mainUnits_flatten, blobReadUnits, List.flatten_cons, List.flatten_cons]
  simp only [List.map_append, List.sum_append, encode, readBacks_words]
  simp only [cmdEvent, readEvent, List.map_cons, List.map_nil, HostEvent.words, List.sum_cons, List.sum_nil]
  omega

theorem compressSequence_eq (p : Params) (tokens : List Operand) (n : Nat) :
    compressSequence p tokens n = [cmdEvent .clrAll] ++ (countEvents tokens ++
      ((mainUnits tokens n).flatten ++ (tableReadUnits p).flatten)) := by
  simp [compressSequence, compressEvents, mainUnits_flatten]

/-- The Symbols of the table read-out as operands. -/
def tableSymbols (p : Params) : List Operand := (List.range p.nsym).map (BitVec.ofNat 24)

theorem tableReadUnits_eq (p : Params) : tableReadUnits p = (tableSymbols p).map fun a => readBack (.freqRd a) := by
  rw [tableSymbols, List.map_map]
  rfl

theorem lt_nsym_of_mem_tableSymbols {a : Operand} (h : a ∈ tableSymbols p) : a.toNat < p.nsym := by
  obtain ⟨x, hx, rfl⟩ := List.mem_map.1 h
  rw [BitVec.toNat_ofNat]
  exact (Nat.mod_le _ _).trans_lt (List.mem_range.1 hx)

theorem keepsFault_countEvents (tokens : List Operand) : ∀ e ∈ countEvents tokens, e.keepsFault :=
  List.forall_mem_map.2 fun _ _ => keepsFault_cmdEvent nofun

theorem keepsFault_mainUnits (tokens : List Operand) (n : Nat) : ∀ e ∈ (mainUnits tokens n).flatten, e.keepsFault := by
  intro e he
  obtain ⟨m, hm, he⟩ := List.mem_flatten.1 he
  exact keepsFault_of_mem_mainUnits hm e he

theorem keepsFault_tableReadUnits (p : Params) : ∀ e ∈ (tableReadUnits p).flatten, e.keepsFault :=
  keepsFault_readBacks (cmd := .freqRd) nofun p.nsym

/-- After ResetState the counting pass leaves the result registers 0 (10_state.md R33). -/
theorem session_countEvents_res0 {tokens : List Operand} {g : State} (running : s.resetPin = false)
    (count : Session s.clear (countEvents tokens) [] g) (noFault : g.fault = false) :
    (g.withRes0 0).accept [] = g.accept [] := by
  have follows := (blockMap_withRes0 0).session (List.forall_mem_map.2 fun a _ => follows_withRes0_histSym a)
    (keepsFault_countEvents tokens) (.clear running) count noFault
  exact (follows.unique count).2

/-- A compress sequence without a fault, taken apart: the counting pass to `g`, the other units to `d`, the table
read-out. -/
theorem exists_main_session {tokens : List Operand} {n : Nat} {c : State} (running : s.resetPin = false)
    (served : Session s (compressSequence p tokens n) ws c) (noFault : c.fault = false) :
    ∃ g d wm wt, ws = wm ++ wt ∧ wm.length = 2 + n ∧ State.Live g ∧ Session s.clear (countEvents tokens) [] g ∧
      State.Live d ∧ Session g (mainUnits tokens n).flatten wm d ∧ Session d (tableReadUnits p).flatten wt c := by
  have keepCount := keepsFault_countEvents tokens
  have keepMain := keepsFault_mainUnits tokens n
  have keepTable := keepsFault_tableReadUnits p
  rw [compressSequence_eq] at served
  have afterClear := (Session.append_iff (.cmd (i := .clrAll) running rfl rfl)).1 served
  obtain ⟨wc, wr, g, rfl, count, liveG, rest⟩ := afterClear.exists_live_append (by
    simp only [List.forall_mem_append]
    exact ⟨keepCount, keepMain, keepTable⟩) (.clear running) noFault
  obtain ⟨wm, wt, d, rfl, main, liveD, table⟩ := rest.exists_live_append
    (List.forall_mem_append.2 ⟨keepMain, keepTable⟩) liveG noFault
  obtain rfl := count.words_eq_nil running keepCount (List.forall_mem_map.2 fun _ _ => rfl)
  exact ⟨g, d, wm, wt, rfl, (main.length_eq liveG.running keepMain).trans (mainUnits_words tokens n), liveG, count,
    liveD, main, table⟩

/-- Settles O56: the listed order and every other one interleave the same units with the table read-out, and their ends
are the end of these units but for RES0. -/
theorem everyAllowedCompressOrderAgrees : Obligations.EveryAllowedCompressOrderAgrees := by
  rintro s c tokens n words events running served noFault ⟨start, begins, units, order, rfl⟩
  obtain ⟨g, d, wm, wt, rfl, length, liveG, count, liveD, main, table⟩ :=
    exists_main_session running (.of_serve served) noFault
  have passes (m : List HostEvent) (hm : m ∈ mainUnits tokens n) := passes_of_mem_mainUnits hm
  have keep (m : List HostEvent) (hm : m ∈ mainUnits tokens n) := keepsFault_of_mem_mainUnits hm
  have resG := session_countEvents_res0 running count liveG.noFault
  have belowG (a : Operand) (ha : a ∈ tableSymbols s.params) : a.toNat < g.params.nsym := by
    rw [count.params_eq]
    exact lt_nsym_of_mem_tableSymbols ha
  rw [tableReadUnits_eq] at order table
  obtain ⟨read, r, other, words, freq⟩ := order.exists_session passes keep liveG belowG main liveD.noFault 0
  obtain ⟨_, r₁, alone, -, -⟩ := (Interleaves.nil_left (mainUnits tokens n)).symm.exists_session (as := []) passes keep
    liveG (by simp) main liveD.noFault 0
  obtain ⟨-, resD⟩ := ((Session.congr_left resG).1 alone).unique main
  obtain ⟨counts, r₂, listed, tableWords, -⟩ := (Interleaves.nil_left _).exists_session (ms := []) (by simp) (by simp)
    liveD (fun a ha => main.params_eq ▸ belowG a ha) (.nil d) liveD.noFault r₁
  obtain ⟨rfl, same⟩ := ((Session.congr_left resD).1 listed).unique table
  rw [tableWords.eq_of_nil_left]
  simp only [State.count, freq]
  obtain ⟨t, serve, same'⟩ := ((session_startEvents running begins).append count).append
    ((Session.congr_left resG).1 other)
  refine ⟨read, t, serve, ?_, ?_⟩
  · rw [← State.toBlock_eq_of_accept same, State.toBlock_eq_of_accept same']
    rfl
  · rwa [← length, List.take_left, List.drop_left]

end Sys2Proof.Machine
end

section
/-! The orders of the decompress sequence (70_reset_and_hazards.md R276): the pairs of the table load in any order, and
the table load and the blob load touch different parts of the block. -/

namespace Sys2Proof.Machine

variable {s t u : State} {i : Instr} {e x y : HostEvent} {es xs ys zs : List HostEvent} {ws : List Word} {v : Word}
  {c : Nat × Nat} {table pairs : Memory Nat}

/-! ### The parts of the block -/

/-- The state with another value in ARG. -/
def State.withArg (s : State) (v : Word) : State := { s with arg := v }

/-- The state with the blob and the bits of `d`, the part the blob load writes (44_byte_packer.md R182, R183). -/
def State.withData (s d : State) : State := { s with blob := d.blob, bits := d.bits }

/-- The state with the counts, the tree, the codes and ARG of `l`, the part the table load writes
(40_frequency_histogram.md R105, 41_tree_builder.md R120). -/
def State.withTable (s l : State) : State :=
  { s with
    freq := l.freq
    tokCnt := l.tokCnt
    node := l.node
    nLeaf := l.nLeaf
    code := l.code
    treeValid := l.treeValid
    codeValid := l.codeValid
    arg := l.arg }

theorem blockMap_withArg (v : Word) : BlockMap (·.withArg v) := ⟨fun _ => rfl, fun _ => rfl, fun _ => rfl, fun _ => rfl⟩

theorem blockMap_withData (d : State) : BlockMap (·.withData d) :=
  ⟨fun _ => rfl, fun _ => rfl, fun _ => rfl, fun _ => rfl⟩

theorem blockMap_withTable (l : State) : BlockMap (·.withTable l) :=
  ⟨fun _ => rfl, fun _ => rfl, fun _ => rfl, fun _ => rfl⟩

/-! ### Events of the table load and of the blob load -/

/-- An event that writes the part `own` of the block alone and does not see the part `other`: `own s l` is `s` with that
part of `l`, and so is `other s d`. -/
structure PartEvent (own other : State → State → State) (e : HostEvent) : Prop where
  keep : e.keepsFault
  silent : e.words = 0
  leaves : ∀ s ws t, s.Live → Session s [e] ws t → t.fault = false → (own t s).accept [] = s.accept []
  follows : ∀ d, Follows (other · d) e

/-- An event that writes the table part of the block alone and does not see the data part. -/
abbrev TableEvent : HostEvent → Prop := PartEvent State.withTable State.withData

/-- An event that writes the data part of the block alone and does not see the table part. -/
abbrev DataEvent : HostEvent → Prop := PartEvent State.withData State.withTable

theorem PartEvent.cmd {own other : State → State → State} (map : ∀ l, BlockMap (own · l)) (notClear : i ≠ .clrAll)
    (effect : ∀ s t, Completes s i t → own t s = s) (follows : ∀ d, Follows (other · d) (cmdEvent i)) :
    PartEvent own other (cmdEvent i) where
  keep := keepsFault_cmdEvent notClear
  silent := rfl
  leaves s ws t live served noFault := by
    obtain ⟨t', completes, same⟩ := served.exists_completes live noFault notClear
    have undone := (map s).congr same
    rw [effect s t' completes] at undone
    exact undone.symm
  follows := follows

theorem TableEvent.arg (v : Word) : TableEvent (argEvent v) where
  keep := keepsFault_argEvent v
  silent := rfl
  leaves s ws t live served _ :=
    ((blockMap_withTable s).congr ((Session.arg_iff live.running).1 served).2).symm
  follows d s ws t live served _ := by
    obtain ⟨words, same⟩ := (Session.arg_iff live.running).1 served
    exact (Session.arg_iff (s := s.withData d) live.running).2 ⟨words, (blockMap_withData d).congr same⟩

theorem TableEvent.freqLd (a : Operand) : TableEvent (cmdEvent (.freqLd a)) := by
  refine PartEvent.cmd blockMap_withTable nofun (fun s t effect => ?_) fun d =>
    (blockMap_withData d).follows_cmd (fun _ => rfl) fun s => ?_
  · cases effect with
    | freqLd => rfl
    | read _ reads => cases reads
  · simp only [checkSym, ← check_map]
    rfl

theorem TableEvent.treeBuild : TableEvent (cmdEvent .treeBuild) := by
  refine PartEvent.cmd blockMap_withTable nofun (fun s t effect => ?_) fun d =>
    (blockMap_withData d).follows_cmd (body := fun s => .ok s.withTree) (fun _ => rfl) fun _ => rfl
  cases effect with
  | treeBuild => rfl
  | read _ reads => cases reads

theorem DataEvent.blobPush (b : Byte) : DataEvent (cmdEvent (.blobPush b)) := by
  refine PartEvent.cmd blockMap_withData nofun (fun s t effect => ?_) fun l =>
    (blockMap_withTable l).follows_cmd (fun _ => rfl) fun s => ?_
  · cases effect with
    | blobPush => rfl
    | read _ reads => cases reads
  · rw [← check_map]
    rfl

theorem DataEvent.unpack : DataEvent (cmdEvent .unpack) := by
  refine PartEvent.cmd blockMap_withData nofun (fun s t effect => ?_) fun l =>
    (blockMap_withTable l).follows_cmd (fun _ => rfl) fun s => ?_
  · cases effect with
    | unpack => rfl
    | read _ reads => cases reads
  · change (match s.blob with | [] => _ | count :: data => _) = _
    cases blob : s.blob with
    | nil => rfl
    | cons count data =>
      simp only [← check_map, ← blob]
      rfl

theorem tableEvent_of_mem (h : e ∈ loadEvents pairs ++ [cmdEvent .treeBuild]) : TableEvent e := by
  obtain h | h := List.mem_append.1 h
  · obtain ⟨c, -, h⟩ := List.mem_flatMap.1 h
    obtain rfl | h := List.mem_cons.1 h
    · exact .arg _
    · obtain rfl := List.mem_singleton.1 h
      exact .freqLd _
  · obtain rfl := List.mem_singleton.1 h
    exact .treeBuild

theorem dataEvent_of_mem {blob : List Byte} (h : e ∈ pushEvents blob ++ [cmdEvent .unpack]) : DataEvent e := by
  obtain h | h := List.mem_append.1 h
  · obtain ⟨b, -, rfl⟩ := List.mem_map.1 h
    exact .blobPush b
  · obtain rfl := List.mem_singleton.1 h
    exact .unpack

/-! ### Interleaving the two loads -/

/-- An event of the blob load goes before one of the table load. -/
theorem TableEvent.swap (hx : TableEvent x) (hy : DataEvent y) (live : s.Live) (served : Session s [x, y] [] t)
    (noFault : t.fault = false) : Session s [y, x] [] t := by
  obtain ⟨s₁, first, live₁, second⟩ := Session.exists_silent_append (es := [x]) (es' := [y]) served
    (by simp [hx.keep, hy.keep]) live noFault
  have table := hx.leaves s [] s₁ live first live₁.noFault
  have data := hy.leaves s₁ [] t live₁ second noFault
  have early := (Session.congr_left table).1 (hy.follows s s₁ [] t live₁ second noFault)
  have late := hx.follows t s [] s₁ live first live₁.noFault
  have ends : (s₁.withData t).accept [] = t.accept [] := ((blockMap_withData t).congr data).symm
  have middle : (t.withTable s).accept [] = (s.withData t).accept [] :=
    calc (t.withTable s).accept []
      _ = ((s₁.withData t).withTable s).accept [] := ((blockMap_withTable s).congr ends).symm
      _ = (s.withData t).accept [] := (blockMap_withData t).congr table
  exact early.append ((Session.congr_left middle).2 ((Session.congr_right ends).1 late))

/-- An event of the blob load goes before all of the table load. -/
theorem DataEvent.session_cons (hy : DataEvent y) (hx : ∀ x ∈ xs, TableEvent x) (live : s.Live)
    (served : Session s (xs ++ [y]) [] t) (noFault : t.fault = false) : Session s (y :: xs) [] t := by
  induction xs generalizing s with
  | nil => exact served
  | cons x xs ih =>
    have hx' := List.forall_mem_cons.1 hx
    have keep : ∀ e ∈ xs ++ [y], e.keepsFault := fun e he => by
      obtain he | he := List.mem_append.1 he
      · exact (hx'.2 e he).keep
      · exact List.mem_singleton.1 he ▸ hy.keep
    obtain ⟨s₁, first, live₁, rest⟩ := Session.exists_silent_append (es := [x]) served
      (List.forall_mem_cons.2 ⟨hx'.1.keep, keep⟩) live noFault
    obtain ⟨s₂, second, live₂, rest⟩ := Session.exists_silent_append (es := [y]) (ih hx'.2 live₁ rest)
      (fun e he => keep e (by simpa [or_comm] using he)) live₁ noFault
    exact (hx'.1.swap hy live (first.append second) live₂.noFault).append rest

/-- The table load and the blob load, interleaved, end as the one after the other. -/
theorem Interleaves.session (h : Interleaves xs ys zs) (hx : ∀ x ∈ xs, TableEvent x) (hy : ∀ y ∈ ys, DataEvent y)
    (live : s.Live) (served : Session s (xs ++ ys) [] t) (noFault : t.fault = false) : Session s zs [] t := by
  induction zs generalizing s xs ys with
  | nil =>
    obtain ⟨rfl, rfl⟩ := h
    exact served
  | cons z zs ih =>
    have keep (e : HostEvent) (he : e ∈ xs ++ ys) : e.keepsFault :=
      (List.mem_append.1 he).elim (fun he => (hx e he).keep) fun he => (hy e he).keep
    obtain ⟨xs', rfl, h⟩ | ⟨ys', rfl, h⟩ := h
    · obtain ⟨m, first, live', rest⟩ := Session.exists_silent_append (es := [z]) served keep live noFault
      exact first.append (ih h (fun x h => hx x (List.mem_cons_of_mem z h)) hy live' rest)
    · rw [← List.singleton_append, ← List.append_assoc] at served
      obtain ⟨m, loads, live', rest⟩ := served.exists_silent_append (by simpa using keep) live noFault
      have early := ((hy z (by simp)).session_cons hx live loads live'.noFault).append rest
      obtain ⟨m, first, live', rest⟩ := Session.exists_silent_append (es := [z]) early
        (fun e he => keep e (by simpa [or_left_comm] using he)) live noFault
      exact first.append (ih h hx (fun y h => hy y (List.mem_cons_of_mem z h)) live' rest)

/-! ### The pairs of the table in any order -/

/-- Writes of two elements, with values that are listed, commute. -/
theorem Memory.write_comm {m : Memory Nat} (hm : Memory.wf 0 m) {j k a b : Nat} (other : j ≠ k) (ha : a ≠ 0)
    (hb : b ≠ 0) :
    Memory.write 0 (Memory.write 0 m j a) k b = Memory.write 0 (Memory.write 0 m k b) j a := by
  have wf {m : Memory Nat} (hm : Memory.wf 0 m) (j a : Nat) := Memory.write_wf 0 m j a hm
  refine Memory.ext_of_read 0 _ _ (wf (wf hm _ _) _ _) (wf (wf hm _ _) _ _) fun x => ?_
  by_cases hj : x = j
  · subst hj
    rw [Memory.read_write_of_ne _ _ _ _ _ other, Memory.read_write_self_of_ne _ _ _ _ ha,
      Memory.read_write_self_of_ne _ _ _ _ ha]
  · rw [Memory.read_write_of_ne _ (Memory.write 0 m k b) _ _ _ hj]
    by_cases hk : x = k
    · subst hk
      rw [Memory.read_write_self_of_ne _ _ _ _ hb, Memory.read_write_self_of_ne _ _ _ _ hb]
    · rw [Memory.read_write_of_ne _ _ _ _ _ hk, Memory.read_write_of_ne _ _ _ _ _ hk,
        Memory.read_write_of_ne _ _ _ _ _ hj]

/-- The Symbol that the load of a pair names. -/
def pairSymbol (c : Nat × Nat) : Nat := (BitVec.ofNat 24 c.1).toNat

/-- The count that the load of a pair writes. -/
def pairCount (c : Nat × Nat) : Nat := (BitVec.ofNat 32 c.2).toNat

/-- The state after the load of a pair (40_frequency_histogram.md R105). -/
def State.loaded (s : State) (c : Nat × Nat) : State :=
  (s.withArg (BitVec.ofNat 32 c.2)).writeFreq (pairSymbol c) (pairCount c) (pairCount c)

theorem State.loaded_count_self (nonzero : pairCount c ≠ 0) : (s.loaded c).count (pairSymbol c) = pairCount c :=
  State.writeFreq_count_self _ nonzero

theorem State.loaded_count_of_ne {k : Nat} (other : k ≠ pairSymbol c) : (s.loaded c).count k = s.count k :=
  State.writeFreq_count_of_ne (s := s.withArg (BitVec.ofNat 32 c.2)) _ _ other

/-- The pair passes the checks of FREQ_LD (R105). -/
structure Loads (s : State) (c : Nat × Nat) : Prop where
  below : pairSymbol c < s.params.nsym
  nonzero : pairCount c ≠ 0
  fits : pairCount c < 2 ^ s.params.cntW
  unused : s.count (pairSymbol c) = 0

theorem loadEvents_cons (c : Nat × Nat) (table : Memory Nat) :
    loadEvents (c :: table) = loadEvents [c] ++ loadEvents table := List.flatMap_cons

theorem keepsFault_loadEvents (table : Memory Nat) : ∀ e ∈ loadEvents table, e.keepsFault := fun _ he =>
  (tableEvent_of_mem (List.mem_append_left _ he)).keep

theorem Loads.session (h : Loads s c) (live : s.Live) : Session s (loadEvents [c]) [] (s.loaded c) :=
  (Session.arg live.running (BitVec.ofNat 32 c.2)).append
    (.cmd (i := .freqLd _) live.running (decide_eq_true h.below)
      (exec_freqLd (s := s.withArg _) live.noFault h.below h.nonzero h.fits h.unused))

/-- A load of a pair that raised no fault passed the checks. -/
theorem Session.loads (served : Session s (loadEvents [c]) ws t) (live : s.Live) (noFault : t.fault = false) :
    Loads s c ∧ (s.loaded c).accept [] = t.accept [] := by
  have loads : Loads s c := by
    have rest := (Session.append_iff (.arg live.running (BitVec.ofNat 32 c.2))).1 served
    obtain ⟨-, -, t', run, same⟩ := rest.exists_exec ⟨live.noFault, live.running⟩ noFault
    obtain ⟨inFault, -⟩ | ⟨-, done⟩ | ⟨-, k, -, rfl⟩ := command_cases run
    · simp [live.noFault] at inFault
    · simp only [checkSym_eq_ok, check_eq_ok, beq_eq_false_iff_ne, decide_eq_false_iff_not, Nat.not_le,
        bne_eq_false_iff_eq] at done
      obtain ⟨below, nonzero, fits, unused, -⟩ := done
      exact ⟨below, nonzero, fits, unused⟩
    · exact Bool.noConfusion ((State.fault_eq_of_accept same).trans noFault)
  exact ⟨loads, ((loads.session live).unique served).2⟩

/-- Two pairs that load one after the other name different Symbols, and load the other way round too. -/
theorem Loads.swap {a b : Nat × Nat} (ha : Loads s a) (hb : Loads (s.loaded a) b) (wf : Memory.wf 0 s.freq) :
    Loads s b ∧ Loads (s.loaded b) a ∧
      (s.loaded b).loaded a = ((s.loaded a).loaded b).withArg (BitVec.ofNat 32 a.2) := by
  have other : pairSymbol b ≠ pairSymbol a := fun same =>
    ha.nonzero ((State.loaded_count_self ha.nonzero).symm.trans (same ▸ hb.unused))
  refine ⟨⟨hb.below, hb.nonzero, hb.fits, (State.loaded_count_of_ne other).symm.trans hb.unused⟩,
    ⟨ha.below, ha.nonzero, ha.fits, (State.loaded_count_of_ne other.symm).trans ha.unused⟩, ?_⟩
  have freq : ((s.loaded b).loaded a).freq = ((s.loaded a).loaded b).freq :=
    Memory.write_comm wf other hb.nonzero ha.nonzero
  have tokCnt : ((s.loaded b).loaded a).tokCnt = ((s.loaded a).loaded b).tokCnt := Nat.add_right_comm ..
  calc (s.loaded b).loaded a
    _ = { ((s.loaded a).loaded b).withArg (BitVec.ofNat 32 a.2) with
          freq := ((s.loaded b).loaded a).freq, tokCnt := ((s.loaded b).loaded a).tokCnt } := rfl
    _ = ((s.loaded a).loaded b).withArg (BitVec.ofNat 32 a.2) := by
      rw [freq, tokCnt]
      rfl

/-- A load of a table that raised no fault loaded its first pair and then the others. -/
theorem Session.loads_cons (served : Session s (loadEvents (c :: table)) [] t) (live : s.Live)
    (noFault : t.fault = false) :
    Loads s c ∧ (s.loaded c).Live ∧ Session (s.loaded c) (loadEvents table) [] t := by
  rw [loadEvents_cons] at served
  obtain ⟨u, first, live', rest⟩ := served.exists_silent_append
    (loadEvents_cons c table ▸ keepsFault_loadEvents _) live noFault
  obtain ⟨loads, same⟩ := first.loads live live'.noFault
  exact ⟨loads, live'.congr same.symm, (congr_left same).2 rest⟩

/-- The load of a table from another ARG differs in ARG at most, which the first pair overwrites. -/
theorem Session.load_withArg (served : Session s (loadEvents table) [] t) (live : s.Live) (v : Word) :
    ∃ v', Session (s.withArg v) (loadEvents table) [] (t.withArg v') := by
  cases table with
  | nil => exact ⟨v, nil_iff.2 ⟨rfl, (blockMap_withArg v).congr (nil_iff.1 served).2⟩⟩
  | cons c table =>
    have arg (s : State) (live : s.Live) := Session.arg live.running (BitVec.ofNat 32 c.2)
    have rest := (append_iff (arg s live)).1 served
    exact ⟨t.arg, (arg (s.withArg v) ⟨live.noFault, live.running⟩).append rest⟩

/-- The pairs of a table load in any order, and leave the same but for ARG (R276). -/
theorem Session.load_perm (perm : pairs.Perm table) (live : s.Live) (wf : Memory.wf 0 s.freq)
    (served : Session s (loadEvents table) [] t) (noFault : t.fault = false) :
    ∃ v, Session s (loadEvents pairs) [] (t.withArg v) := by
  induction perm generalizing s t with
  | nil => exact ⟨t.arg, served⟩
  | @cons c pairs table _ ih =>
    obtain ⟨loads, live', rest⟩ := served.loads_cons live noFault
    obtain ⟨v, rest'⟩ := ih live' (Memory.write_wf 0 _ _ _ wf) rest noFault
    exact ⟨v, loadEvents_cons c pairs ▸ (loads.session live).append rest'⟩
  | swap a b table =>
    obtain ⟨loadsA, liveA, rest⟩ := served.loads_cons live noFault
    obtain ⟨loadsB, liveB, rest⟩ := rest.loads_cons liveA noFault
    obtain ⟨loadsB', loadsA', ends⟩ := loadsA.swap loadsB wf
    obtain ⟨v, rest'⟩ := rest.load_withArg liveB (BitVec.ofNat 32 a.2)
    refine ⟨v, ?_⟩
    rw [loadEvents_cons, loadEvents_cons a]
    exact (loadsB'.session live).append ((loadsA'.session ⟨live.noFault, live.running⟩).append (ends ▸ rest'))
  | trans _ _ ih₁ ih₂ =>
    obtain ⟨v, middle⟩ := ih₂ live wf served noFault
    obtain ⟨v', last⟩ := ih₁ live wf middle noFault
    exact ⟨v', last⟩

/-! ### The sequence from another ARG -/

theorem follows_withArg_treeBuild : Follows (·.withArg v) (cmdEvent .treeBuild) :=
  (blockMap_withArg v).follows_cmd (body := fun s => .ok s.withTree) (fun _ => rfl) fun _ => rfl

theorem follows_withArg_decode : Follows (·.withArg v) (cmdEvent .decode) := by
  refine (blockMap_withArg v).follows_cmd (fun _ => rfl) fun s => ?_
  simp only [← check_map]
  rfl

theorem follows_withArg_symRd (a : Operand) : Follows (·.withArg v) (cmdEvent (.symRd a)) := by
  refine (blockMap_withArg v).follows_cmd (fun _ => rfl) fun s => ?_
  change (match s.symBuf[a.toNat]? with | none => _ | some sym => _) = _
  cases s.symBuf[a.toNat]? <;> rfl

/-- The blob load goes the same way from another ARG: it leaves the part of the block that ARG is in. -/
theorem Session.data_withArg {l : State} (data : Session l ys [] u) (hy : ∀ y ∈ ys, DataEvent y) (live : l.Live)
    (noFault : u.fault = false) (v : Word) : Session (l.withArg v) ys [] (u.withArg v) := by
  have follows (l' : State) : Session (l.withTable l') ys [] (u.withTable l') :=
    (blockMap_withTable l').session (fun y h => (hy y h).follows l') (fun y h => (hy y h).keep) live data noFault
  have leaves : (u.withTable l).accept [] = u.accept [] := ((follows l).unique data).2
  exact (congr_right ((blockMap_withArg v).congr leaves)).1 (follows (l.withArg v))

/-- DECODE and the token read-out, the end of the decompress sequence (R276). -/
def decodeEvents (n : Nat) : List HostEvent := [cmdEvent .decode] ++ (symbolReadUnits n).flatten

theorem mem_decodeEvents {n : Nat} (h : e ∈ decodeEvents n) :
    e = cmdEvent .decode ∨ (∃ a, e = cmdEvent (.symRd a)) ∨ e = readEvent .status ∨ e = readEvent .symLen ∨
      e = readEvent .res0 := by
  simp only [decodeEvents, symbolReadUnits, readBacks, readBack, List.flatten_cons, List.mem_append, List.mem_flatten,
    List.mem_map, List.mem_singleton] at h
  grind

theorem keepsFault_decodeEvents {n : Nat} (h : e ∈ decodeEvents n) : e.keepsFault := by
  obtain rfl | ⟨a, rfl⟩ | rfl | rfl | rfl := mem_decodeEvents h <;>
    simp [keepsFault_cmdEvent, keepsFault_readEvent]

theorem follows_withArg_decodeEvents {n : Nat} (h : e ∈ decodeEvents n) : Follows (·.withArg v) e := by
  obtain rfl | ⟨a, rfl⟩ | rfl | rfl | rfl := mem_decodeEvents h
  · exact follows_withArg_decode
  · exact follows_withArg_symRd a
  all_goals exact (blockMap_withArg v).follows_read fun _ => rfl

theorem decompressSequence_eq (table : Memory Nat) (blob : List Byte) (n : Nat) :
    decompressSequence table blob n = [cmdEvent .clrAll] ++ (((loadEvents table ++ [cmdEvent .treeBuild]) ++
      (pushEvents blob ++ [cmdEvent .unpack])) ++ decodeEvents n) := by
  simp [decompressSequence, decompressEvents, decodeEvents]

theorem keepsFault_and_words_of_mem_loads {blob : List Byte}
    (h : e ∈ (loadEvents table ++ [cmdEvent .treeBuild]) ++ (pushEvents blob ++ [cmdEvent .unpack])) :
    e.keepsFault ∧ e.words = 0 :=
  (List.mem_append.1 h).elim (fun h => ⟨(tableEvent_of_mem h).keep, (tableEvent_of_mem h).silent⟩)
    fun h => ⟨(dataEvent_of_mem h).keep, (dataEvent_of_mem h).silent⟩

/-- A decompress sequence without a fault, taken apart: the table load to `l`, TREE_BUILD to `b`, the blob load to `d`,
DECODE and the read-out. -/
theorem exists_load_sessions {blob : List Byte} {n : Nat} {c : State} (running : s.resetPin = false)
    (served : Session s (decompressSequence table blob n) ws c) (noFault : c.fault = false) :
    ∃ l b d, State.Live l ∧ State.Live b ∧ State.Live d ∧ Session s.clear (loadEvents table) [] l ∧
      Session l [cmdEvent .treeBuild] [] b ∧ Session b (pushEvents blob ++ [cmdEvent .unpack]) [] d ∧
      Session d (decodeEvents n) ws c := by
  have loadsKeep : ∀ e ∈ (loadEvents table ++ [cmdEvent .treeBuild]) ++ (pushEvents blob ++ [cmdEvent .unpack]),
    e.keepsFault := fun _ h => (keepsFault_and_words_of_mem_loads h).1
  rw [decompressSequence_eq] at served
  have afterClear := (Session.append_iff (.cmd (i := .clrAll) running rfl rfl)).1 served
  obtain ⟨wl, wd, d, rfl, loads, liveD, decode⟩ := afterClear.exists_live_append
    (List.forall_mem_append.2 ⟨loadsKeep, fun _ => keepsFault_decodeEvents⟩) (.clear running) noFault
  obtain rfl := loads.words_eq_nil running loadsKeep fun _ h => (keepsFault_and_words_of_mem_loads h).2
  obtain ⟨b, first, liveB, data⟩ := loads.exists_silent_append loadsKeep (.clear running) liveD.noFault
  obtain ⟨l, load, liveL, build⟩ := first.exists_silent_append (List.forall_mem_append.1 loadsKeep).1 (.clear running)
    liveB.noFault
  exact ⟨l, b, d, liveL, liveB, liveD, load, build, data, decode⟩

/-- The decompress sequence with the pairs in any order differs in ARG at most (R276). -/
theorem exists_session_of_perm {blob : List Byte} {n : Nat} {c : State} (running : s.resetPin = false)
    (served : Session s (decompressSequence table blob n) ws c) (noFault : c.fault = false) (perm : pairs.Perm table) :
    ∃ v, Session s (decompressSequence pairs blob n) ws (c.withArg v) := by
  obtain ⟨l, b, d, liveL, liveB, liveD, load, build, data, decode⟩ := exists_load_sessions running served noFault
  obtain ⟨v, load'⟩ := load.load_perm perm (.clear running) ⟨.nil, fun _ h => nomatch h⟩ liveL.noFault
  have build' := follows_withArg_treeBuild (v := v) l [] b liveL build liveB.noFault
  have data' := data.data_withArg (fun _ => dataEvent_of_mem) liveB liveD.noFault v
  have decode' := (blockMap_withArg v).session (fun _ => follows_withArg_decodeEvents)
    (fun _ => keepsFault_decodeEvents) liveD decode noFault
  rw [decompressSequence_eq]
  exact ⟨v, (Session.cmd (i := .clrAll) running rfl rfl).append
    (((load'.append build').append data').append decode')⟩

/-- For one order of the pairs every allowed order ends as the listed one (R276). -/
theorem session_of_decompressOrder {blob : List Byte} {n : Nat} {c : State} (running : s.resetPin = false)
    (served : Session s (decompressSequence table blob n) ws c) (noFault : c.fault = false)
    (order : decompressOrder table blob n es) : Session s es ws c := by
  obtain ⟨l, b, d, liveL, liveB, liveD, load, build, data, decode⟩ := exists_load_sessions running served noFault
  obtain ⟨start, begins, loads, interleaved, rfl⟩ := order
  have loaded := interleaved.session (fun _ => tableEvent_of_mem) (fun _ => dataEvent_of_mem) (.clear running)
    ((load.append build).append data) liveD.noFault
  rw [List.append_assoc]
  exact ((session_startEvents running begins).append loaded).append decode

/-- Settles O57: the pairs of the table in the other order, then the two loads interleaved. -/
theorem everyAllowedDecompressOrderAgrees : Obligations.EveryAllowedDecompressOrderAgrees := by
  intro s c table pairs blob n words events running served noFault perm order
  have listed := Session.of_serve served
  obtain ⟨v, permuted⟩ := exists_session_of_perm running listed noFault perm
  obtain ⟨t, serve, same⟩ := session_of_decompressOrder running permuted noFault order
  have block := State.toBlock_eq_of_accept same
  have arg : t.arg = v := congrArg Block.arg block
  refine ⟨t, serve, arg ▸ block, ?_⟩
  rintro rfl
  exact arg.trans (congrArg Block.arg (State.toBlock_eq_of_accept (permuted.unique listed).2))

end Sys2Proof.Machine
end
